-- ==== Sys2Proof/Word.lean ====
section
/-! DEFINITION. Widths and the word types of GSPD (00_scope.md rules R7, R8, R11; 10_state.md rule R26). -/

namespace Sys2Proof

/-- A command word: exactly 32 bits (R80). -/
abbrev Word := BitVec 32

/-- A timeout, RESULT, IDVAL and TMO: TMO_BITS = 16 bits (R8, R40 to R42). -/
abbrev Timeout := BitVec 16

/-- One poll answer, the input vector IN: bit 3 clock, bits 2:0 the data lines (R22). -/
abbrev Lines := BitVec 4

/-- One slot of the packet buffer: SLOT_BITS = 3 bits, `data_in[k]` in bit k (R26). -/
abbrev Slot := BitVec 3

/-- CAP, the packet capacity in slots (R8, R26). The spec's Cfg lists it as a field; a greater CAP would need
wider index fields (93_implementation_defined.md U26), so the model fixes it. DESIGN CHOICE, log 11. -/
abbrev capSlots : Nat := 128

/-- One location of the slot space: its index and its content (R60). -/
abbrev SlotCell := Nat × Slot

/-- The packet buffer PKT as data: the slots that are not 0, indices rising (`Memory.wf`). The addressable unit
is the slot, there is no byte (R60). DESIGN CHOICE, log 11. -/
abbrev Packet := List SlotCell

end Sys2Proof
end

