-- ==== Sys2Proof/Syntax.lean ====
section
/-! DEFINITION. The 25 operations of GSPD, one constructor per row of spec/opcode_table.json
(30_encoding.md rules R83, R84). -/

namespace Sys2Proof

/-- A line operand (R84): 0 D0, 1 D1, 2 D2, 3 CLK. -/
inductive Line where
  | d0 | d1 | d2 | clk
  deriving DecidableEq, Repr

/-- An edge direction operand (R84): 0 ANY, 1 RISING, 2 FALLING. Code 3 is illegal and has no constructor. -/
inductive Dir where
  | any | rising | falling
  deriving DecidableEq, Repr

/-- The operations. A level is a Bool (true is 1, high). -/
inductive Instr where
  /-- NOP (R115). -/
  | nop
  /-- RDLVL line (R116). -/
  | rdlvl (line : Line)
  /-- SETTRIG level (R117). -/
  | settrig (level : Bool)
  /-- PULSE us (R118). -/
  | pulse (us : BitVec 16)
  /-- WAITEDGE line, dir, tmo (R119). -/
  | waitedge (line : Line) (dir : Dir) (tmo : Timeout)
  /-- WAITLVL line, level, tmo (R120). -/
  | waitlvl (line : Line) (level : Bool) (tmo : Timeout)
  /-- ACQS (R144). -/
  | acqs
  /-- ACQT (R145). -/
  | acqt
  /-- ACQB (R147). -/
  | acqb
  /-- MODESW (R150). -/
  | modesw
  /-- COOLDOWN (R149). -/
  | cooldown
  /-- READID len (R174). -/
  | readid (len : BitVec 8)
  /-- DETECT (R176). -/
  | detect
  /-- DECODE (R202). -/
  | decode
  /-- DEC.GP (R204). -/
  | decGp
  /-- DEC.3DP (R207). -/
  | dec3dp
  /-- DEC.PP (R210). -/
  | decPp
  /-- DEC.FFP (R212). -/
  | decFfp
  /-- DEC.FFW (R215). -/
  | decFfw
  /-- INIT (R244). -/
  | init
  /-- UPDATE (R246). -/
  | update
  /-- RDREG addr (R250). -/
  | rdreg (addr : BitVec 8)
  /-- HATNIB nib (R217). -/
  | hatnib (nib : BitVec 4)
  /-- WRSLOT idx, val (R251). -/
  | wrslot (idx : BitVec 7) (val : Slot)
  /-- SETLEN n (R252); legal only for n <= 128. -/
  | setlen (n : BitVec 8)
  deriving DecidableEq, Repr

end Sys2Proof
end

