-- ==== Sys2Proof/Config.lean ====
section
/-! DEFINITION. The configuration block Cfg of 00_scope.md rules R6 to R9 as a structure (its default values stand
in Machine/Tables.lean), and the free values: constants without a body, for the OPEN parameters (R9) and for what
the spec leaves unspecified (93_implementation_defined.md). -/

namespace Sys2Proof

/-- DeviceModel (10_state.md rule R29): "Values 6 and 7 are never held", so they have no constructor. -/
inductive Model where
  | unknown | gamePad | threeDPro | precisionPro | forceFeedbackPro | forceFeedbackWheel
  deriving DecidableEq, Repr

/-- The acquisition families (R84, 41_acquisition.md rule R151). -/
inductive Family where
  | simple | threeWire | byteFramed
  deriving DecidableEq, Repr

/-- One entry of LEN_TABLE (42_detection.md rule R171): none, one model, or an ambiguous pair
(default model, alternative model). -/
inductive LenEntry where
  | noModel
  | one (m : Model)
  | ambiguous (dflt alt : Model)
  deriving DecidableEq, Repr

/-- A field piece of the assembled value: `len` bits from bit `pos` up, GB(V, pos, len) (43_decoders.md rule R193). -/
structure Piece where
  pos : Nat
  len : Nat
  deriving DecidableEq, Repr

/-- How one axis stands in the packet: GamePad's direction pair (rule R203), or a native value made of pieces, the
low one first, with its native maximum (rules R205, R208, R213). -/
inductive AxisField where
  | pair (a b : Nat)
  | native (pieces : List Piece) (max : Nat)
  deriving DecidableEq, Repr

/-- LAYOUT of one model (rule R8, rules R191 and R203 to R213): content width W, the length with one bit per slot,
the length with three (if any), the axes from AXIS[0] on, the raw hat (if any) and the raw buttons, pieces low first. -/
structure Layout where
  width : Nat
  len1 : Nat
  len3 : Option Nat
  axes : List AxisField
  hat : Option (List Piece)
  buttons : List Piece
  deriving DecidableEq, Repr

/-- One row of DESC_TABLE (10_state.md rules R35, R36). -/
structure Desc where
  name : String
  naxes : Nat
  nbuttons : Nat
  hashat : Bool
  deriving DecidableEq, Repr

/-- The configuration block Cfg (R6): static, not state; every procedure of the model takes it as an argument.
CAP, SLOT_BITS and TMO_BITS are fixed by the types of Word.lean. -/
structure Cfg where
  /-- TICK_US, duration of one poll iteration (R9, OPEN); no rule reads it (R314). -/
  tickUs : Nat
  /-- T_FIRST, budget of the first clock wait in polls. -/
  tFirst : Timeout
  /-- T_NEXT, budget of every later clock wait in polls. -/
  tNext : Timeout
  /-- FIRST_DIR, direction of the first clock wait. -/
  firstDir : Dir
  /-- SAMPLE_DIR of the simple and three-wire families. -/
  sampleDir : Dir
  /-- COOLDOWN_US. -/
  cooldownUs : Nat
  /-- FAMILY used by INIT and UPDATE. -/
  family : Family
  /-- LEN_TABLE, packet length to entry. -/
  lenTable : Nat → LenEntry
  /-- MODESW_BELOW: lengths below it count as too short. -/
  modeswBelow : Nat
  /-- MODESW_PULSE_US (R9, OPEN). -/
  modeswPulseUs : Nat
  /-- MODESW_SEQ, the inter-pulse delays (R9, OPEN). -/
  modeswSeq : List Nat
  /-- ID_POS1(L) (R9, OPEN). -/
  idPos1 : Nat → Nat
  /-- ID_POS2(L) (R9, OPEN). -/
  idPos2 : Nat → Nat
  /-- ID_EXTRACT(PKT, PKTLEN, L) (R173). -/
  idExtract : Packet → Nat → Nat → BitVec 16
  /-- The threshold predicate "id chooses the alternative" (R175: "keep the predicate as a field of Cfg"). -/
  idIsAlt : BitVec 16 → Bool
  /-- ERR_THRESHOLD. -/
  errThreshold : Nat
  /-- PAR_EVEN, parity sense of PrecisionPro, ForceFeedbackPro and ForceFeedbackWheel (R195). -/
  parEven : Bool
  /-- SYNC_MASK (R196). -/
  syncMask : BitVec 64
  /-- SYNC_VALUE (R196). -/
  syncValue : BitVec 64
  /-- LAYOUT per model; the entry of Unknown is used by no rule. -/
  layout : Model → Layout
  /-- HAT_REMAP (R199). -/
  hatRemap : BitVec 4 → BitVec 4
  /-- HATNIB_TABLE (R216). -/
  hatnibTable : BitVec 4 → BitVec 4
  /-- NIBBLE_HAT capability per model (R216); no decoder of the spec consults it. -/
  nibbleHat : Model → Bool
  /-- DESC_TABLE (R36). -/
  desc : Model → Desc

/-- The n-th poll answer of the device where the state's `feed` gives none: any 4-bit vector (R13, U11). Log 1. -/
opaque Config.deviceAnswer : Nat → Lines

/-- LASTIN after a reset by the pin: unspecified (R50, U12). Log 5. -/
opaque Config.resetLastin : Nat → Lines

/-- AXIS[i] after a reset by the pin: unspecified (R50, U12). Log 5. -/
opaque Config.resetAxis : Nat → Nat → BitVec 10

/-- HAT after a reset by the pin: unspecified within its range 0..8 (R31, R49, R50). DEDUCED, log 7. -/
opaque Config.resetHat : Nat → Fin 9

/-- BUTTONS after a reset by the pin: unspecified (R50, U12). Log 5. -/
opaque Config.resetButtons : Nat → BitVec 16

/-- What a register read gives while BUSY = 1, but for STATUS.BUSY (R72, U13). Log 8. -/
opaque Config.busyRead : Nat → BitVec 8 → BitVec 16

/-- TICK_US (R9, OPEN). Log 10. -/
opaque Config.tickUs : Nat

/-- MODESW_PULSE_US (R9, OPEN). Log 10. -/
opaque Config.modeswPulseUs : Nat

/-- MODESW_SEQ, a finite list of delays (R9, OPEN): its first entry. Not empty: DEDUCED, logs 10, 21. -/
opaque Config.modeswFirst : Nat

/-- The further entries of MODESW_SEQ (R9, OPEN). Log 10. -/
opaque Config.modeswRest : List Nat

/-- A free number from which ID_POS1 is formed (R9, OPEN). Log 10. -/
opaque Config.idPos1Free : Nat → Nat

/-- A free number from which ID_POS2 is formed (R9, OPEN). Log 10. -/
opaque Config.idPos2Free : Nat → Nat

end Sys2Proof
end

