-- ==== Sys2Proof/Machine/State.lean ====
section
/-! DEFINITION. The state of GSPD (10_state.md rule R20), the outcomes' reasons, and the state after reset
(rule R50, 70_reset_and_hazards.md rule R300). -/

namespace Sys2Proof.Machine

/-- The error kinds held by LASTERR (60_exceptions.md rule R272); codes 5 and 6 are never held. -/
inductive ErrKind where
  | noError | acquisitionTimeout | framingError | integrityError | lengthMismatch | illegalCommand
  deriving DecidableEq, Repr

/-- Which operation called Init() (44_policy.md rules R244, R245): INIT, UPDATE with MODEL Unknown, or the
escalation of UPDATE. -/
inductive InitCaller where
  | cmdInit | updateUnknown | updateEscalated
  deriving DecidableEq, Repr

/-- SEQ, the sequencer state (R45): IDLE, or the head of the loop of Init() for a caller. Every bounded stretch of
pseudocode is one step of the model, as R45 allows ("run each operation as one big step"), so the loop head of
Init(), the only unbounded loop, is the only position at which a step can end inside an operation. DEDUCED, log 2. -/
inductive Seq where
  | idle
  | initLoop (k : InitCaller)
  deriving DecidableEq, Repr

/-- The events of the ghost history EVT (00_scope.md rule R13). -/
inductive Event where
  /-- P(v): a poll answered v. -/
  | poll (v : Lines)
  /-- T(l): the trigger was driven to l. -/
  | trig (l : Bool)
  /-- C(b): the critical section output was driven to b. -/
  | crit (b : Bool)
  /-- D(u): u microseconds passed with no poll. -/
  | delay (us : Nat)
  deriving DecidableEq, Repr

/-- The reset input `rst` as the host drives it against the next step (70_reset_and_hazards.md rules R300, R302). Log 5. -/
inductive ResetPin where
  /-- Not asserted. -/
  | low
  /-- Asserted before the step: nothing runs. -/
  | high
  /-- Asserted while the step's operation runs, at the instant when it has made n events (polls, trigger and critical
  section changes, delays), or when it has ended if it makes no more than n. -/
  | during (n : Nat)
  deriving DecidableEq, Repr

/-- The hidden state inside an operation (R46): "None survives the operation that uses it". -/
structure Hidden where
  /-- Edge memory of a wait in progress. -/
  last : Bool
  /-- Byte-frame position 0..9. -/
  pos : Nat
  /-- Shift register of the byte in progress. -/
  sh : BitVec 8
  /-- Framing-error flag of the acquisition in progress. -/
  ferr : Bool
  /-- Loop index of MODESW. -/
  modeIdx : Nat
  deriving DecidableEq, Repr

/-- The hidden state when no operation uses it: dead (R50). Its values are the model's. DESIGN CHOICE, log 2. -/
abbrev Hidden.dead : Hidden := { last := false, pos := 0, sh := 0, ferr := false, modeIdx := 0 }

/-- The state of GSPD and of the wires it reads. The last four fields are the environment's, not GSPD's (INVENTORY). -/
structure State where
  /-- TRIG (R23). -/
  trig : Bool
  /-- CRIT (R24). -/
  crit : Bool
  /-- LASTIN (R25). -/
  lastin : Lines
  /-- PKT (R26). -/
  pkt : Packet
  /-- PKTLEN (R27). -/
  pktlen : BitVec 8
  /-- MODEL (R29). -/
  model : Model
  /-- AXIS[0..15] (R30). -/
  axis : Vector (BitVec 10) 16
  /-- HAT (R31). -/
  hat : BitVec 4
  /-- BUTTONS (R32). -/
  buttons : BitVec 16
  /-- VALID (R33), also STATUS bit 5. -/
  valid : Bool
  /-- ERRCNT (R37). -/
  errcnt : BitVec 8
  /-- LASTERR (R38). -/
  lasterr : ErrKind
  /-- STATUS.OK (R39). -/
  ok : Bool
  /-- STATUS.ILL (R39). -/
  ill : Bool
  /-- STATUS.REDET (R39). -/
  redet : Bool
  /-- STATUS.FERR (R39). -/
  ferr : Bool
  /-- RESULT (R40). -/
  result : BitVec 16
  /-- IDVAL (R41). -/
  idval : BitVec 16
  /-- TMO (R42). -/
  tmo : Timeout
  /-- SEQ (R45), also STATUS.BUSY. -/
  seq : Seq
  /-- Hidden state (R46). -/
  hid : Hidden
  /-- EVT (R47), oldest event first. -/
  evt : List Event
  /-- The model's own: the device's coming poll answers, as far as they are given (R13). Log 1. -/
  feed : List Lines
  /-- The model's own: the index of the next free value. Log 1. -/
  draws : Nat
  /-- The model's own: the words the host presents on the command port, the head first (R21, R97). Log 4. -/
  cmds : List Word
  /-- The model's own: what the reset input does at the next step (R300, R302). Log 5. -/
  rst : ResetPin
  deriving DecidableEq, Repr

/-- No constructor: "There is no trap, no fault that stops the block" (R14); "Nothing in GSPD has the treatment
`fault`" (93_implementation_defined.md). That the type is empty is safe for claims that no fault happens only as
far as those sentences are true. DEDUCED, log 13. -/
inductive Fault where
  deriving DecidableEq, Repr

/-- Why an instruction has no meaning in the model. -/
inductive Refusal where
  /-- Raised by an arm of `exec` whose instruction is not modelled yet; no arm raises it now. Safe. -/
  | notModelled (mnemonic : String)
  deriving DecidableEq, Repr

/-- The machine right after reset (R50, R300). LASTIN, AXIS, HAT and BUTTONS are unspecified there and 0 here:
DESIGN CHOICE, unsafe, log 6. The device's answers and the host's words are not given: logs 1, 4. -/
def State.reset : State where
  trig := false
  crit := false
  lastin := 0
  pkt := []
  pktlen := 0
  model := .unknown
  axis := Vector.replicate 16 0
  hat := 0
  buttons := 0
  valid := false
  errcnt := 0
  lasterr := .noError
  ok := false
  ill := false
  redet := false
  ferr := false
  result := 0
  idval := 0
  tmo := 0
  seq := .idle
  hid := Hidden.dead
  evt := []
  feed := []
  draws := 0
  cmds := []
  rst := .low

end Sys2Proof.Machine
end

