-- ==== Sys2Proof/Machine/Operands.lean ====
section
/-! DEFINITION. Operand forms: what a line, a direction and the register codes select (10_state.md rules R22, R29,
R38; 30_encoding.md rule R84; 40_bit_channel.md rule R113). -/

namespace Sys2Proof.Machine

/-- The bit of the input vector a line names (R22): D0, D1, D2, CLK are bits 0 to 3. -/
def lineIndex (l : Line) : Nat :=
  match l with
  | .d0 => 0
  | .d1 => 1
  | .d2 => 2
  | .clk => 3

/-- `v[line]` (R22, R111): "A wait on line n looks only at bit n of each answer". -/
def lineLevel (l : Line) (v : Lines) : Bool := v.getLsbD (lineIndex l)

/-- `v[2:0]`, the data lines of an answer (R22, R143). -/
def dataLines (v : Lines) : Slot := v.extractLsb' 0 3

/-- Whether a change to level `nxt` is one the direction asks for (R113). -/
def dirWants (d : Dir) (nxt : Bool) : Bool :=
  match d with
  | .any => true
  | .rising => nxt
  | .falling => !nxt

/-- The code of MODEL (R29). -/
def modelCode (m : Model) : BitVec 3 :=
  match m with
  | .unknown => 0
  | .gamePad => 1
  | .threeDPro => 2
  | .precisionPro => 3
  | .forceFeedbackPro => 4
  | .forceFeedbackWheel => 5

/-- The code of LASTERR (R38, R272). -/
def errCode (e : ErrKind) : BitVec 3 :=
  match e with
  | .noError => 0
  | .acquisitionTimeout => 1
  | .framingError => 2
  | .integrityError => 3
  | .lengthMismatch => 4
  | .illegalCommand => 7

/-- A one-bit register as a 16-bit value. -/
def bit16 (b : Bool) : BitVec 16 := (BitVec.ofBool b).setWidth 16

end Sys2Proof.Machine
end

