-- ==== Sys2Proof/Machine/Flags.lean ====
section
/-! DEFINITION. The STATUS register (10_state.md rule R39) and how a command records its outcome
(60_exceptions.md rules R271, R272; 30_encoding.md rule R95). -/

namespace Sys2Proof.Machine

/-- STATUS as a word (R39): bit 0 BUSY, 1 OK, 2 ILL, 3 REDET, 4 FERR, 5 VALID, 7:6 zero, 8 TRIG, 9 CRIT, 15:10 zero.
BUSY is an argument, because RDREG reads it as 0 (44_policy.md rule R250). -/
def statusWord (busy : Bool) (s : State) : BitVec 16 :=
  (0 : BitVec 6) ++ BitVec.ofBool s.crit ++ BitVec.ofBool s.trig ++ (0 : BitVec 2) ++ BitVec.ofBool s.valid
    ++ BitVec.ofBool s.ferr ++ BitVec.ofBool s.redet ++ BitVec.ofBool s.ill ++ BitVec.ofBool s.ok ++ BitVec.ofBool busy

/-- STATUS.BUSY: "1 while an operation is executing (SEQ is not IDLE)" (R39). -/
def State.busy (s : State) : Bool := s.seq ≠ .idle

/-- What every command but RDREG, INIT and UPDATE records when it completes with kind `e` (R271 and the operation
rules): LASTERR is the kind, OK says whether it is None, ILL and REDET are 0. -/
def State.complete (e : ErrKind) (s : State) : State :=
  { s with ok := e = .noError, ill := false, redet := false, lasterr := e }

/-- RESULT <- v (R40). -/
def State.setResult (v : BitVec 16) (s : State) : State := { s with result := v }

/-- `raise <Kind>` (R12, R271): LASTERR <- code(Kind), STATUS.OK <- 0, nothing else. -/
def State.raise (e : ErrKind) (s : State) : State := { s with lasterr := e, ok := false }

end Sys2Proof.Machine
end

