-- ==== Sys2Proof/Machine/Memory.lean ====
section
/-! DEFINITION. The slot space PKT (20_memory.md rules R60 to R62) as a canonical list of slots. A slot that is not
listed reads 0, the spec's own reset content (10_state.md rule R50). -/

namespace Sys2Proof.Machine

/-- MemRead(i, 1) (R61): the slot at index i, 0 where nothing is listed. No side effect. -/
def Memory.read (p : Packet) (i : Nat) : Slot :=
  match p with
  | [] => 0
  | c :: rest => if c.1 = i then c.2 else Memory.read rest i

/-- The list without the slot at index i. -/
def Memory.erase (p : Packet) (i : Nat) : Packet :=
  match p with
  | [] => []
  | c :: rest => if c.1 = i then Memory.erase rest i else c :: Memory.erase rest i

/-- A slot put before the first entry of a greater index. -/
def Memory.insert (p : Packet) (i : Nat) (v : Slot) : Packet :=
  match p with
  | [] => [(i, v)]
  | c :: rest => if i < c.1 then (i, v) :: c :: rest else c :: Memory.insert rest i v

/-- MemWrite(i, 1, v) (R62). Writing 0 removes the entry, so that equal contents are equal lists. -/
def Memory.write (p : Packet) (i : Nat) (v : Slot) : Packet :=
  if v = 0 then Memory.erase p i else Memory.insert (Memory.erase p i) i v

/-- The slots below index n; every slot at n and above becomes 0 (44_policy.md rule R252). -/
def Memory.below (p : Packet) (n : Nat) : Packet :=
  match p with
  | [] => []
  | c :: rest => if c.1 < n then c :: Memory.below rest n else Memory.below rest n

/-- Every index of the list is greater than `lo`'s bound: indices rise strictly from `lo` on, lie below CAP, and no
listed slot is 0. -/
def Memory.wfFrom (lo : Nat) (p : Packet) : Bool :=
  match p with
  | [] => true
  | c :: rest => decide (lo ≤ c.1) && decide (c.1 < capSlots) && decide (c.2 ≠ 0) && Memory.wfFrom (c.1 + 1) rest

/-- The canonical form: indices strictly rising and below 128, no entry equal to what an unlisted slot reads as. -/
def Memory.wf (p : Packet) : Bool := Memory.wfFrom 0 p

end Sys2Proof.Machine
end

