-- ==== Sys2Proof/Machine/Ops.lean ====
section
/-! DEFINITION. The named operations every procedure is made of: the four primitives of 00_scope.md rule R13, the
packet buffer's operations, the refusal of an illegal word (30_encoding.md rule R95), and the entry into and the
return from Init(), GSPD's trap analogue (60_exceptions.md rules R280, R281). -/

namespace Sys2Proof.Machine

/-- One event is appended to EVT (R13, R47). -/
def State.log (e : Event) (s : State) : State := { s with evt := s.evt ++ [e] }

/-- The device's answer to the next poll: the next given one, else a free value (R13, U11). Log 1. -/
def State.nextAnswer (s : State) : Lines :=
  match s.feed with
  | v :: _ => v
  | [] => Config.deviceAnswer s.draws

/-- The environment after one answer: a given answer is used up, or the counter of free values advances. -/
def State.takeAnswer (s : State) : State :=
  match s.feed with
  | _ :: rest => { s with feed := rest }
  | [] => { s with draws := s.draws + 1 }

/-- poll() (R13, R111): the answer is latched in LASTIN and recorded in EVT. The vector polled is LASTIN after it. -/
def State.poll (s : State) : State :=
  { s.takeAnswer with lastin := s.nextAnswer, evt := s.evt ++ [.poll s.nextAnswer] }

/-- trig(l) (R13): TRIG <- l, drives trigger_out, event T(l). -/
def State.driveTrig (l : Bool) (s : State) : State := { s with trig := l, evt := s.evt ++ [.trig l] }

/-- crit(b) (R13): CRIT <- b, drives crit_out, event C(b). -/
def State.driveCrit (b : Bool) (s : State) : State := { s with crit := b, evt := s.evt ++ [.crit b] }

/-- delay(u) (R13): u microseconds with no poll, event D(u). -/
def State.pause (us : Nat) (s : State) : State := s.log (.delay us)

/-- MemWrite(i, 1, v) (R62). -/
def State.writeSlot (i : Nat) (v : Slot) (s : State) : State := { s with pkt := Memory.write s.pkt i v }

/-- MemRead(i, 1) (R61). -/
def State.readSlot (s : State) (i : Nat) : Slot := Memory.read s.pkt i

/-- `MemWrite(PKTLEN, 1, v); PKTLEN <- PKTLEN + 1` (41_acquisition.md rule R143). -/
def State.appendSlot (v : Slot) (s : State) : State :=
  { s.writeSlot s.pktlen.toNat v with pktlen := s.pktlen + 1 }

/-- Fresh() (R28, R142): PKTLEN <- 0, every slot <- 0, STATUS.FERR <- 0. -/
def State.fresh (s : State) : State := { s with pktlen := 0, pkt := [], ferr := false }

/-- An illegal word is refused (R95): STATUS.ILL <- 1, OK <- 0, REDET <- 0, LASTERR <- IllegalCommand, nothing else. -/
def State.refuseIllegal (s : State) : State :=
  { s.raise .illegalCommand with ill := true, redet := false }

/-- Entry into Init() (44_policy.md rule R242 first line; R280): ERRCNT <- 0. Nothing is saved, there is no return
address; AXIS, HAT, BUTTONS, VALID and LASTERR are kept. -/
def State.enterInit (s : State) : State := { s with errcnt := 0 }

/-- The position at the head of the loop of Init() for a caller (R45). -/
def State.loopInit (k : InitCaller) (s : State) : State := { s with seq := .initLoop k }

/-- Return from Init() to its caller, whose last lines run, and SEQ <- IDLE (R45, R281). INIT: RESULT <- MODEL, OK <- 1,
LASTERR <- 0, ILL <- 0, REDET <- 0 (R244). UPDATE with MODEL Unknown: REDET <- 1, OK <- 0, LASTERR <- None, RESULT <- OK
(R245, R246). Escalated UPDATE: REDET <- 1, LASTERR and OK as the failed cycle left them, RESULT <- OK (R245, R249). -/
def State.leaveInit (k : InitCaller) (s : State) : State :=
  match k with
  | .cmdInit => { (s.complete .noError).setResult ((modelCode s.model).setWidth 16) with seq := .idle }
  | .updateUnknown =>
    { s with redet := true, ok := false, lasterr := .noError, ill := false, result := bit16 false, seq := .idle }
  | .updateEscalated => { s with redet := true, ill := false, result := bit16 s.ok, seq := .idle }

end Sys2Proof.Machine
end

