-- ==== Sys2Proof/Machine/Wait.lean ====
section
/-! DEFINITION. WaitEdge and WaitLevel (40_bit_channel.md rules R113, R114). A wait returns (rem, v); `rem` is TMO when
it ends (10_state.md rule R42: "Its value when a wait ends is the wait's return value") and `v` is LASTIN (rule R25),
so a wait is a function from state to state and its callers read TMO and LASTIN. DEDUCED, log 15. -/

namespace Sys2Proof.Machine

/-- TMO <- v (R42). -/
def State.setTmo (v : Timeout) (s : State) : State := { s with tmo := v }

/-- The edge memory `last` of the wait in progress (R46). -/
def State.setLast (b : Bool) (s : State) : State := { s with hid := { s.hid with last := b } }

/-- The loop of WaitEdge (R113), `n` the polls the budget still allows: TMO = n at every entry. An unwanted change
becomes the new reference level and costs one unit. -/
def waitEdgeLoop (l : Line) (d : Dir) (n : Nat) (s : State) : State :=
  match n with
  | 0 => s
  | n + 1 =>
    let p := s.poll
    let nxt := lineLevel l p.lastin
    if nxt ≠ s.hid.last ∧ dirWants d nxt = true then p
    else waitEdgeLoop l d n ((p.setLast nxt).setTmo (s.tmo - 1))

/-- WaitEdge(line, dir, N) (R113): one initial poll, not charged, then the loop; the edge memory is dead at the end. -/
def waitEdge (l : Line) (d : Dir) (budget : Timeout) (s : State) : State :=
  let p := s.poll
  (waitEdgeLoop l d budget.toNat ((p.setLast (lineLevel l p.lastin)).setTmo budget)).setLast false

/-- The loop of WaitLevel (R114), TMO = n at every entry. -/
def waitLevelLoop (l : Line) (level : Bool) (n : Nat) (s : State) : State :=
  match n with
  | 0 => s
  | n + 1 =>
    let p := s.poll
    if lineLevel l p.lastin = level then p
    else waitLevelLoop l level n (p.setTmo (s.tmo - 1))

/-- WaitLevel(line, level, N) (R114): no initial poll. -/
def waitLevel (l : Line) (level : Bool) (budget : Timeout) (s : State) : State :=
  waitLevelLoop l level budget.toNat (s.setTmo budget)

/-- The error kind of WAITEDGE and WAITLVL: AcquisitionTimeout exactly when rem = 0 (R119, R120, R273). -/
def waitKind (s : State) : ErrKind := if s.tmo = 0 then .acquisitionTimeout else .noError

end Sys2Proof.Machine
end

