-- ==== Sys2Proof/Machine/BitChannel.lean ====
section
/-! DEFINITION. NOP, RDLVL, SETTRIG, PULSE, WAITEDGE, WAITLVL (40_bit_channel.md rules R115 to R120). -/

namespace Sys2Proof.Machine

/-- NOP (R115). -/
def opNop (s : State) : State :=
  s.complete .noError

/-- NOP (R115): `opNop` as a step, a next state always. -/
def execNop (s : State) : Host.Outcome State Fault Refusal :=
  .next (opNop s)

/-- RDLVL line (R116): `v <- poll(); RESULT <- zext_16(v[line])`. -/
def opRdlvl (line : Line) (s : State) : State :=
  let p := s.poll
  (p.setResult (bit16 (lineLevel line p.lastin))).complete .noError

/-- RDLVL line (R116): `opRdlvl` as a step, a next state always. -/
def execRdlvl (line : Line) (s : State) : Host.Outcome State Fault Refusal :=
  .next (opRdlvl line s)

/-- SETTRIG level (R117): `trig(level)`. -/
def opSettrig (level : Bool) (s : State) : State :=
  (s.driveTrig level).complete .noError

/-- SETTRIG level (R117): `opSettrig` as a step, a next state always. -/
def execSettrig (level : Bool) (s : State) : Host.Outcome State Fault Refusal :=
  .next (opSettrig level s)

/-- PULSE us (R118): `trig(1); delay(us); trig(0)`. -/
def opPulse (us : BitVec 16) (s : State) : State :=
  (((s.driveTrig true).pause us.toNat).driveTrig false).complete .noError

/-- PULSE us (R118): `opPulse` as a step, a next state always. -/
def execPulse (us : BitVec 16) (s : State) : Host.Outcome State Fault Refusal :=
  .next (opPulse us s)

/-- WAITEDGE line, dir, tmo (R119): `(rem, v) <- WaitEdge(line, dir, tmo); RESULT <- rem`. -/
def opWaitedge (line : Line) (dir : Dir) (tmo : Timeout) (s : State) : State :=
  let w := waitEdge line dir tmo s
  (w.setResult w.tmo).complete (waitKind w)

/-- WAITEDGE line, dir, tmo (R119): `opWaitedge` as a step, a next state always. -/
def execWaitedge (line : Line) (dir : Dir) (tmo : Timeout) (s : State) : Host.Outcome State Fault Refusal :=
  .next (opWaitedge line dir tmo s)

/-- WAITLVL line, level, tmo (R120): `(rem, v) <- WaitLevel(line, level, tmo); RESULT <- rem`. -/
def opWaitlvl (line : Line) (level : Bool) (tmo : Timeout) (s : State) : State :=
  let w := waitLevel line level tmo s
  (w.setResult w.tmo).complete (waitKind w)

/-- WAITLVL line, level, tmo (R120): `opWaitlvl` as a step, a next state always. -/
def execWaitlvl (line : Line) (level : Bool) (tmo : Timeout) (s : State) : Host.Outcome State Fault Refusal :=
  .next (opWaitlvl line level tmo s)

end Sys2Proof.Machine
end

