-- ==== Sys2Proof/Machine/Tables.lean ====
section
/-! DEFINITION. The default values of the configuration block (00_scope.md rule R8) and the machine's own
configuration `cfg`: the defaults, with the OPEN parameters of rule R9 left free. Logs 9, 10. -/

namespace Sys2Proof.Machine

/-- LEN_TABLE (42_detection.md rule R171). -/
def defaultLenTable (len : Nat) : LenEntry :=
  if len = 15 then .one .gamePad
  else if len = 16 ∨ len = 48 then .ambiguous .precisionPro .forceFeedbackPro
  else if len = 11 ∨ len = 33 then .one .forceFeedbackWheel
  else if len = 22 ∨ len = 64 then .one .threeDPro
  else .noModel

/-- ID_EXTRACT (42_detection.md rule R173): PKTLEN - L if PKTLEN > L, else 0. -/
def defaultIdExtract (_ : Packet) (pktlen len : Nat) : BitVec 16 := BitVec.ofNat 16 (pktlen - len)

/-- ID_THRESHOLD = 14; the alternative model is chosen when id >= ID_THRESHOLD (42_detection.md rule R175). -/
def defaultIdIsAlt (id : BitVec 16) : Bool := decide (14 ≤ id.toNat)

/-- HAT_REMAP (43_decoders.md rule R199): identity on 0..8, 0 on 9..15. -/
def defaultHatRemap (h : BitVec 4) : BitVec 4 := if h.toNat ≤ 8 then h else 0

/-- HATNIB_TABLE (43_decoders.md rule R216): 0b0011 to 7, 0b0101 to 6, every other code 0. -/
def defaultHatnib (n : BitVec 4) : BitVec 4 :=
  if n = 0b0011 then 7 else if n = 0b0101 then 6 else 0

/-- GamePad layout (43_decoders.md rules R191, R203). -/
def gamePadLayout : Layout where
  width := 15
  len1 := 15
  len3 := none
  axes := [.pair 0 1, .pair 2 3]
  hat := none
  buttons := [⟨4, 10⟩]

/-- ThreeDPro layout (43_decoders.md rules R191, R205): low pieces first. -/
def threeDProLayout : Layout where
  width := 64
  len1 := 64
  len3 := some 22
  axes := [.native [⟨16, 7⟩, ⟨3, 3⟩] 1023, .native [⟨24, 7⟩, ⟨0, 3⟩] 1023,
           .native [⟨40, 7⟩, ⟨35, 2⟩] 511, .native [⟨48, 7⟩, ⟨32, 3⟩] 1023]
  hat := some [⟨60, 3⟩, ⟨6, 1⟩]
  buttons := [⟨8, 7⟩, ⟨38, 1⟩]

/-- PrecisionPro layout (43_decoders.md rules R191, R208, R210): X, Y, twist, throttle. -/
def precisionProLayout : Layout where
  width := 48
  len1 := 48
  len3 := some 16
  axes := [.native [⟨9, 10⟩] 1023, .native [⟨19, 10⟩] 1023, .native [⟨36, 6⟩] 63, .native [⟨29, 7⟩] 127]
  hat := some [⟨42, 4⟩]
  buttons := [⟨0, 9⟩]

/-- ForceFeedbackPro layout: that of PrecisionPro (43_decoders.md rules R211, R212). -/
def forceFeedbackProLayout : Layout := precisionProLayout

/-- ForceFeedbackWheel layout (43_decoders.md rules R191, R213, R215). -/
def forceFeedbackWheelLayout : Layout where
  width := 33
  len1 := 33
  len3 := some 11
  axes := [.native [⟨0, 10⟩] 1023, .native [⟨10, 6⟩] 63, .native [⟨16, 6⟩] 63]
  hat := none
  buttons := [⟨22, 8⟩]

/-- LAYOUT (rule R8). Unknown has no layout; its entry is never read (43_decoders.md rule R191 first line). -/
def defaultLayout (m : Model) : Layout :=
  match m with
  | .unknown => { width := 0, len1 := 0, len3 := none, axes := [], hat := none, buttons := [] }
  | .gamePad => gamePadLayout
  | .threeDPro => threeDProLayout
  | .precisionPro => precisionProLayout
  | .forceFeedbackPro => forceFeedbackProLayout
  | .forceFeedbackWheel => forceFeedbackWheelLayout

/-- DESC_TABLE (10_state.md rule R36). -/
def defaultDesc (m : Model) : Desc :=
  match m with
  | .unknown => { name := "", naxes := 0, nbuttons := 0, hashat := false }
  | .gamePad => { name := "MS Sidewinder GamePad", naxes := 2, nbuttons := 10, hashat := false }
  | .threeDPro => { name := "MS Sidewinder 3D Pro", naxes := 4, nbuttons := 8, hashat := true }
  | .precisionPro => { name := "MS Sidewinder Precision Pro", naxes := 4, nbuttons := 9, hashat := true }
  | .forceFeedbackPro => { name := "MS Sidewinder Force Feedback Pro", naxes := 4, nbuttons := 9, hashat := true }
  | .forceFeedbackWheel =>
    { name := "MS Sidewinder Force Feedback Wheel", naxes := 3, nbuttons := 8, hashat := false }

/-- Whether a length is one for which rule R9 bounds the toggle positions: an ambiguous length of LEN_TABLE. -/
def ambiguousLength (len : Nat) : Bool :=
  match defaultLenTable len with
  | .ambiguous _ _ => true
  | .noModel | .one _ => false

/-- ID_POS1(L) (R9, OPEN): a free number, for an ambiguous L any of 1 .. L - 2, so that
0 < ID_POS1(L) < ID_POS2(L) < L can hold. Log 10. -/
def openIdPos1 (len : Nat) : Nat :=
  if ambiguousLength len then 1 + Config.idPos1Free len % (len - 2) else Config.idPos1Free len

/-- ID_POS2(L) (R9, OPEN): a free number, for an ambiguous L any of ID_POS1(L) + 1 .. L - 1. Log 10. -/
def openIdPos2 (len : Nat) : Nat :=
  if ambiguousLength len then openIdPos1 len + 1 + Config.idPos2Free len % (len - 1 - openIdPos1 len)
  else Config.idPos2Free len

/-- The machine's configuration: the defaults of rule R8, and the OPEN parameters of rule R9 free. Logs 9, 10; that
MODESW_SEQ is not empty is log 21's. -/
def cfg : Cfg where
  tickUs := Config.tickUs
  tFirst := 1000
  tNext := 100
  firstDir := .any
  sampleDir := .rising
  cooldownUs := 3000
  family := .threeWire
  lenTable := defaultLenTable
  modeswBelow := 11
  modeswPulseUs := Config.modeswPulseUs
  modeswSeq := Config.modeswFirst :: Config.modeswRest
  idPos1 := openIdPos1
  idPos2 := openIdPos2
  idExtract := defaultIdExtract
  idIsAlt := defaultIdIsAlt
  errThreshold := 5
  parEven := true
  syncMask := 0x8080808080808080
  syncValue := 0x0000000000000080
  layout := defaultLayout
  hatRemap := defaultHatRemap
  hatnibTable := defaultHatnib
  nibbleHat := fun _ => false
  desc := defaultDesc

/-- CfgTest (R10), the configuration of 95_test_vectors.md: used by the tests only. R10 does not name TICK_US, which R9
leaves without a value: 1, its nominal value, is the model's (DESIGN CHOICE, log 22); nothing reads it. -/
def cfgTest : Cfg :=
  { cfg with
    tickUs := 1, tFirst := 10, tNext := 4, modeswPulseUs := 10, modeswSeq := [140, 865, 440],
    idPos1 := fun len => len / 4, idPos2 := fun len => len / 2 }

end Sys2Proof.Machine
end

