-- ==== Sys2Proof/Machine/HostAccess.lean ====
section
/-! DEFINITION. The register map (20_memory.md rule R63), the register read port, the other host ports (10_state.md
rule R21), and RDREG, WRSLOT, SETLEN (44_policy.md rules R250 to R252). -/

namespace Sys2Proof.Machine

/-- DESC at 0x08 (R35, R63): 4:0 NAXES, 9:5 NBUTTONS, bit 10 HASHAT. -/
def descWord (d : Desc) : BitVec 16 :=
  (0 : BitVec 5) ++ BitVec.ofBool d.hashat ++ BitVec.ofNat 5 d.nbuttons ++ BitVec.ofNat 5 d.naxes

/-- The registers at 0x00 to 0x0F (R63); 0x0E and 0x0F are reserved and read 0. -/
def lowRegister (c : Cfg) (busy : Bool) (s : State) (addr : Nat) : BitVec 16 :=
  match addr with
  | 0x0 => statusWord busy s
  | 0x1 => (modelCode s.model).setWidth 16
  | 0x2 => s.errcnt.setWidth 16
  | 0x3 => (errCode s.lasterr).setWidth 16
  | 0x4 => s.result
  | 0x5 => s.pktlen.setWidth 16
  | 0x6 => s.lastin.setWidth 16
  | 0x7 => (BitVec.ofBool s.crit ++ BitVec.ofBool s.trig).setWidth 16
  | 0x8 => descWord (c.desc s.model)
  | 0x9 => s.idval
  | 0xA => s.tmo
  | 0xB => s.hat.setWidth 16
  | 0xC => s.buttons
  | 0xD => bit16 s.valid
  | _ => 0

/-- REG[addr] (R63, R68): narrower registers zero-extended, reserved addresses 0. -/
def regFile (c : Cfg) (busy : Bool) (s : State) (addr : BitVec 8) : BitVec 16 :=
  if addr.toNat < 0x10 then lowRegister c busy s addr.toNat
  else if addr.toNat < 0x20 then (s.axis.toList.getD (addr.toNat - 0x10) 0).setWidth 16
  else if addr.toNat < 0x80 then 0
  else (s.readSlot (addr.toNat - 0x80)).setWidth 16

/-- The host register read port (R21, R250): REG[addr] while idle. While BUSY = 1 it returns an unspecified value,
"except that STATUS.BUSY reads 1" (R72, U13): a free value, with bit 0 set at address 0. Log 8. -/
def State.readPort (c : Cfg) (s : State) (addr : BitVec 8) : BitVec 16 :=
  if s.busy then
    if addr = 0 then Config.busyRead s.draws addr ||| 1 else Config.busyRead s.draws addr
  else regFile c false s addr

/-- cmd_ready: "1 exactly when SEQ = IDLE" (R97). -/
def State.cmdReady (s : State) : Bool := s.seq = .idle

/-- trigger_out (R23). -/
def State.triggerOut (s : State) : Bool := s.trig

/-- crit_out (R24). -/
def State.critOut (s : State) : Bool := s.crit

/-- SETLEN's effect (R252): PKTLEN <- n, every slot at and above n <- 0. -/
def State.setLength (n : BitVec 8) (s : State) : State :=
  { s with pktlen := n, pkt := Memory.below s.pkt n.toNat }

/-- RDREG addr (R250): `RESULT <- REG[addr]` with STATUS.BUSY read as 0; writes RESULT only. -/
def opRdreg (c : Cfg) (addr : BitVec 8) (s : State) : State :=
  s.setResult (regFile c false s addr)

/-- RDREG addr (R250): `opRdreg` as a step, a next state always with the machine's configuration. -/
def execRdreg (addr : BitVec 8) (s : State) : Host.Outcome State Fault Refusal :=
  .next (opRdreg cfg addr s)

/-- WRSLOT idx, val (R251): `MemWrite(idx, 1, val)`. -/
def opWrslot (idx : BitVec 7) (val : Slot) (s : State) : State :=
  (s.writeSlot idx.toNat val).complete .noError

/-- WRSLOT idx, val (R251): `opWrslot` as a step, a next state always. -/
def execWrslot (idx : BitVec 7) (val : Slot) (s : State) : Host.Outcome State Fault Refusal :=
  .next (opWrslot idx val s)

/-- SETLEN n (R252). -/
def opSetlen (n : BitVec 8) (s : State) : State :=
  (s.setLength n).complete .noError

/-- SETLEN n (R252): `opSetlen` as a step, a next state always. -/
def execSetlen (n : BitVec 8) (s : State) : Host.Outcome State Fault Refusal :=
  .next (opSetlen n s)

end Sys2Proof.Machine
end

