-- ==== Sys2Proof/Machine/Decoders.lean ====
section
/-! DEFINITION. The bit-field decoders (43_decoders.md): assembly (R192), integrity (R194 to R197), field conversion
(R198 to R200), the pipeline (R191) and commit (R201), and DECODE, DEC.GP, DEC.3DP, DEC.PP, DEC.FFP, DEC.FFW, HATNIB. -/

namespace Sys2Proof.Machine

/-- The joystick state a decoder extracts: AXIS, HAT, BUTTONS (R201). -/
structure Joystick where
  axis : Vector (BitVec 10) 16
  hat : BitVec 4
  buttons : BitVec 16
  deriving DecidableEq, Repr

/-- Assemble(bps) over the first n slots (R192): slot i goes to bit position i * bps of a 64-bit value; bits at 64 and
above are dropped. -/
def assemble (pkt : Packet) (bps n : Nat) : BitVec 64 :=
  match n with
  | 0 => 0
  | n + 1 =>
    assemble pkt bps n ||| (((Memory.read pkt n).setWidth 64 &&& BitVec.ofNat 64 (2 ^ bps - 1)) <<< (n * bps))

/-- V mod 2^W (R191). -/
def lowBits (w : Nat) (v : BitVec 64) : BitVec 64 := BitVec.ofNat 64 (v.toNat % 2 ^ w)

/-- GB(V, pos, n) = V[pos+n-1:pos] (R193, 00_scope.md rule R12). -/
def getBits (v : BitVec 64) (pos n : Nat) : Nat := v.toNat / 2 ^ pos % 2 ^ n

/-- The pieces of a field put together, the first the least significant (R205). -/
def gather (v : BitVec 64) (ps : List Piece) : Nat :=
  match ps with
  | [] => 0
  | p :: rest => getBits v p.pos p.len + 2 ^ p.len * gather v rest

/-- XorParity(V, W): the XOR of bits 0 to W - 1 (R194). -/
def xorParity (v : BitVec 64) (w : Nat) : Bool :=
  match w with
  | 0 => false
  | w + 1 => xor (xorParity v w) (v.getLsbD w)

/-- The number of ones among bits 0 to W - 1 (R195, rule R11). -/
def onesBelow (v : BitVec 64) (w : Nat) : Nat :=
  match w with
  | 0 => 0
  | w + 1 => onesBelow v w + (v.getLsbD w).toNat

/-- EvenParity(V, W): popcount(V mod 2^W) is even (R195). -/
def evenParity (v : BitVec 64) (w : Nat) : Bool := onesBelow v w % 2 == 0

/-- SyncCheck(V) (R196). -/
def syncCheck (c : Cfg) (v : BitVec 64) : Bool := v &&& c.syncMask == c.syncValue

/-- The sum of the first n nibbles (R197). -/
def nibbleTotal (v : BitVec 64) (n : Nat) : Nat :=
  match n with
  | 0 => 0
  | n + 1 => nibbleTotal v n + getBits v (4 * n) 4

/-- NibbleSum(V): the sum of all sixteen nibbles modulo 16 (R197). -/
def nibbleSum (v : BitVec 64) : Nat := nibbleTotal v 16 % 16

/-- Integrity_m(V) (R191, R194 to R197, R206, R209, R211, R214). -/
def integrity (c : Cfg) (m : Model) (v : BitVec 64) : Bool :=
  match m with
  | .unknown => false
  | .gamePad => xorParity v (c.layout .gamePad).width == false
  | .threeDPro => syncCheck c v && nibbleSum v == 0
  | .precisionPro => evenParity v (c.layout .precisionPro).width == c.parEven
  | .forceFeedbackPro => evenParity v (c.layout .forceFeedbackPro).width == c.parEven
  | .forceFeedbackWheel => evenParity v (c.layout .forceFeedbackWheel).width == c.parEven

/-- Scale(x, max) = floor(x * 1023 / max) (R198). -/
def scale (x max : Nat) : Nat := x * 1023 / max

/-- One axis (R203 to R215): a direction pair has the native value 1 + b - a in 0..2, scaled with maximum 2. -/
def axisValue (v : BitVec 64) (f : AxisField) : Nat :=
  match f with
  | .pair a b => scale (1 + getBits v b 1 - getBits v a 1) 2
  | .native ps max => scale (gather v ps) max

/-- AXIS[0..15] (R201): 0 at and above the model's axis count. -/
def axisFile (v : BitVec 64) (fs : List AxisField) : Vector (BitVec 10) 16 :=
  Vector.ofFn fun i => BitVec.ofNat 10 ((fs.map (axisValue v)).getD i.val 0)

/-- HAT (R199, R201): HatRemap of the raw field, 0 for a model without a hat. -/
def hatValue (c : Cfg) (v : BitVec 64) (h : Option (List Piece)) : BitVec 4 :=
  match h with
  | none => 0
  | some ps => c.hatRemap (BitVec.ofNat 4 (gather v ps))

/-- BUTTONS (R200): NOT(raw) AND (2^NBUTTONS - 1), with NBUTTONS of DESC_TABLE. DEDUCED, log 16. -/
def buttonMask (v : BitVec 64) (ps : List Piece) (nbuttons : Nat) : BitVec 16 :=
  ~~~(BitVec.ofNat 16 (gather v ps)) &&& BitVec.ofNat 16 (2 ^ nbuttons - 1)

/-- Extract_m(V) through LAYOUT (R191 fourth step, R204, R207, R210, R212, R215). -/
def extract (c : Cfg) (m : Model) (v : BitVec 64) : Joystick where
  axis := axisFile v (c.layout m).axes
  hat := hatValue c v (c.layout m).hat
  buttons := buttonMask v (c.layout m).buttons (c.desc m).nbuttons

/-- BPS(m, PKTLEN) (R191): the bits per slot a length stands for, none if the length is not one of the model's. -/
def bitsPerSlot (l : Layout) (len : Nat) : Option Nat :=
  if len = l.len1 then some 1 else if l.len3 = some len then some 3 else none

/-- The steps of Decode(m) after the length check (R191). -/
def decodeBits (c : Cfg) (m : Model) (v : BitVec 64) : Except ErrKind Joystick :=
  if integrity c m v then .ok (extract c m v) else .error .integrityError

/-- Decode(m) as the pure function of packet, length and Cfg that rule R190 says it is (R191): Unknown and a length not
the model's are a LengthMismatch before integrity is looked at. -/
def decodePacket (c : Cfg) (m : Model) (pkt : Packet) (len : Nat) : Except ErrKind Joystick :=
  if m = .unknown then .error .lengthMismatch
  else
    match bitsPerSlot (c.layout m) len with
    | none => .error .lengthMismatch
    | some bps => decodeBits c m (lowBits (c.layout m).width (assemble pkt bps len))

/-- Commit(st) (R201): the whole joystick state is replaced and VALID <- 1. -/
def State.commit (j : Joystick) (s : State) : State :=
  { s with axis := j.axis, hat := j.hat, buttons := j.buttons, valid := true }

/-- Decode(m) on the state (R191): commits on success only. -/
def runDecode (c : Cfg) (m : Model) (s : State) : State :=
  match decodePacket c m s.pkt s.pktlen.toNat with
  | .ok j => s.commit j
  | .error _ => s

/-- The error kind Decode(m) returns (R191). -/
def decodeKind (c : Cfg) (m : Model) (s : State) : ErrKind :=
  match decodePacket c m s.pkt s.pktlen.toNat with
  | .ok _ => .noError
  | .error e => e

/-- The shared body of DECODE and DEC.x (R202): RESULT <- 1 on success else 0; OK, LASTERR, ILL, REDET. -/
def decodeWith (c : Cfg) (m : Model) (s : State) : State :=
  ((runDecode c m s).setResult (bit16 (decodeKind c m s = .noError))).complete (decodeKind c m s)

/-- DECODE (R202): the cached MODEL. -/
def opDecode (c : Cfg) (s : State) : State :=
  decodeWith c s.model s

/-- DECODE (R202): `opDecode` as a step, a next state always with the machine's configuration. -/
def execDecode (s : State) : Host.Outcome State Fault Refusal :=
  .next (opDecode cfg s)

/-- DEC.GP (R204). -/
def opDecGp (c : Cfg) (s : State) : State :=
  decodeWith c .gamePad s

/-- DEC.GP (R204): `opDecGp` as a step, a next state always with the machine's configuration. -/
def execDecGp (s : State) : Host.Outcome State Fault Refusal :=
  .next (opDecGp cfg s)

/-- DEC.3DP (R207). -/
def opDec3dp (c : Cfg) (s : State) : State :=
  decodeWith c .threeDPro s

/-- DEC.3DP (R207): `opDec3dp` as a step, a next state always with the machine's configuration. -/
def execDec3dp (s : State) : Host.Outcome State Fault Refusal :=
  .next (opDec3dp cfg s)

/-- DEC.PP (R210). -/
def opDecPp (c : Cfg) (s : State) : State :=
  decodeWith c .precisionPro s

/-- DEC.PP (R210): `opDecPp` as a step, a next state always with the machine's configuration. -/
def execDecPp (s : State) : Host.Outcome State Fault Refusal :=
  .next (opDecPp cfg s)

/-- DEC.FFP (R212). -/
def opDecFfp (c : Cfg) (s : State) : State :=
  decodeWith c .forceFeedbackPro s

/-- DEC.FFP (R212): `opDecFfp` as a step, a next state always with the machine's configuration. -/
def execDecFfp (s : State) : Host.Outcome State Fault Refusal :=
  .next (opDecFfp cfg s)

/-- DEC.FFW (R215). -/
def opDecFfw (c : Cfg) (s : State) : State :=
  decodeWith c .forceFeedbackWheel s

/-- DEC.FFW (R215): `opDecFfw` as a step, a next state always with the machine's configuration. -/
def execDecFfw (s : State) : Host.Outcome State Fault Refusal :=
  .next (opDecFfw cfg s)

/-- HATNIB nib (R216, R217): `RESULT <- zext_16(HatNib(n))`; no joystick state changes. -/
def opHatnib (c : Cfg) (nib : BitVec 4) (s : State) : State :=
  (s.setResult ((c.hatnibTable nib).setWidth 16)).complete .noError

/-- HATNIB nib (R216, R217): `opHatnib` as a step, a next state always with the machine's configuration. -/
def execHatnib (nib : BitVec 4) (s : State) : Host.Outcome State Fault Refusal :=
  .next (opHatnib cfg nib s)

end Sys2Proof.Machine
end

