-- ==== Sys2Proof/Machine/Acquisition.lean ====
section
/-! DEFINITION. Packet acquisition (41_acquisition.md): AcqSerial (R143), AcqByte (R146), the mode switch (R150), the
cooldown (R149), the composite Acquire (R151), and ACQS, ACQT, ACQB, MODESW, COOLDOWN. -/

namespace Sys2Proof.Machine

/-- The sampling loop of AcqSerial (R143) and ReadId (42_detection.md rule R173): while the last wait succeeded and
PKTLEN < CAP, wait for a sampling edge and store the data of the same answer; `after` is what the caller does after
each stored slot. Every round stores a slot or ends the loop, so CAP rounds of fuel never run out first. -/
def sampleLoop (c : Cfg) (keep : Slot) (after : State → State) (fuel : Nat) (s : State) : State :=
  match fuel with
  | 0 => s
  | fuel + 1 =>
    if s.tmo = 0 ∨ capSlots ≤ s.pktlen.toNat then s
    else
      let w := waitEdge .clk c.sampleDir c.tNext s
      if w.tmo = 0 then w
      else sampleLoop c keep after fuel (after (w.appendSlot (dataLines w.lastin &&& keep)))

/-- `Fresh(); crit(1); trig(1)` and the first clock wait, which synchronises and is not sampled (R140, R143, R146). -/
def startAcquisition (c : Cfg) (s : State) : State :=
  waitEdge .clk c.firstDir c.tFirst ((s.fresh.driveCrit true).driveTrig true)

/-- `trig(0); crit(0)`, on every path (R141, R143, R146). -/
def State.endAcquisition (s : State) : State := (s.driveTrig false).driveCrit false

/-- AcqSerial(mask) (R143). -/
def acqSerial (c : Cfg) (keep : Slot) (s : State) : State :=
  (sampleLoop c keep id capSlots (startAcquisition c s)).endAcquisition

/-- A byte whose stop bit has been seen goes into the packet, one bit a slot in arrival order (R146, R64):
`for k in 0..7: MemWrite(PKTLEN + k, 1, sh[k])` from bit k on, n bits left. -/
def State.commitBits (base : Nat) (sh : BitVec 8) (k n : Nat) (s : State) : State :=
  match n with
  | 0 => s
  | n + 1 => State.commitBits base sh (k + 1) n (s.writeSlot (base + k) ((BitVec.ofBool (sh.getLsbD k)).setWidth 3))

/-- `sh[i] <- b` (R146). -/
def setShiftBit (sh : BitVec 8) (i : Nat) (b : Bool) : BitVec 8 :=
  (sh &&& ~~~((1 : BitVec 8) <<< i)) ||| ((BitVec.ofBool b).setWidth 8 <<< i)

/-- One sampled bit of the byte frame (R146): start bit 1, data bits, stop bit 0; a violation sets ferr. -/
def State.takeBit (b : Bool) (s : State) : State :=
  if s.hid.pos = 0 then
    if b then { s with hid := { s.hid with pos := 1 } } else { s with hid := { s.hid with ferr := true } }
  else if s.hid.pos ≤ 8 then
    { s with hid := { s.hid with sh := setShiftBit s.hid.sh (s.hid.pos - 1) b, pos := s.hid.pos + 1 } }
  else if b then { s with hid := { s.hid with ferr := true } }
  else
    { State.commitBits s.pktlen.toNat s.hid.sh 0 8 s with
      pktlen := s.pktlen + 8, hid := { s.hid with pos := 0 } }

/-- The loop of AcqByte (R146). Ten bits fill a byte and sixteen bytes the packet, so 160 rounds of fuel never run out
first (70_reset_and_hazards.md rule R312). -/
def byteLoop (c : Cfg) (fuel : Nat) (s : State) : State :=
  match fuel with
  | 0 => s
  | fuel + 1 =>
    if s.tmo = 0 ∨ s.hid.ferr = true ∨ capSlots ≤ s.pktlen.toNat then s
    else
      let w := waitEdge .clk .falling c.tNext s
      if w.tmo = 0 then w
      else byteLoop c fuel (w.takeBit (lineLevel .d0 w.lastin))

/-- The rounds AcqByte can need: ten bit times for each of sixteen bytes (R312). -/
abbrev byteRounds : Nat := 160

/-- The end of AcqByte (R146): a framing error empties the packet and sets STATUS.FERR; the hidden state is dead (R46). -/
def State.closeBytes (s : State) : State :=
  if s.hid.ferr then { s with pktlen := 0, pkt := [], ferr := true, hid := Hidden.dead } else { s with hid := Hidden.dead }

/-- `pos <- 0 ; ferr <- 0` (R146); the shift register holds nothing yet. -/
def State.startBytes (s : State) : State := { s with hid := Hidden.dead }

/-- AcqByte() (R146). -/
def acqByte (c : Cfg) (s : State) : State :=
  (byteLoop c byteRounds (startAcquisition c s).startBytes).endAcquisition.closeBytes

/-- The error kind an acquisition returns (R143, R146, R278): FramingError where STATUS.FERR was set, else
AcquisitionTimeout where no slot was filled. AcqSerial leaves STATUS.FERR 0 (Fresh). -/
def acqKind (s : State) : ErrKind :=
  if s.ferr then .framingError else if s.pktlen = 0 then .acquisitionTimeout else .noError

/-- The last lines of ACQS, ACQT and ACQB: RESULT <- zext_16(PKTLEN), OK, LASTERR, ILL, REDET (R144, R145, R147). -/
def State.reportAcquisition (s : State) : State := (s.setResult (s.pktlen.setWidth 16)).complete (acqKind s)

/-- The pulses of MODESW (R150), the loop index counted in the hidden state. -/
def modeswLoop (c : Cfg) (ds : List Nat) (s : State) : State :=
  match ds with
  | [] => s
  | d :: ds =>
    let p := (((s.driveTrig true).pause c.modeswPulseUs).driveTrig false).pause d
    modeswLoop c ds { p with hid := { p.hid with modeIdx := p.hid.modeIdx + 1 } }

/-- MODESW (R150): the pulses inside one critical section. -/
def modeSwitch (c : Cfg) (s : State) : State :=
  let t := (modeswLoop c c.modeswSeq (s.driveCrit true)).driveCrit false
  { t with hid := { t.hid with modeIdx := 0 } }

/-- The cooldown delay (R149). -/
def coolDown (c : Cfg) (s : State) : State := s.pause c.cooldownUs

/-- Acquire() (R151): the cooldown, then the acquisition of the configured family. -/
def acquire (c : Cfg) (s : State) : State :=
  match c.family with
  | .simple => acqSerial c 0b001 (coolDown c s)
  | .threeWire => acqSerial c 0b111 (coolDown c s)
  | .byteFramed => acqByte c (coolDown c s)

/-- ACQS (R144). -/
def opAcqs (c : Cfg) (s : State) : State :=
  (acqSerial c 0b001 s).reportAcquisition

/-- ACQS (R144): `opAcqs` as a step, a next state always with the machine's configuration. -/
def execAcqs (s : State) : Host.Outcome State Fault Refusal :=
  .next (opAcqs cfg s)

/-- ACQT (R145). -/
def opAcqt (c : Cfg) (s : State) : State :=
  (acqSerial c 0b111 s).reportAcquisition

/-- ACQT (R145): `opAcqt` as a step, a next state always with the machine's configuration. -/
def execAcqt (s : State) : Host.Outcome State Fault Refusal :=
  .next (opAcqt cfg s)

/-- ACQB (R147). -/
def opAcqb (c : Cfg) (s : State) : State :=
  (acqByte c s).reportAcquisition

/-- ACQB (R147): `opAcqb` as a step, a next state always with the machine's configuration. -/
def execAcqb (s : State) : Host.Outcome State Fault Refusal :=
  .next (opAcqb cfg s)

/-- MODESW (R150). -/
def opModesw (c : Cfg) (s : State) : State :=
  (modeSwitch c s).complete .noError

/-- MODESW (R150): `opModesw` as a step, a next state always with the machine's configuration. -/
def execModesw (s : State) : Host.Outcome State Fault Refusal :=
  .next (opModesw cfg s)

/-- COOLDOWN (R149). -/
def opCooldown (c : Cfg) (s : State) : State :=
  (coolDown c s).complete .noError

/-- COOLDOWN (R149): `opCooldown` as a step, a next state always with the machine's configuration. -/
def execCooldown (s : State) : Host.Outcome State Fault Refusal :=
  .next (opCooldown cfg s)

end Sys2Proof.Machine
end

