-- ==== Sys2Proof/Machine/Detection.lean ====
section
/-! DEFINITION. Model detection (42_detection.md): ReadId (R173), Detect (R171, R172, R175), READID and DETECT. -/

namespace Sys2Proof.Machine

/-- The trigger toggles of ReadId after a stored slot (R173): low at ID_POS1(L) slots, high again at ID_POS2(L). -/
def toggleTrig (c : Cfg) (len : Nat) (s : State) : State :=
  let a := if s.pktlen.toNat = c.idPos1 len then s.driveTrig false else s
  if s.pktlen.toNat = c.idPos2 len then a.driveTrig true else a

/-- IDVAL <- ID_EXTRACT(PKT, PKTLEN, L) (R173). -/
def State.extractId (c : Cfg) (len : Nat) (s : State) : State :=
  { s with idval := c.idExtract s.pkt s.pktlen.toNat len }

/-- ReadId(L) (R173): the three-wire acquisition with the two toggles. The identifier returned is IDVAL. -/
def readId (c : Cfg) (len : Nat) (s : State) : State :=
  (sampleLoop c 0b111 (toggleTrig c len) capSlots (startAcquisition c s)).endAcquisition.extractId c len

/-- The lines of Detect() before its answer (R172): only an ambiguous length makes the secondary read, after a cooldown. -/
def detectRead (c : Cfg) (s : State) : State :=
  match c.lenTable s.pktlen.toNat with
  | .noModel | .one _ => s
  | .ambiguous _ _ => readId c s.pktlen.toNat (coolDown c s)

/-- The model Detect() returns (R172, R175) for the length classified and the identifier read. -/
def detectModel (c : Cfg) (len : Nat) (id : BitVec 16) : Model :=
  match c.lenTable len with
  | .noModel => .unknown
  | .one m => m
  | .ambiguous dflt alt => if c.idIsAlt id then alt else dflt

/-- MODEL <- Detect() (R172, R176, 44_policy.md rule R242). -/
def detectInto (c : Cfg) (s : State) : State :=
  let r := detectRead c s
  { r with model := detectModel c s.pktlen.toNat r.idval }

/-- The error kind of DETECT (R176, 60_exceptions.md rule R276): LengthMismatch when the result is Unknown. -/
def detectKind (s : State) : ErrKind := if s.model = .unknown then .lengthMismatch else .noError

/-- READID len (R174): `RESULT <- ReadId(len)`. -/
def opReadid (c : Cfg) (len : BitVec 8) (s : State) : State :=
  let r := readId c len.toNat s
  (r.setResult r.idval).complete .noError

/-- READID len (R174): `opReadid` as a step, a next state always with the machine's configuration. -/
def execReadid (len : BitVec 8) (s : State) : Host.Outcome State Fault Refusal :=
  .next (opReadid cfg len s)

/-- DETECT (R176): `m <- Detect(); MODEL <- m; RESULT <- zext_16(m)`. -/
def opDetect (c : Cfg) (s : State) : State :=
  let r := detectInto c s
  (r.setResult ((modelCode r.model).setWidth 16)).complete (detectKind r)

/-- DETECT (R176): `opDetect` as a step, a next state always with the machine's configuration. -/
def execDetect (s : State) : Host.Outcome State Fault Refusal :=
  .next (opDetect cfg s)

end Sys2Proof.Machine
end

