-- ==== Sys2Proof/Machine/Policy.lean ====
section
/-! DEFINITION. The resolution and error policy (44_policy.md): Init (R242), Update (R245), INIT and UPDATE. Init() may
never end (R243): each round of its loop is one step of the machine with SEQ at the loop head, so a device that never
sends a known length keeps the machine stepping for ever. Log 3. -/

namespace Sys2Proof.Machine

/-- The test at the head of the loop of Init() (R242): MODEL Unknown keeps SEQ there, else Init() returns to its caller. -/
def initTest (k : InitCaller) (s : State) : State :=
  if s.model = .unknown then s.loopInit k else s.leaveInit k

/-- `Acquire(); MODEL <- Detect()` and the loop test that follows (R242). The acquisition's error kind is ignored. -/
def initAttempt (c : Cfg) (k : InitCaller) (s : State) : State := initTest k (detectInto c (acquire c s))

/-- Init() up to its first loop test (R242): the first attempt is always plain. -/
def startInit (c : Cfg) (k : InitCaller) (s : State) : State := initAttempt c k s.enterInit

/-- The mode switch of a loop round (R242): sent, after a cooldown, when the last packet is too short. -/
def initSwitch (c : Cfg) (s : State) : State :=
  if s.pktlen.toNat < c.modeswBelow then modeSwitch c (coolDown c s) else s

/-- One round of the loop of Init() (R242) with the loop test that follows it. -/
def initRound (c : Cfg) (k : InitCaller) (s : State) : State := initAttempt c k (initSwitch c s)

/-- `STATUS.REDET <- 0`, and ILL <- 0 as for every legal command (R95, R245, R246). -/
def State.beginUpdate (s : State) : State := { s with redet := false, ill := false }

/-- The error kind of one update cycle, seen after its acquisition (R245, R278): the acquisition's, else the decoder's. -/
def cycleKind (c : Cfg) (s : State) : ErrKind :=
  if acqKind s = .noError then decodeKind c s.model s else acqKind s

/-- The decode of one update cycle (R245): attempted only when the acquisition returned None. -/
def cycleDecode (c : Cfg) (s : State) : State := if acqKind s = .noError then runDecode c s.model s else s

/-- The failure accounting of one cycle of kind `e` (R245, R248): LASTERR <- e; on success ERRCNT <- 0 and OK <- 1; on
failure OK <- 0 and ERRCNT <- ERRCNT + 1. -/
def State.account (e : ErrKind) (s : State) : State :=
  if e = .noError then { s with lasterr := e, errcnt := 0, ok := true }
  else { s.raise e with errcnt := s.errcnt + 1 }

/-- One update cycle before the escalation test (R245). -/
def updateCycle (c : Cfg) (s : State) : State :=
  let a := acquire c s.beginUpdate
  (cycleDecode c a).account (cycleKind c a)

/-- The escalation condition (R249, C1): the cycle failed and ERRCNT, already incremented, exceeds ERR_THRESHOLD. -/
def escalates (c : Cfg) (s : State) : Bool :=
  decide (s.lasterr ≠ .noError) && decide (c.errThreshold < s.errcnt.toNat)

/-- Update() (R245) with UPDATE's `RESULT <- zext_16(STATUS.OK)` (R246), up to the first loop test where it calls Init(). -/
def runUpdate (c : Cfg) (s : State) : State :=
  if s.model = .unknown then startInit c .updateUnknown s.beginUpdate
  else
    let u := updateCycle c s
    if escalates c u then startInit c .updateEscalated u else u.setResult (bit16 u.ok)

/-- INIT (R244): `Init(); RESULT <- zext_16(MODEL)`. -/
def opInit (c : Cfg) (s : State) : State :=
  startInit c .cmdInit s

/-- INIT (R244): `opInit` as a step, a next state always with the machine's configuration. -/
def execInit (s : State) : Host.Outcome State Fault Refusal :=
  .next (opInit cfg s)

/-- UPDATE (R246). -/
def opUpdate (c : Cfg) (s : State) : State :=
  runUpdate c s

/-- UPDATE (R246): `opUpdate` as a step, a next state always with the machine's configuration. -/
def execUpdate (s : State) : Host.Outcome State Fault Refusal :=
  .next (opUpdate cfg s)

end Sys2Proof.Machine
end

