-- ==== Sys2Proof/Machine/Configured.lean ====
section
/-! DEFINITION. The operations as functions of the configuration block: "A model takes Cfg as an argument" (00_scope.md
rule R6). `exec` is this at the machine's own configuration. -/

namespace Sys2Proof.Machine

/-- The state an operation leaves, under any configuration (R6). -/
def opIn (c : Cfg) (i : Instr) (s : State) : State :=
  match i with
  | .nop => opNop s
  | .rdlvl line => opRdlvl line s
  | .settrig level => opSettrig level s
  | .pulse us => opPulse us s
  | .waitedge line dir tmo => opWaitedge line dir tmo s
  | .waitlvl line level tmo => opWaitlvl line level tmo s
  | .acqs => opAcqs c s
  | .acqt => opAcqt c s
  | .acqb => opAcqb c s
  | .modesw => opModesw c s
  | .cooldown => opCooldown c s
  | .readid len => opReadid c len s
  | .detect => opDetect c s
  | .decode => opDecode c s
  | .decGp => opDecGp c s
  | .dec3dp => opDec3dp c s
  | .decPp => opDecPp c s
  | .decFfp => opDecFfp c s
  | .decFfw => opDecFfw c s
  | .init => opInit c s
  | .update => opUpdate c s
  | .rdreg addr => opRdreg c addr s
  | .hatnib nib => opHatnib c nib s
  | .wrslot idx val => opWrslot idx val s
  | .setlen n => opSetlen n s

/-- The operation under any configuration: a next state always (R14, R270). -/
def execIn (c : Cfg) (i : Instr) (s : State) : Host.Outcome State Fault Refusal := .next (opIn c i s)

end Sys2Proof.Machine
end

