-- ==== Sys2Proof/Machine/Dispatch.lean ====
section
/-! DEFINITION. One arm per operation of spec/opcode_table.json. -/

namespace Sys2Proof.Machine

def exec (i : Instr) (s : State) : Host.Outcome State Fault Refusal :=
  match i with
  | .nop => Sys2Proof.Machine.execNop s
  | .rdlvl line => Sys2Proof.Machine.execRdlvl line s
  | .settrig level => Sys2Proof.Machine.execSettrig level s
  | .pulse us => Sys2Proof.Machine.execPulse us s
  | .waitedge line dir tmo => Sys2Proof.Machine.execWaitedge line dir tmo s
  | .waitlvl line level tmo => Sys2Proof.Machine.execWaitlvl line level tmo s
  | .acqs => Sys2Proof.Machine.execAcqs s
  | .acqt => Sys2Proof.Machine.execAcqt s
  | .acqb => Sys2Proof.Machine.execAcqb s
  | .modesw => Sys2Proof.Machine.execModesw s
  | .cooldown => Sys2Proof.Machine.execCooldown s
  | .readid len => Sys2Proof.Machine.execReadid len s
  | .detect => Sys2Proof.Machine.execDetect s
  | .decode => Sys2Proof.Machine.execDecode s
  | .decGp => Sys2Proof.Machine.execDecGp s
  | .dec3dp => Sys2Proof.Machine.execDec3dp s
  | .decPp => Sys2Proof.Machine.execDecPp s
  | .decFfp => Sys2Proof.Machine.execDecFfp s
  | .decFfw => Sys2Proof.Machine.execDecFfw s
  | .init => Sys2Proof.Machine.execInit s
  | .update => Sys2Proof.Machine.execUpdate s
  | .rdreg addr => Sys2Proof.Machine.execRdreg addr s
  | .hatnib nib => Sys2Proof.Machine.execHatnib nib s
  | .wrslot idx val => Sys2Proof.Machine.execWrslot idx val s
  | .setlen n => Sys2Proof.Machine.execSetlen n s

end Sys2Proof.Machine
end

