-- ==== Sys2Proof/WellFormed.lean ====
section
/-! DEFINITION. Which instruction terms a command word can stand for (30_encoding.md rule R103). -/

namespace Sys2Proof

/-- "The only range check on an in-format operand is SETLEN's n <= 128 and WAITEDGE's dir != 3" (R103). The second
is kept by the type `Dir`; every other operand field may hold any value of its width. -/
abbrev Instr.WellFormed (i : Instr) : Prop :=
  match i with
  | .setlen n => n.toNat ≤ capSlots
  | .nop | .rdlvl _ | .settrig _ | .pulse _ | .waitedge _ _ _ | .waitlvl _ _ _ | .acqs | .acqt | .acqb | .modesw
  | .cooldown | .readid _ | .detect | .decode | .decGp | .dec3dp | .decPp | .decFfp | .decFfw | .init | .update
  | .rdreg _ | .hatnib _ | .wrslot _ _ => True

end Sys2Proof
end

