-- ==== Sys2Proof/Decode.lean ====
section
/-! DEFINITION. The decoder of command words (30_encoding.md rules R81 to R84, R95, R102), total on all 2^32 words,
and the encoder (rules R82, R83, R100), both written from the opcode map of rule R83. -/

namespace Sys2Proof

/-- Why a word is illegal (R95). The block does not record the reason ("the word is not kept", R272). -/
inductive Illegal where
  /-- RSV, bits 23:16, is not 0. -/
  | reservedBits
  /-- A part of SUB that must be 0 is not, or SUB names no row of the group. -/
  | badSub
  /-- A part of IMM that must be 0 is not. -/
  | badImm
  /-- WAITEDGE with direction code 3. -/
  | badDirection
  /-- SETLEN with n above 128. -/
  | badLength
  deriving DecidableEq, Repr

/-- OP, bits 31:28 (R81). -/
def Word.op (w : Word) : BitVec 4 := w.extractLsb' 28 4
/-- SUB, bits 27:24 (R81). -/
def Word.sub (w : Word) : BitVec 4 := w.extractLsb' 24 4
/-- RSV, bits 23:16 (R81). -/
def Word.rsv (w : Word) : BitVec 8 := w.extractLsb' 16 8
/-- IMM, bits 15:0 (R81). -/
def Word.imm (w : Word) : BitVec 16 := w.extractLsb' 0 16

/-- The line of a 2-bit code (R84). -/
def Line.ofCode (c : BitVec 2) : Line :=
  match c.toNat with
  | 0 => .d0
  | 1 => .d1
  | 2 => .d2
  | _ => .clk

/-- The 2-bit code of a line (R84). -/
def Line.code (l : Line) : BitVec 2 :=
  match l with
  | .d0 => 0
  | .d1 => 1
  | .d2 => 2
  | .clk => 3

/-- The direction of a 2-bit code; code 3 is illegal (R84). -/
def Dir.ofCode (c : BitVec 2) : Option Dir :=
  match c.toNat with
  | 0 => some .any
  | 1 => some .rising
  | 2 => some .falling
  | _ => none

/-- The 2-bit code of a direction (R84). -/
def Dir.code (d : Dir) : BitVec 2 :=
  match d with
  | .any => 0
  | .rising => 1
  | .falling => 2

/-- A row without operands: SUB has been matched, IMM must be 0 (R95). -/
def decodePlain (imm : BitVec 16) (i : Instr) : Except Illegal Instr :=
  if imm = 0 then .ok i else .error .badImm

/-- A group with one row whose SUB must be 0 (R95). -/
def decodeSub0 (sub : BitVec 4) (r : Except Illegal Instr) : Except Illegal Instr :=
  if sub = 0 then r else .error .badSub

/-- A row whose operand is IMM[7:0], with IMM[15:8] = 0 (R82, R95). -/
def decodeImm8 (imm : BitVec 16) (f : BitVec 8 → Instr) : Except Illegal Instr :=
  if imm.extractLsb' 8 8 = 0 then .ok (f (imm.extractLsb' 0 8)) else .error .badImm

/-- OP 0x1 (R82, R83): line in SUB[1:0], SUB[3:2] = 0, IMM = 0. -/
def decodeRdlvl (sub : BitVec 4) (imm : BitVec 16) : Except Illegal Instr :=
  if sub.extractLsb' 2 2 = 0 then decodePlain imm (.rdlvl (Line.ofCode (sub.extractLsb' 0 2))) else .error .badSub

/-- OP 0x2: level in IMM[0], IMM[15:1] = 0. -/
def decodeSettrig (imm : BitVec 16) : Except Illegal Instr :=
  if imm.extractLsb' 1 15 = 0 then .ok (.settrig (imm.getLsbD 0)) else .error .badImm

/-- OP 0x4: line in SUB[1:0], direction in SUB[3:2], timeout in IMM. -/
def decodeWaitedge (sub : BitVec 4) (imm : BitVec 16) : Except Illegal Instr :=
  match Dir.ofCode (sub.extractLsb' 2 2) with
  | some d => .ok (.waitedge (Line.ofCode (sub.extractLsb' 0 2)) d imm)
  | none => .error .badDirection

/-- OP 0x5: line in SUB[1:0], level in SUB[2], SUB[3] = 0, timeout in IMM. -/
def decodeWaitlvl (sub : BitVec 4) (imm : BitVec 16) : Except Illegal Instr :=
  if sub.getLsbD 3 then .error .badSub
  else .ok (.waitlvl (Line.ofCode (sub.extractLsb' 0 2)) (sub.getLsbD 2) imm)

/-- OP 0x6: the family in SUB. -/
def decodeAcq (sub : BitVec 4) (imm : BitVec 16) : Except Illegal Instr :=
  match sub.toNat with
  | 0 => decodePlain imm .acqs
  | 1 => decodePlain imm .acqt
  | 2 => decodePlain imm .acqb
  | _ => .error .badSub

/-- OP 0xB: the model in SUB, 0 for the MODEL register. -/
def decodeDec (sub : BitVec 4) (imm : BitVec 16) : Except Illegal Instr :=
  match sub.toNat with
  | 0 => decodePlain imm .decode
  | 1 => decodePlain imm .decGp
  | 2 => decodePlain imm .dec3dp
  | 3 => decodePlain imm .decPp
  | 4 => decodePlain imm .decFfp
  | 5 => decodePlain imm .decFfw
  | _ => .error .badSub

/-- OP 0xF, SUB 0: nibble in IMM[3:0], IMM[15:4] = 0. -/
def decodeHatnib (imm : BitVec 16) : Except Illegal Instr :=
  if imm.extractLsb' 4 12 = 0 then .ok (.hatnib (imm.extractLsb' 0 4)) else .error .badImm

/-- OP 0xF, SUB 1: index in IMM[14:8], value in IMM[2:0], IMM[15] = 0, IMM[7:3] = 0. -/
def decodeWrslot (imm : BitVec 16) : Except Illegal Instr :=
  if imm.getLsbD 15 then .error .badImm
  else if imm.extractLsb' 3 5 = 0 then .ok (.wrslot (imm.extractLsb' 8 7) (imm.extractLsb' 0 3))
  else .error .badImm

/-- OP 0xF, SUB 2: length in IMM[7:0], IMM[15:8] = 0, at most 128. -/
def decodeSetlen (imm : BitVec 16) : Except Illegal Instr :=
  if imm.extractLsb' 8 8 = 0 then
    if (imm.extractLsb' 0 8).toNat ≤ capSlots then .ok (.setlen (imm.extractLsb' 0 8)) else .error .badLength
  else .error .badImm

/-- OP 0xF: the minor opcode in SUB. -/
def decodeMisc (sub : BitVec 4) (imm : BitVec 16) : Except Illegal Instr :=
  match sub.toNat with
  | 0 => decodeHatnib imm
  | 1 => decodeWrslot imm
  | 2 => decodeSetlen imm
  | _ => .error .badSub

/-- The row group of an OP value (R83, R102 steps 2 to 5). -/
def decodeGroup (op sub : BitVec 4) (imm : BitVec 16) : Except Illegal Instr :=
  match op.toNat with
  | 0 => decodeSub0 sub (decodePlain imm .nop)
  | 1 => decodeRdlvl sub imm
  | 2 => decodeSub0 sub (decodeSettrig imm)
  | 3 => decodeSub0 sub (.ok (.pulse imm))
  | 4 => decodeWaitedge sub imm
  | 5 => decodeWaitlvl sub imm
  | 6 => decodeAcq sub imm
  | 7 => decodeSub0 sub (decodePlain imm .modesw)
  | 8 => decodeSub0 sub (decodePlain imm .cooldown)
  | 9 => decodeSub0 sub (decodeImm8 imm .readid)
  | 10 => decodeSub0 sub (decodePlain imm .detect)
  | 11 => decodeDec sub imm
  | 12 => decodeSub0 sub (decodePlain imm .init)
  | 13 => decodeSub0 sub (decodePlain imm .update)
  | 14 => decodeSub0 sub (decodeImm8 imm .rdreg)
  | _ => decodeMisc sub imm

/-- The decoding procedure of rule R102: (1) RSV must be 0, (2) to (5) the row group by OP. -/
def decode (w : Word) : Except Illegal Instr :=
  if Word.rsv w = 0 then decodeGroup (Word.op w) (Word.sub w) (Word.imm w) else .error .reservedBits

/-- The command word of given OP, SUB and IMM with RSV = 0 (R81). -/
def mkWord (op sub : BitVec 4) (imm : BitVec 16) : Word := op ++ sub ++ (0 : BitVec 8) ++ imm

/-- The command word of an operation: "match OR the operand fields placed as in rule R82" (R100). -/
def encode (i : Instr) : Word :=
  match i with
  | .nop => mkWord 0x0 0 0
  | .rdlvl l => mkWord 0x1 ((0 : BitVec 2) ++ l.code) 0
  | .settrig b => mkWord 0x2 0 ((0 : BitVec 15) ++ BitVec.ofBool b)
  | .pulse us => mkWord 0x3 0 us
  | .waitedge l d t => mkWord 0x4 (d.code ++ l.code) t
  | .waitlvl l b t => mkWord 0x5 ((0 : BitVec 1) ++ BitVec.ofBool b ++ l.code) t
  | .acqs => mkWord 0x6 0 0
  | .acqt => mkWord 0x6 1 0
  | .acqb => mkWord 0x6 2 0
  | .modesw => mkWord 0x7 0 0
  | .cooldown => mkWord 0x8 0 0
  | .readid len => mkWord 0x9 0 ((0 : BitVec 8) ++ len)
  | .detect => mkWord 0xA 0 0
  | .decode => mkWord 0xB 0 0
  | .decGp => mkWord 0xB 1 0
  | .dec3dp => mkWord 0xB 2 0
  | .decPp => mkWord 0xB 3 0
  | .decFfp => mkWord 0xB 4 0
  | .decFfw => mkWord 0xB 5 0
  | .init => mkWord 0xC 0 0
  | .update => mkWord 0xD 0 0
  | .rdreg a => mkWord 0xE 0 ((0 : BitVec 8) ++ a)
  | .hatnib n => mkWord 0xF 0 ((0 : BitVec 12) ++ n)
  | .wrslot i v => mkWord 0xF 1 ((0 : BitVec 1) ++ i ++ (0 : BitVec 5) ++ v)
  | .setlen n => mkWord 0xF 2 ((0 : BitVec 8) ++ n)

/-- The instruction the decoder reads from a word given as a number. Every instruction is one command word of 32
bits on a port (R80): the number is the word, there are no bytes to lay out; bits at and above nbits are 0. -/
def decodeTableWord (nbits w : Nat) : Option Instr :=
  match decode (BitVec.ofNat 32 (w % 2 ^ nbits)) with
  | .ok i => some i
  | .error _ => none

end Sys2Proof
end

