-- ==== Sys2Proof/Machine/Port.lean ====
section
/-! DEFINITION. What lies between the operations: the command port's side of a step (30_encoding.md rules R80, R97), the
reset input (70_reset_and_hazards.md rules R300, R302), and the step as a function of the configuration and of what runs an
operation. -/

namespace Sys2Proof.Machine

/-- The word the host presents, if any: cmd_valid and cmd_word (R21). Log 4. -/
def State.offered (s : State) : Option Word :=
  match s.cmds with
  | [] => none
  | w :: _ => some w

/-- The word at the port is consumed whole; GSPD keeps no copy (R80). -/
def State.accept (s : State) : State := { s with cmds := s.cmds.tail }

/-- The state after a reset by the pin (R300, R302): every register of rule R50 at its reset value whatever ran, LASTIN,
AXIS, HAT and BUTTONS unspecified: free values, another at each reset. The environment's answers and words are not
GSPD's and stay; the pin is released. Logs 5, 7, 19. -/
def State.afterReset (s : State) : State :=
  { State.reset with
    lastin := Config.resetLastin s.draws
    axis := Vector.ofFn fun i => Config.resetAxis s.draws i.val
    hat := BitVec.ofNat 4 (Config.resetHat s.draws).val
    buttons := Config.resetButtons s.draws
    feed := s.feed
    draws := s.draws + 1
    cmds := s.cmds }

/-- An event is a poll. -/
def Event.isPoll (e : Event) : Bool :=
  match e with
  | .poll _ => true
  | .trig _ | .crit _ | .delay _ => false

/-- The number of polls among events. -/
def pollCount (es : List Event) : Nat := es.countP Event.isPoll

/-- The environment after n polls: n answers used up, free values counted. -/
def State.skipAnswers (n : Nat) (s : State) : State :=
  { s with feed := s.feed.drop n, draws := s.draws + (n - s.feed.length) }

/-- A reset in the middle of what leads from `s` to `t`, when n events have happened: "The operation stops at once" and
everything it wrote is lost (R302). What is left of it is outside GSPD: the word it was started with is consumed, and the
device has given as many answers as it was polled until then ("may be left mid-packet"). -/
def State.cutReset (n : Nat) (s t : State) : State :=
  { s.skipAnswers (pollCount ((t.evt.drop s.evt.length).take n)) with cmds := t.cmds }.afterReset

/-- The machine in the loop of Init(): the step is one round (R242). No word is accepted (R97). -/
def State.continueInit (c : Cfg) (k : InitCaller) (s : State) : State := initRound c k s

/-- A word placed at the head of the port, on a machine that is ready for it: SEQ IDLE and the reset input released. -/
def State.placeWord (w : Word) (s : State) : State :=
  { s with seq := .idle, rst := .low, cmds := w :: s.cmds }

/-- What runs an operation: `exec`, or `execIn c`. -/
abbrev Runner := Instr → State → Host.Outcome State Fault Refusal

/-- A decoded word runs (R102 step 5); an illegal word is refused by the block, which is a next state (R95). -/
def runWord (run : Runner) (w : Word) (s : State) : Host.Outcome State Fault Refusal :=
  match Sys2Proof.decode w with
  | .ok i => run i s
  | .error _ => .next s.refuseIllegal

/-- One step with no reset. While SEQ is not IDLE the running operation goes on and a word at the port waits (R97). When
idle the word at the port is consumed and run (R80); with none, "nothing is lost" (R289). -/
def runStep (c : Cfg) (run : Runner) (s : State) : Host.Outcome State Fault Refusal :=
  match s.seq with
  | .initLoop k => .next (s.continueInit c k)
  | .idle =>
    match s.offered with
    | none => .next s
    | some w => runWord run w s.accept

/-- One step. The reset input ends everything, before the step or in the middle of it (R302). -/
def stepWith (c : Cfg) (run : Runner) (s : State) : Host.Outcome State Fault Refusal :=
  match s.rst with
  | .low => runStep c run s
  | .high => .next s.afterReset
  | .during n =>
    match runStep c run s with
    | .next t => .next (s.cutReset n t)
    | .fault f => .fault f
    | .refused r => .refused r

end Sys2Proof.Machine
end

