-- ==== Sys2Proof/Machine/Step.lean ====
section
/-! DEFINITION. One step of GSPD: a reset by the pin, a round of Init(), the command at the port, or idling; as a function of
the configuration (`stepIn`) and of the machine's own (`step`). -/

namespace Sys2Proof.Machine

/-- One step of the machine. -/
def step (s : State) : Host.Outcome State Fault Refusal := stepWith cfg exec s

/-- One step under any configuration (00_scope.md rule R6). -/
def stepIn (c : Cfg) (s : State) : Host.Outcome State Fault Refusal := stepWith c (execIn c) s

/-- `s` with the word `w` (32 bits, those at and above nbits 0) presented at the command port of an idle machine, so
that the next step consumes and runs exactly it. The words behind it stay. Log 4. -/
def State.withFetchWord (s : State) (nbits w : Nat) : State := s.placeWord (BitVec.ofNat 32 (w % 2 ^ nbits))

end Sys2Proof.Machine
end

