-- ==== Sys2Proof/Safety.lean ====
section
/-! DEFINITION. The words claims about GSPD are made in: the device's coming answers, views of the state that forget
what a procedure may change (its frame), event shapes, and the global invariant (10_state.md rule R49). -/

namespace Sys2Proof.Machine

/-- The device's coming answers by number, 0 the next: the given ones, then free values (00_scope.md rule R13). -/
def State.answer (s : State) (k : Nat) : Lines :=
  if h : k < s.feed.length then s.feed[k] else Config.deviceAnswer (s.draws + (k - s.feed.length))

/-- The next n answers in order. -/
def State.answers (s : State) (n : Nat) : List Lines := (List.range n).map s.answer

/-- The state after n polls and nothing else (R111): LASTIN the last answer, one event P(v) for each. -/
def State.polled (n : Nat) (s : State) : State :=
  { s.skipAnswers n with
    lastin := if n = 0 then s.lastin else s.answer (n - 1)
    evt := s.evt ++ (s.answers n).map Event.poll }

/-- An edge the direction asks for lies between answers j and j + 1 on the line (40_bit_channel.md rule R110). -/
abbrev State.edgeAt (l : Line) (d : Dir) (s : State) (j : Nat) : Prop :=
  lineLevel l (s.answer j) ≠ lineLevel l (s.answer (j + 1)) ∧ dirWants d (lineLevel l (s.answer (j + 1))) = true

/-- The state without what a wait may change: LASTIN, TMO, EVT, the edge memory and the environment's answers. Two
states with equal views differ in those fields only. -/
def State.exceptWait (s : State) : State :=
  { s with lastin := 0, tmo := 0, evt := [], feed := [], draws := 0, hid := { s.hid with last := false } }

/-- The state without what an acquisition may change besides: TRIG, CRIT, PKT, PKTLEN, STATUS.FERR, hidden state. -/
def State.exceptAcquisition (s : State) : State :=
  { s.exceptWait with trig := false, crit := false, pkt := [], pktlen := 0, ferr := false, hid := Hidden.dead }

/-- The state without what a detection may change besides: IDVAL and MODEL. -/
def State.exceptDetection (s : State) : State := { s.exceptAcquisition with idval := 0, model := .unknown }

/-- The state without what every command but RDREG writes: STATUS.OK, ILL, REDET and LASTERR. -/
def State.exceptReport (s : State) : State :=
  { s with ok := false, ill := false, redet := false, lasterr := .noError }

/-- The state without what every command that returns a value writes: those and RESULT. -/
def State.exceptOutcome (s : State) : State := { s.exceptReport with result := 0 }

/-- The state without what Init() may change besides: ERRCNT and SEQ (44_policy.md rule R242). -/
def State.exceptCount (s : State) : State := { s with errcnt := 0, seq := .idle }

/-- The state without the joystick state (10_state.md rule R34). -/
def State.exceptJoystick (s : State) : State :=
  { s with axis := Vector.replicate 16 0, hat := 0, buttons := 0, valid := false }

/-- The state without what INIT may change (44_policy.md rule R244). -/
def State.exceptInit (s : State) : State := s.exceptDetection.exceptOutcome.exceptCount

/-- The state without what a cycle of UPDATE may change (44_policy.md rule R246, no escalation). -/
def State.exceptCycle (s : State) : State := s.exceptAcquisition.exceptOutcome.exceptCount.exceptJoystick

/-- The joystick state (10_state.md rule R34): AXIS, HAT, BUTTONS, VALID. -/
def State.joystick (s : State) : Vector (BitVec 10) 16 × BitVec 4 × BitVec 16 × Bool :=
  (s.axis, s.hat, s.buttons, s.valid)

/-- An event is a poll or a trigger change: what may stand inside a critical section of an acquisition or READID. -/
def Event.isPollOrTrig (e : Event) : Bool :=
  match e with
  | .poll _ | .trig _ => true
  | .crit _ | .delay _ => false

/-- The answer an event records, if it is a poll. -/
def Event.answer (e : Event) : Option Lines :=
  match e with
  | .poll v => some v
  | .trig _ | .crit _ | .delay _ => none

/-- An answer with the clock low, respectively high, and the given data lines (R22). -/
def lowPhase (v : Slot) : Lines := v.setWidth 4
def highPhase (v : Slot) : Lines := v.setWidth 4 ||| 8

/-- One slot sent through one low and one high clock phase of two polls each (95_test_vectors.md, conventions). -/
def slotWave (v : Slot) : List Lines := [lowPhase v, lowPhase v, highPhase v, highPhase v]

/-- The standard packet waveform Wv (95_test_vectors.md, conventions): the idle clock, each slot's two phases, and the clock
left high with the last data for `tail` polls, in which the last wait runs out. -/
def packetWave (slots : List Slot) (tail : Nat) : List Lines :=
  [8, 8] ++ slots.flatMap slotWave ++ List.replicate tail (highPhase (slots.getLast?.getD 0))

/-- The bits of one framed byte (41_acquisition.md rule R146): start 1, eight data bits least significant first, stop 0. -/
def frameBits (b : BitVec 8) : List Bool := true :: (List.range 8).map b.getLsbD ++ [false]

/-- Bits carried at falling edges of the clock on D0, `p` the data held over from the bit before (95_test_vectors.md,
"How the byte-framed traces are built"). -/
def bitWave (p : Bool) (bits : List Bool) : List Lines :=
  match bits with
  | [] => []
  | b :: rest =>
    [highPhase ((BitVec.ofBool p).setWidth 3), highPhase ((BitVec.ofBool p).setWidth 3),
      lowPhase ((BitVec.ofBool b).setWidth 3), lowPhase ((BitVec.ofBool b).setWidth 3)] ++ bitWave b rest

/-- The byte-framed waveform: idle, the synchronising fall, the framed bytes, the clock left high for `tail` polls. -/
def byteWave (bytes : List (BitVec 8)) (tail : Nat) : List Lines :=
  [8, 8, 0, 0] ++ bitWave false (bytes.flatMap frameBits) ++ List.replicate tail 8

/-- The answers a serial acquisition takes from a device that sends these slots, at most 128: after the 128th there is no
further wait, so the last clock phase is not polled to its end (41_acquisition.md rule R143, R310). -/
def takenWave (slots : List Slot) (tail : Nat) : List Lines :=
  if slots.length < capSlots then packetWave slots tail else ([8, 8] ++ slots.flatMap slotWave).dropLast

/-- The trigger changes of READID when slot count k is reached (42_detection.md rule R173). -/
def toggleEvents (p1 p2 k : Nat) : List Event :=
  (if k = p1 then [.trig false] else []) ++ (if k = p2 then [.trig true] else [])

/-- The events of READID for the slots after the first k of a packet: each slot is stored at its third poll. -/
def slotEvents (p1 p2 k : Nat) (slots : List Slot) : List Event :=
  match slots with
  | [] => []
  | v :: rest =>
    [.poll (lowPhase v), .poll (lowPhase v), .poll (highPhase v)] ++ toggleEvents p1 p2 (k + 1) ++
      (if k + 1 < capSlots then [.poll (highPhase v)] else []) ++ slotEvents p1 p2 (k + 1) rest

/-- The polls and trigger changes of READID on `takenWave slots tail`, with its toggles at p1 and p2 slots (R173). -/
def readEvents (p1 p2 : Nat) (slots : List Slot) (tail : Nat) : List Event :=
  [.poll 8, .poll 8] ++ slotEvents p1 p2 0 slots ++
    (if slots.length < capSlots then List.replicate tail (.poll (highPhase (slots.getLast?.getD 0))) else [])

/-- The answers ACQB takes from a device that sends these well-framed bytes, at most 16: after the 16th there is no further
wait (41_acquisition.md rule R146). -/
def takenBytes (bytes : List (BitVec 8)) (tail : Nat) : List Lines :=
  if bytes.length < 16 then byteWave bytes tail
  else ([8, 8, 0, 0] ++ bitWave false (bytes.flatMap frameBits)).dropLast

/-- Well-framed bytes and then bits, polled up to the first poll of the last bit's low phase. -/
def brokenWave (bytes : List (BitVec 8)) (bits : List Bool) : List Lines :=
  ([8, 8, 0, 0] ++ bitWave false (bytes.flatMap frameBits ++ bits)).dropLast

/-- The bits that break a frame (41_acquisition.md rule R146): a start bit of 0, or a whole byte with a stop bit of 1. -/
def violatesFrame (bits : List Bool) : Prop :=
  bits = [false] ∨ ∃ b : BitVec 8, bits = true :: (List.range 8).map b.getLsbD ++ [true]

/-- The packet lengths that name one model (42_detection.md rule R171). -/
def unambiguousLengths : List (Nat × Model) :=
  [(15, .gamePad), (22, .threeDPro), (64, .threeDPro), (11, .forceFeedbackWheel), (33, .forceFeedbackWheel)]

/-- The operations that drive the trigger whatever the state (10_state.md rule R23) and leave it low (R49). -/
def leavesTrigLow (i : Instr) : Bool :=
  match i with
  | .pulse _ | .acqs | .acqt | .acqb | .modesw | .readid _ | .init | .update => true
  | .nop | .rdlvl _ | .settrig _ | .waitedge _ _ _ | .waitlvl _ _ _ | .cooldown | .detect | .decode | .decGp | .dec3dp
  | .decPp | .decFfp | .decFfw | .rdreg _ | .hatnib _ | .wrslot _ _ | .setlen _ => false

/-- n steps, stopping at the first that is not a next state. -/
def runSteps (n : Nat) (s : State) : Host.Outcome State Fault Refusal :=
  match n with
  | 0 => .next s
  | n + 1 =>
    match step s with
    | .next t => runSteps n t
    | .fault f => .fault f
    | .refused r => .refused r

/-- From `s` to `t` exactly the events `es` happened (00_scope.md rule R13): EVT gained them at its end, the device's
answers were used up in order, one for each poll, each poll's event records the answer it got, and LASTIN is the last
answer recorded, or as it was where there was no poll (10_state.md rule R25). -/
structure Trace (s t : State) (es : List Event) : Prop where
  evt : t.evt = s.evt ++ es
  lastin : t.lastin = (es.filterMap Event.answer).getLast?.getD s.lastin
  feed : t.feed = s.feed.drop (pollCount es)
  draws : t.draws = s.draws + (pollCount es - s.feed.length)
  answers : es.filterMap Event.answer = s.answers (pollCount es)

/-- The events of Detect() on a packet of length `len` (42_detection.md rule R172): none, but for an ambiguous length the
cooldown and the bracketed secondary read, polls and trigger changes. -/
def IsDetection (c : Cfg) (len : Nat) (es : List Event) : Prop :=
  match c.lenTable len with
  | .noModel | .one _ => es = []
  | .ambiguous _ _ => ∃ ps, es = [.delay c.cooldownUs, .crit true, .trig true] ++ ps ++ [.trig false, .crit false] ∧
      (∀ e ∈ ps, e.isPollOrTrig = true) ∧ 1 ≤ pollCount ps

/-- The events of one attempt of Init() (44_policy.md rule R242) whose acquisition leaves a packet of length `len`:
Acquire()'s, a cooldown and one bracketed run of polls (R151), and then Detect()'s. -/
def IsAttempt (c : Cfg) (len : Nat) (es : List Event) : Prop :=
  ∃ ps fs, es = .delay c.cooldownUs :: ([.crit true, .trig true] ++ ps ++ [.trig false, .crit false]) ++ fs ∧
    (∀ e ∈ ps, e.isPoll = true) ∧ 1 ≤ pollCount ps ∧ IsDetection c len fs

/-- The poll bounds of 70_reset_and_hazards.md rule R312, for the operations that end in one big step without Init(). -/
def pollBound (i : Instr) : Nat :=
  match i with
  | .waitedge _ _ tmo => 1 + tmo.toNat
  | .waitlvl _ _ tmo => tmo.toNat
  | .acqs | .acqt | .readid _ | .detect => 1 + cfg.tFirst.toNat + 128 * (1 + cfg.tNext.toNat)
  | .acqb => 1 + cfg.tFirst.toNat + 160 * (1 + cfg.tNext.toNat)
  | .rdlvl _ => 1
  | .init | .update | .nop | .settrig _ | .pulse _ | .modesw | .cooldown | .decode | .decGp | .dec3dp | .decPp | .decFfp
  | .decFfw | .rdreg _ | .hatnib _ | .wrslot _ _ | .setlen _ => 0

/-- The operations that write MODEL (10_state.md rule R29): DETECT, INIT, and UPDATE through Init(). -/
def writesModel (i : Instr) : Bool :=
  match i with
  | .detect | .init | .update => true
  | .nop | .rdlvl _ | .settrig _ | .pulse _ | .waitedge _ _ _ | .waitlvl _ _ _ | .acqs | .acqt | .acqb | .modesw
  | .cooldown | .readid _ | .decode | .decGp | .dec3dp | .decPp | .decFfp | .decFfw | .rdreg _ | .hatnib _
  | .wrslot _ _ | .setlen _ => false

/-- The operations that write ERRCNT (10_state.md rule R37): UPDATE and INIT. -/
def writesErrcnt (i : Instr) : Bool :=
  match i with
  | .init | .update => true
  | .detect | .nop | .rdlvl _ | .settrig _ | .pulse _ | .waitedge _ _ _ | .waitlvl _ _ _ | .acqs | .acqt | .acqb | .modesw
  | .cooldown | .readid _ | .decode | .decGp | .dec3dp | .decPp | .decFfp | .decFfw | .rdreg _ | .hatnib _
  | .wrslot _ _ | .setlen _ => false

/-- The operations that can commit a decode (43_decoders.md rule R201): DECODE, DEC.x, UPDATE. -/
def canDecode (i : Instr) : Bool :=
  match i with
  | .decode | .decGp | .dec3dp | .decPp | .decFfp | .decFfw | .update => true
  | .init | .detect | .nop | .rdlvl _ | .settrig _ | .pulse _ | .waitedge _ _ _ | .waitlvl _ _ _ | .acqs | .acqt
  | .acqb | .modesw | .cooldown | .readid _ | .rdreg _ | .hatnib _ | .wrslot _ _ | .setlen _ => false

/-- The bits per slot of a packet whose model takes length n with one bit and m with three (R191). -/
def bitsFor (n m : Nat) (s : State) (bps : Nat) : Prop :=
  (s.pktlen.toNat = n ∧ bps = 1) ∨ (s.pktlen.toNat = m ∧ bps = 3)

/-- The words rule R95 of 30_encoding.md lists as illegal, in its words: RSV != 0, or by OP. -/
def listedIllegal (w : Word) : Prop :=
  Word.rsv w ≠ 0 ∨
  ((Word.op w = 0x0 ∨ Word.op w = 0x7 ∨ Word.op w = 0x8 ∨ Word.op w = 0xA ∨ Word.op w = 0xC ∨ Word.op w = 0xD) ∧
    (Word.sub w ≠ 0 ∨ Word.imm w ≠ 0)) ∨
  (Word.op w = 0x1 ∧ ((Word.sub w).extractLsb' 2 2 ≠ 0 ∨ Word.imm w ≠ 0)) ∨
  (Word.op w = 0x2 ∧ (Word.sub w ≠ 0 ∨ (Word.imm w).extractLsb' 1 15 ≠ 0)) ∨
  (Word.op w = 0x3 ∧ Word.sub w ≠ 0) ∨
  (Word.op w = 0x4 ∧ (Word.sub w).extractLsb' 2 2 = 3) ∨
  (Word.op w = 0x5 ∧ (Word.sub w).extractLsb' 3 1 = 1) ∨
  (Word.op w = 0x6 ∧ (2 < (Word.sub w).toNat ∨ Word.imm w ≠ 0)) ∨
  ((Word.op w = 0x9 ∨ Word.op w = 0xE) ∧ (Word.sub w ≠ 0 ∨ (Word.imm w).extractLsb' 8 8 ≠ 0)) ∨
  (Word.op w = 0xB ∧ (5 < (Word.sub w).toNat ∨ Word.imm w ≠ 0)) ∨
  (Word.op w = 0xF ∧
    (2 < (Word.sub w).toNat ∨
      (Word.sub w = 0 ∧ (Word.imm w).extractLsb' 4 12 ≠ 0) ∨
      (Word.sub w = 1 ∧ ((Word.imm w).extractLsb' 15 1 = 1 ∨ (Word.imm w).extractLsb' 3 5 ≠ 0)) ∨
      (Word.sub w = 2 ∧ ((Word.imm w).extractLsb' 8 8 ≠ 0 ∨ 128 < ((Word.imm w).extractLsb' 0 8).toNat))))

/-- The global invariant (R49): what holds of GSPD between steps. MODEL <= 5, AXIS[i] <= 1023 and LASTERR not 5 or 6 are
kept by the types of the fields. `crit_low`, `hidden_dead`, `looping` and `escalated` speak also of the instants at the
loop head of Init(). -/
structure GlobalInv (s : State) : Prop where
  /-- PKTLEN <= CAP (R27, R49). -/
  pktlen_le : s.pktlen.toNat ≤ capSlots
  /-- The packet buffer is in canonical form and holds no slot outside 0..127 (R60). -/
  pkt_wf : Memory.wf s.pkt = true
  /-- HAT <= 8 (R31, R49). -/
  hat_le : s.hat.toNat ≤ 8
  /-- CRIT = 0 (R24, R49). -/
  crit_low : s.crit = false
  /-- ERRCNT <= ERR_THRESHOLD (R37, R49). -/
  errcnt_le : s.errcnt.toNat ≤ cfg.errThreshold
  /-- No hidden state survives an operation (R46). -/
  hidden_dead : s.hid = Hidden.dead
  /-- In the loop of Init() MODEL is Unknown, ERRCNT is 0 and TRIG is 0 (R242, R143). -/
  looping : ∀ k, s.seq = .initLoop k → s.model = .unknown ∧ s.errcnt = 0 ∧ s.trig = false
  /-- In an escalation the failed cycle's OK and LASTERR stand (R245, R280). -/
  escalated : s.seq = .initLoop .updateEscalated → s.ok = false ∧ s.lasterr ≠ .noError ∧ s.lasterr ≠ .illegalCommand
  /-- When idle, ILL is set exactly with LASTERR = IllegalCommand (R39, R95, R272). -/
  ill_iff : s.seq = .idle → (s.ill = true ↔ s.lasterr = .illegalCommand)
  /-- When idle, OK excludes an error kind (R39, R271). -/
  ok_clean : s.seq = .idle → s.ok = true → s.lasterr = .noError

end Sys2Proof.Machine
end

