-- ==== Sys2Proof/Certificates/Slice0/Obligations.lean ====
section
/-! DEFINITION. The statements about GSPD, each from the numbered rules of spec/ its docstring names. -/

open Sys2Proof Sys2Proof.Machine

/-! ### Encoding -/

/-- The five worked encodings of 30_encoding.md rule R100. -/
def Obligations.SpecExampleWordsDecode : Prop :=
  decode 0x47000064 = .ok (.waitedge .clk .rising 100) ∧ decode 0x54000032 = .ok (.waitlvl .d0 true 50) ∧
    decode 0xE0000010 = .ok (.rdreg 0x10) ∧ decode 0xF1000507 = .ok (.wrslot 5 7) ∧ decode 0xB3000000 = .ok .decPp

/-- Every well-formed operation is what its own word decodes to, with every operand at every value (R82, R83, R100). -/
def Obligations.DecodeOfEncodeIsIdentity : Prop :=
  ∀ i : Instr, i.WellFormed → decode (encode i) = .ok i

/-- Every legal word stands for one well-formed operation and is that operation's word (R83, R98, R102). -/
def Obligations.LegalWordIsItsOperationsEncoding : Prop :=
  ∀ (w : Word) (i : Instr), decode w = .ok i → i.WellFormed ∧ encode i = w

/-- The decoder refuses exactly the words that rule R95 lists. -/
def Obligations.IllegalWordsAreExactlyTheListed : Prop :=
  ∀ w : Word, (∃ e, decode w = .error e) ↔ listedIllegal w

/-! ### The step -/

/-- A released, idle machine consumes the word at its port and runs the operation the word decodes to: the step is exec of
that operation on the state without the word (R80, R97, R102). So under every configuration, of which the machine's own
is one (R6). -/
def Obligations.StepRunsDecodedCommand : Prop :=
  (∀ (s : State) (w : Word) (i : Instr), s.rst = .low → s.seq = .idle → s.offered = some w → decode w = .ok i →
    step s = exec i { s with cmds := s.cmds.tail } ∧ ∀ c, stepIn c s = execIn c i { s with cmds := s.cmds.tail }) ∧
  (∀ i s, exec i s = execIn cfg i s) ∧ (∀ s, step s = stepIn cfg s)

/-- An illegal word at the port is consumed and changes STATUS.ILL, OK, REDET and LASTERR only (R95, R277). -/
def Obligations.IllegalWordChangesOnlyTheReport : Prop :=
  ∀ (s : State) (w : Word), s.rst = .low → s.seq = .idle → s.offered = some w → listedIllegal w →
    step s = .next { s with cmds := s.cmds.tail, ill := true, ok := false, redet := false, lasterr := .illegalCommand }

/-- An idle machine with no word at its port stays as it is (R289 "nothing is lost"; that the model takes a step at all
there is its own choice, log 4). -/
def Obligations.IdleMachineKeepsItsState : Prop :=
  ∀ s : State, s.rst = .low → s.seq = .idle → s.cmds = [] → step s = .next s

/-- Nothing stops the block: every step from every state gives a next state (R14, R270). -/
def Obligations.EveryStepGivesANextState : Prop :=
  ∀ s : State, ∃ t, step s = .next t

/-- While an operation runs, a word at the port is not consumed, cmd_ready is 0, and the words waiting there change nothing
of what happens (R97). -/
def Obligations.BusyMachineHoldsTheCommand : Prop :=
  ∀ (s : State) (k : InitCaller), s.rst = .low → s.seq = .initLoop k →
    s.cmdReady = false ∧ ∃ t, step s = .next t ∧ t.cmds = s.cmds ∧
      ∀ ws, step { s with cmds := ws } = .next { t with cmds := ws }

/-- What reset leaves, for every register whose value the spec gives (R50, R300), wherever the pin cuts. -/
def Obligations.ResetLeavesTheStatedValues : Prop :=
  ∀ r : State, (r = State.reset ∨ ∃ s : State, s.rst ≠ .low ∧ step s = .next r) →
    r.trig = false ∧ r.crit = false ∧ (∀ i, Memory.read r.pkt i = 0) ∧ r.pktlen = 0 ∧ r.model = .unknown ∧
      r.valid = false ∧ r.errcnt = 0 ∧ r.lasterr = .noError ∧ statusWord r.busy r = 0 ∧ r.result = 0 ∧ r.idval = 0 ∧
      r.tmo = 0 ∧ r.seq = .idle ∧ r.evt = []

/-- Asserting the reset input ends whatever runs, also a loop of Init() and an operation in its middle, with the lines low, no
operation running and the global invariant met (R49, R300, R302). Of an operation cut after n events the device has given
the answers of the polls among them and no more, and the word that started it is consumed. That the reset takes one step
and the pin is then released is log 5's choice; HAT within 0..8 after it is log 7's reading of R49. -/
def Obligations.ResetPinEndsEveryOperation : Prop :=
  (∀ s : State, s.rst ≠ .low → ∃ t, step s = .next t ∧ t.seq = .idle ∧ t.triggerOut = false ∧ t.critOut = false ∧
    t.cmdReady = true ∧ GlobalInv t) ∧
  (∀ (s u : State) (n : Nat) (es : List Event), s.rst = .during n → step { s with rst := .low } = .next u →
    Trace s u es → ∃ t, step s = .next t ∧ t.feed = s.feed.drop (pollCount (es.take n)) ∧ t.cmds = u.cmds)

/-- The reset state meets the global invariant (R49, R50); HAT 0 is log 6's choice. -/
def Obligations.ResetMeetsTheInvariant : Prop := GlobalInv State.reset

/-- Every step keeps the global invariant (R49, with R24, R37, R39, R46): whatever the device answers, whatever word is at
the port, in whatever position of Init(), with or without a reset. Of its clauses the canonical form of the packet list is
log 11's, those on the loop head of Init() rest on logs 3 and 17, and HAT after a reset by the pin on log 7. -/
def Obligations.EveryStepKeepsTheInvariant : Prop :=
  ∀ s t : State, GlobalInv s → step s = .next t → GlobalInv t

/-! ### The bit channel -/

/-- NOP (R115): the all-zero word; only OK, ILL, REDET and LASTERR are written. -/
def Obligations.NopWritesOnlyTheReport : Prop :=
  decode 0x00000000 = .ok .nop ∧
    ∀ s : State, exec .nop s = .next { s with ok := true, ill := false, redet := false, lasterr := .noError }

/-- RDLVL (R116): one poll; RESULT is the polled bit of the line, zero-extended; nothing else but LASTIN, EVT, the device's
answers and the report changes. -/
def Obligations.RdlvlReadsOneLine : Prop :=
  ∀ (line : Line) (s : State),
    decode (0x10000000 ||| (line.code.setWidth 32 <<< 24)) = .ok (.rdlvl line) ∧
    exec (.rdlvl line) s = .next
      { s.polled 1 with
        result := if (s.answer 0).getLsbD line.code.toNat then 1 else 0
        ok := true, ill := false, redet := false, lasterr := .noError }

/-- SETTRIG (R117): TRIG is the level, EVT gains T(level) even where TRIG had it; RESULT unchanged. It is the only operation
that can raise TRIG for the time after it, and TRIG is 0 after any acquisition, READID, MODESW, PULSE, INIT or UPDATE
whatever it was before (R49, R117); after MODESW that rests on log 21's reading too. -/
def Obligations.SettrigDrivesTheTrigger : Prop :=
  (∀ (level : Bool) (s : State),
    decode (0x20000000 ||| if level then 1 else 0) = .ok (.settrig level) ∧
    exec (.settrig level) s = .next
      { s with
        trig := level, evt := s.evt ++ [.trig level], ok := true, ill := false, redet := false, lasterr := .noError }) ∧
  (∀ (i : Instr) (s : State), s.hid = Hidden.dead → ∃ t, exec i s = .next t ∧
    (leavesTrigLow i = true → t.trig = false) ∧
    (t.trig = true → i = .settrig true ∨ (s.trig = true ∧ leavesTrigLow i = false)))

/-- PULSE (R118): T(1) D(us) T(0), TRIG ends 0, no critical section; RESULT unchanged. -/
def Obligations.PulseRaisesAndLowersTheTrigger : Prop :=
  ∀ (us : BitVec 16) (s : State),
    decode (0x30000000 ||| us.setWidth 32) = .ok (.pulse us) ∧
    exec (.pulse us) s = .next
      { s with
        trig := false, evt := s.evt ++ [.trig true, .delay us.toNat, .trig false]
        ok := true, ill := false, redet := false, lasterr := .noError }

/-- WAITEDGE (R113, R119): where the first edge of the direction lies between answers j and j + 1 with j below the budget,
it makes j + 2 polls and RESULT and TMO are the budget less j; where there is none, it makes budget + 1 polls, RESULT and
TMO are 0 and the report is AcquisitionTimeout. Nothing else changes. -/
def Obligations.WaitedgeReportsTheFirstEdge : Prop :=
  ∀ (line : Line) (dir : Dir) (tmo : Timeout) (s : State), s.hid = Hidden.dead →
    (∀ j, j < tmo.toNat → s.edgeAt line dir j → (∀ i < j, ¬ s.edgeAt line dir i) →
      exec (.waitedge line dir tmo) s = .next
        { s.polled (j + 2) with
          tmo := BitVec.ofNat 16 (tmo.toNat - j), result := BitVec.ofNat 16 (tmo.toNat - j)
          ok := true, ill := false, redet := false, lasterr := .noError }) ∧
    ((∀ j < tmo.toNat, ¬ s.edgeAt line dir j) →
      exec (.waitedge line dir tmo) s = .next
        { s.polled (tmo.toNat + 1) with
          tmo := 0, result := 0, ok := false, ill := false, redet := false, lasterr := .acquisitionTimeout })

/-- WAITLVL (R114, R120): where answer j, j below the budget, is the first with the line at the level, it makes j + 1 polls
and RESULT and TMO are the budget less j; where none is, it makes as many polls as the budget, RESULT and TMO are 0 and the
report is AcquisitionTimeout. A budget of 0 makes no poll. Nothing else changes. -/
def Obligations.WaitlvlReportsTheFirstLevel : Prop :=
  ∀ (line : Line) (level : Bool) (tmo : Timeout) (s : State),
    (∀ j, j < tmo.toNat → lineLevel line (s.answer j) = level → (∀ i < j, lineLevel line (s.answer i) ≠ level) →
      exec (.waitlvl line level tmo) s = .next
        { s.polled (j + 1) with
          tmo := BitVec.ofNat 16 (tmo.toNat - j), result := BitVec.ofNat 16 (tmo.toNat - j)
          ok := true, ill := false, redet := false, lasterr := .noError }) ∧
    ((∀ j < tmo.toNat, lineLevel line (s.answer j) ≠ level) →
      exec (.waitlvl line level tmo) s = .next
        { s.polled tmo.toNat with
          tmo := 0, result := 0, ok := false, ill := false, redet := false, lasterr := .acquisitionTimeout })

/-! ### Acquisition -/

/-- ACQS and ACQT for whatever the device answers (R141, R143 to R145): the events are C(1) T(1), polls, T(0) C(0); the
trigger and the critical section end low; at most 128 slots are filled, each masked to the family's lines, every other slot
is 0 (that the packet list is canonical is log 11's form); RESULT is PKTLEN; AcquisitionTimeout exactly when no slot was
filled; FERR is 0; nothing outside the acquisition's registers and the report changes. -/
def Obligations.SerialAcquisitionLeavesAPacket : Prop :=
  ∀ (s : State), s.hid = Hidden.dead → ∀ ik : Instr × Slot, ik = (.acqs, 0b001) ∨ ik = (.acqt, 0b111) →
    ∃ t ps, exec ik.1 s = .next t ∧
      Trace s t ([.crit true, .trig true] ++ ps ++ [.trig false, .crit false]) ∧
      (∀ e ∈ ps, e.isPoll = true) ∧ 1 ≤ pollCount ps ∧
      t.trig = false ∧ t.crit = false ∧ t.hid = Hidden.dead ∧ t.ferr = false ∧
      t.pktlen.toNat ≤ 128 ∧ Memory.wf t.pkt = true ∧
      (∀ i, Memory.read t.pkt i &&& ik.2 = Memory.read t.pkt i) ∧
      (∀ i, t.pktlen.toNat ≤ i → Memory.read t.pkt i = 0) ∧
      t.result = t.pktlen.setWidth 16 ∧ t.ill = false ∧ t.redet = false ∧
      (t.pktlen = 0 → t.ok = false ∧ t.lasterr = .acquisitionTimeout) ∧
      (t.pktlen ≠ 0 → t.ok = true ∧ t.lasterr = .noError) ∧
      t.exceptAcquisition.exceptOutcome = s.exceptAcquisition.exceptOutcome

/-- A device that sends 1 to 128 slots in the standard waveform, each clock phase two polls long, has every slot captured by
ACQT in order, and by ACQS with D1 and D2 masked off; the answers up to the end of the last wait are consumed and none
beyond. After slot 128 there is no further wait, whatever the device still sends (R113, R143 to R145, R307, R310). -/
def Obligations.AcqtCapturesTheStandardWaveform : Prop :=
  ∀ (s : State) (slots : List Slot) (rest : List Lines) (ik : Instr × Slot), ik = (.acqs, 0b001) ∨ ik = (.acqt, 0b111) →
    s.hid = Hidden.dead → 1 ≤ slots.length → slots.length ≤ 128 →
    s.feed = takenWave slots cfg.tNext.toNat ++ rest →
    ∃ t, exec ik.1 s = .next t ∧ t.feed = rest ∧
      Trace s t ([.crit true, .trig true] ++ (takenWave slots cfg.tNext.toNat).map Event.poll ++
        [.trig false, .crit false]) ∧
      t.pktlen.toNat = slots.length ∧ (∀ i, Memory.read t.pkt i = slots.getD i 0 &&& ik.2) ∧
      t.result.toNat = slots.length ∧ t.ok = true ∧ t.lasterr = .noError ∧ t.ferr = false

/-- ACQB for whatever the device answers (R141, R146, R147): the events are C(1) T(1), polls, T(0) C(0); PKTLEN is a whole
number of bytes, at most 16; every slot is 0 or 1 (that the packet list is canonical is log 11's form); a framing error
leaves the packet empty with FERR set; nothing outside the acquisition's registers and the report changes. -/
def Obligations.ByteAcquisitionLeavesWholeBytes : Prop :=
  ∀ s : State, s.hid = Hidden.dead →
    ∃ t ps, exec .acqb s = .next t ∧
      Trace s t ([.crit true, .trig true] ++ ps ++ [.trig false, .crit false]) ∧
      (∀ e ∈ ps, e.isPoll = true) ∧ 1 ≤ pollCount ps ∧
      t.trig = false ∧ t.crit = false ∧ t.hid = Hidden.dead ∧
      t.pktlen.toNat ≤ 128 ∧ t.pktlen.toNat % 8 = 0 ∧ Memory.wf t.pkt = true ∧
      (∀ i, (Memory.read t.pkt i).toNat ≤ 1) ∧
      (∀ i, t.pktlen.toNat ≤ i → Memory.read t.pkt i = 0) ∧
      t.result = t.pktlen.setWidth 16 ∧ t.ill = false ∧ t.redet = false ∧
      (t.ferr = true → t.pktlen = 0 ∧ t.ok = false ∧ t.lasterr = .framingError) ∧
      (t.ferr = false → t.pktlen = 0 → t.ok = false ∧ t.lasterr = .acquisitionTimeout) ∧
      (t.ferr = false → t.pktlen ≠ 0 → t.ok = true ∧ t.lasterr = .noError) ∧
      t.exceptAcquisition.exceptOutcome = s.exceptAcquisition.exceptOutcome

/-- A device that sends 1 to 16 well-framed bytes on falling edges has their bits captured by ACQB in arrival order, the
first data bit of a byte least significant; after byte 16 there is no further wait (R146, R147, R64). -/
def Obligations.AcqbCapturesFramedBytes : Prop :=
  ∀ (s : State) (bytes : List (BitVec 8)) (rest : List Lines), s.hid = Hidden.dead →
    1 ≤ bytes.length → bytes.length ≤ 16 → s.feed = takenBytes bytes cfg.tNext.toNat ++ rest →
    ∃ t, exec .acqb s = .next t ∧ t.feed = rest ∧ t.pktlen.toNat = 8 * bytes.length ∧
      (∀ i, Memory.read t.pkt i = (BitVec.ofBool ((bytes.getD (i / 8) 0).getLsbD (i % 8))).setWidth 3) ∧
      t.result.toNat = 8 * bytes.length ∧ t.ok = true ∧ t.lasterr = .noError ∧ t.ferr = false

/-- A start bit of 0 or a stop bit of 1 aborts the whole acquisition as a framing error at the offending poll, after any 0 to
15 well-framed bytes: the packet is empty, the bytes already received lost, FERR is set, LASTERR is FramingError, RESULT 0,
the trigger and the critical section are released (R146, R147, R274). -/
def Obligations.FramingViolationEmptiesThePacket : Prop :=
  ∀ (s : State) (bytes : List (BitVec 8)) (bad : List Bool) (rest : List Lines), s.hid = Hidden.dead →
    bytes.length ≤ 15 → violatesFrame bad → s.feed = brokenWave bytes bad ++ rest →
    ∃ t, exec .acqb s = .next t ∧ t.feed = rest ∧
      Trace s t ([.crit true, .trig true] ++ (brokenWave bytes bad).map Event.poll ++ [.trig false, .crit false]) ∧
      t.pktlen = 0 ∧ (∀ i, Memory.read t.pkt i = 0) ∧ t.ferr = true ∧
      t.ok = false ∧ t.lasterr = .framingError ∧ t.result = 0 ∧ t.trig = false ∧ t.crit = false

/-- MODESW (R150): for each delay d of MODESW_SEQ in order the events T(1) D(MODESW_PULSE_US) T(0) D(d), inside one C(1) C(0);
TRIG and CRIT end 0; RESULT unchanged. That the machine's MODESW_SEQ is not empty, so that TRIG ends 0 as R49 says, is log
21's reading; under a configuration with an empty one the events are C(1) C(0) (R150) and TRIG stays, as the pseudocode has
it (log 21). -/
def Obligations.ModeswSendsThePulseSequence : Prop :=
  decode 0x70000000 = .ok .modesw ∧
    (∀ s : State, s.hid = Hidden.dead → exec .modesw s = .next
      { s with
        trig := false, crit := false
        evt := s.evt ++ ([.crit true] ++
          (cfg.modeswSeq.flatMap fun d => [.trig true, .delay cfg.modeswPulseUs, .trig false, .delay d]) ++ [.crit false])
        ok := true, ill := false, redet := false, lasterr := .noError }) ∧
    (∀ (c : Cfg) (s : State), s.hid = Hidden.dead → execIn c .modesw s = .next
      { s with
        trig := if c.modeswSeq = [] then s.trig else false, crit := false
        evt := s.evt ++ ([.crit true] ++
          (c.modeswSeq.flatMap fun d => [.trig true, .delay c.modeswPulseUs, .trig false, .delay d]) ++ [.crit false])
        ok := true, ill := false, redet := false, lasterr := .noError })

/-- COOLDOWN (R149): D(COOLDOWN_US), no poll and no line driven; RESULT unchanged. So for every value of the constant (R311). -/
def Obligations.CooldownOnlyWaits : Prop :=
  decode 0x80000000 = .ok .cooldown ∧
    (∀ s : State, exec .cooldown s = .next
      { s with
        evt := s.evt ++ [.delay cfg.cooldownUs], ok := true, ill := false, redet := false, lasterr := .noError }) ∧
    (∀ (c : Cfg) (s : State), execIn c .cooldown s = .next
      { s with
        evt := s.evt ++ [.delay c.cooldownUs], ok := true, ill := false, redet := false, lasterr := .noError })

/-! ### Detection -/

/-- READID (R141, R173, R174). For whatever the device answers: the events are C(1) T(1), polls and trigger changes, T(0)
C(0); IDVAL and RESULT are the slots received beyond len, 0 if none; OK is 1; nothing else changes but the packet, the
lines, TMO, LASTIN, FERR (0) and the report. On the standard waveform of 1 to 128 slots every slot is captured in order, and
among the polls the trigger falls where ID_POS1(len) slots are stored and rises where ID_POS2(len) are. -/
def Obligations.ReadidReturnsTheExtraLength : Prop :=
  (∀ (len : BitVec 8) (s : State), s.hid = Hidden.dead →
    ∃ t ps, exec (.readid len) s = .next t ∧
      Trace s t ([.crit true, .trig true] ++ ps ++ [.trig false, .crit false]) ∧
      (∀ e ∈ ps, e.isPollOrTrig = true) ∧ 1 ≤ pollCount ps ∧
      t.trig = false ∧ t.crit = false ∧ t.hid = Hidden.dead ∧ t.ferr = false ∧ t.pktlen.toNat ≤ 128 ∧
      (∀ i, t.pktlen.toNat ≤ i → Memory.read t.pkt i = 0) ∧
      t.idval.toNat = t.pktlen.toNat - len.toNat ∧ t.result = t.idval ∧
      t.ok = true ∧ t.ill = false ∧ t.redet = false ∧ t.lasterr = .noError ∧
      t.exceptDetection.exceptOutcome = s.exceptDetection.exceptOutcome ∧ t.model = s.model) ∧
  (∀ (len : BitVec 8) (s : State) (slots : List Slot) (rest : List Lines), s.hid = Hidden.dead →
    1 ≤ slots.length → slots.length ≤ 128 → s.feed = takenWave slots cfg.tNext.toNat ++ rest →
    ∃ t, exec (.readid len) s = .next t ∧ t.feed = rest ∧
      Trace s t ([.crit true, .trig true] ++
        readEvents (cfg.idPos1 len.toNat) (cfg.idPos2 len.toNat) slots cfg.tNext.toNat ++ [.trig false, .crit false]) ∧
      t.pktlen.toNat = slots.length ∧ (∀ i, Memory.read t.pkt i = slots.getD i 0) ∧
      t.idval.toNat = slots.length - len.toNat)

/-- DETECT on every length that is not ambiguous (R171, R176): 15 is GamePad, 22 and 64 ThreeDPro, 11 and 33
ForceFeedbackWheel, every other length Unknown with LengthMismatch; MODEL, RESULT and the report are written, no poll is
made, ERRCNT is not touched. -/
def Obligations.DetectClassifiesByLength : Prop :=
  ∀ (s : State) (m : Model), s.pktlen ≠ 16 → s.pktlen ≠ 48 →
    m = (if s.pktlen = 15 then .gamePad else if s.pktlen = 22 ∨ s.pktlen = 64 then .threeDPro
      else if s.pktlen = 11 ∨ s.pktlen = 33 then .forceFeedbackWheel else .unknown) →
    exec .detect s = .next
      { s with
        model := m, result := (modelCode m).setWidth 16, ok := m ≠ .unknown, ill := false, redet := false
        lasterr := if m = .unknown then .lengthMismatch else .noError }

/-- DETECT on an ambiguous length (R171, R172, R175, R176): a cooldown, then one secondary read; MODEL is ForceFeedbackPro when
the identifier is at least 14, PrecisionPro otherwise; RESULT is its code; OK is 1. -/
def Obligations.DetectResolvesAmbiguousLengths : Prop :=
  ∀ s : State, s.hid = Hidden.dead → s.pktlen = 16 ∨ s.pktlen = 48 →
    ∃ t ps, exec .detect s = .next t ∧
      Trace s t ([.delay cfg.cooldownUs, .crit true, .trig true] ++ ps ++ [.trig false, .crit false]) ∧
      (∀ e ∈ ps, e.isPollOrTrig = true) ∧ 1 ≤ pollCount ps ∧
      t.idval.toNat = t.pktlen.toNat - s.pktlen.toNat ∧
      t.model = (if 14 ≤ t.idval.toNat then .forceFeedbackPro else .precisionPro) ∧
      t.result = (modelCode t.model).setWidth 16 ∧ t.ok = true ∧ t.ill = false ∧ t.redet = false ∧
      t.lasterr = .noError ∧ t.trig = false ∧ t.crit = false ∧ t.errcnt = s.errcnt ∧
      t.exceptDetection.exceptOutcome = s.exceptDetection.exceptOutcome

/-! ### Decoders -/

/-- DEC.GP (R191, R203, R204): length 15 and XOR parity 0 commit two axes from the direction pairs and ten inverted buttons;
parity 1 is an IntegrityError and any other length a LengthMismatch, both leaving the joystick state. MODEL is not written. -/
def Obligations.DecGpExtractsTheGamePadFields : Prop :=
  ∀ (s : State) (V : BitVec 64), V = lowBits 15 (assemble s.pkt 1 15) →
    (s.pktlen = 15 → xorParity V 15 = false → exec .decGp s = .next
      { s with
        axis := Vector.ofFn fun i =>
          if i = 0 then BitVec.ofNat 10 (scale (1 + getBits V 1 1 - getBits V 0 1) 2)
          else if i = 1 then BitVec.ofNat 10 (scale (1 + getBits V 3 1 - getBits V 2 1) 2) else 0
        hat := 0, buttons := ~~~(BitVec.ofNat 16 (getBits V 4 10)) &&& 0x3FF, valid := true
        result := 1, ok := true, ill := false, redet := false, lasterr := .noError }) ∧
    (s.pktlen = 15 → xorParity V 15 = true → exec .decGp s = .next
      { s with result := 0, ok := false, ill := false, redet := false, lasterr := .integrityError }) ∧
    (s.pktlen ≠ 15 → exec .decGp s = .next
      { s with result := 0, ok := false, ill := false, redet := false, lasterr := .lengthMismatch })

/-- DEC.3DP (R191, R205 to R207): length 64 with one bit per slot or 22 with three; the sync pattern and the nibble sum
must hold; four axes, the hat and eight inverted buttons are committed; failures leave the joystick state. The field
positions, SYNC_MASK and SYNC_VALUE are those of the default Cfg (log 9), taken from general knowledge: not a property of
the hardware (R218). -/
def Obligations.Dec3dpExtractsTheThreeDProFields : Prop :=
  ∀ (s : State) (bps : Nat) (V : BitVec 64), V = lowBits 64 (assemble s.pkt bps s.pktlen.toNat) →
    (bitsFor 64 22 s bps → V &&& 0x8080808080808080 = 0x80 → nibbleSum V = 0 → exec .dec3dp s = .next
      { s with
        axis := Vector.ofFn fun i =>
          if i = 0 then BitVec.ofNat 10 (scale (getBits V 3 3 * 128 + getBits V 16 7) 1023)
          else if i = 1 then BitVec.ofNat 10 (scale (getBits V 0 3 * 128 + getBits V 24 7) 1023)
          else if i = 2 then BitVec.ofNat 10 (scale (getBits V 35 2 * 128 + getBits V 40 7) 511)
          else if i = 3 then BitVec.ofNat 10 (scale (getBits V 32 3 * 128 + getBits V 48 7) 1023) else 0
        hat := if getBits V 6 1 * 8 + getBits V 60 3 ≤ 8 then BitVec.ofNat 4 (getBits V 6 1 * 8 + getBits V 60 3) else 0
        buttons := ~~~(BitVec.ofNat 16 (getBits V 38 1 * 128 + getBits V 8 7)) &&& 0xFF, valid := true
        result := 1, ok := true, ill := false, redet := false, lasterr := .noError }) ∧
    (bitsFor 64 22 s bps → ¬ (V &&& 0x8080808080808080 = 0x80 ∧ nibbleSum V = 0) → exec .dec3dp s = .next
      { s with result := 0, ok := false, ill := false, redet := false, lasterr := .integrityError }) ∧
    (s.pktlen ≠ 64 → s.pktlen ≠ 22 → exec .dec3dp s = .next
      { s with result := 0, ok := false, ill := false, redet := false, lasterr := .lengthMismatch })

/-- DEC.PP and DEC.FFP (R191, R195, R208 to R212): length 48 with one bit per slot or 16 with three; the 48 bits hold an
even number of ones; X, Y, twist, throttle, the hat and nine inverted buttons are committed; failures leave the joystick
state. The field positions and the parity sense are those of the default Cfg (log 9), taken from general knowledge: not a
property of the hardware (R218). -/
def Obligations.DecPpAndFfpExtractTheirFields : Prop :=
  ∀ (i : Instr) (s : State) (bps : Nat) (V : BitVec 64), i = .decPp ∨ i = .decFfp →
    V = lowBits 48 (assemble s.pkt bps s.pktlen.toNat) →
    (bitsFor 48 16 s bps → onesBelow V 48 % 2 = 0 → exec i s = .next
      { s with
        axis := Vector.ofFn fun k =>
          if k = 0 then BitVec.ofNat 10 (scale (getBits V 9 10) 1023)
          else if k = 1 then BitVec.ofNat 10 (scale (getBits V 19 10) 1023)
          else if k = 2 then BitVec.ofNat 10 (scale (getBits V 36 6) 63)
          else if k = 3 then BitVec.ofNat 10 (scale (getBits V 29 7) 127) else 0
        hat := if getBits V 42 4 ≤ 8 then BitVec.ofNat 4 (getBits V 42 4) else 0
        buttons := ~~~(BitVec.ofNat 16 (getBits V 0 9)) &&& 0x1FF, valid := true
        result := 1, ok := true, ill := false, redet := false, lasterr := .noError }) ∧
    (bitsFor 48 16 s bps → onesBelow V 48 % 2 = 1 → exec i s = .next
      { s with result := 0, ok := false, ill := false, redet := false, lasterr := .integrityError }) ∧
    (s.pktlen ≠ 48 → s.pktlen ≠ 16 → exec i s = .next
      { s with result := 0, ok := false, ill := false, redet := false, lasterr := .lengthMismatch })

/-- DEC.FFW (R191, R195, R213 to R215): length 33 with one bit per slot or 11 with three; the 33 bits hold an even number
of ones; the wheel, two pedals and eight inverted buttons are committed, no hat; failures leave the joystick state. The
field positions and the parity sense are those of the default Cfg (log 9), taken from general knowledge: not a property of
the hardware (R218). -/
def Obligations.DecFfwExtractsTheWheelFields : Prop :=
  ∀ (s : State) (bps : Nat) (V : BitVec 64), V = lowBits 33 (assemble s.pkt bps s.pktlen.toNat) →
    (bitsFor 33 11 s bps → onesBelow V 33 % 2 = 0 → exec .decFfw s = .next
      { s with
        axis := Vector.ofFn fun i =>
          if i = 0 then BitVec.ofNat 10 (scale (getBits V 0 10) 1023)
          else if i = 1 then BitVec.ofNat 10 (scale (getBits V 10 6) 63)
          else if i = 2 then BitVec.ofNat 10 (scale (getBits V 16 6) 63) else 0
        hat := 0, buttons := ~~~(BitVec.ofNat 16 (getBits V 22 8)) &&& 0xFF, valid := true
        result := 1, ok := true, ill := false, redet := false, lasterr := .noError }) ∧
    (bitsFor 33 11 s bps → onesBelow V 33 % 2 = 1 → exec .decFfw s = .next
      { s with result := 0, ok := false, ill := false, redet := false, lasterr := .integrityError }) ∧
    (s.pktlen ≠ 33 → s.pktlen ≠ 11 → exec .decFfw s = .next
      { s with result := 0, ok := false, ill := false, redet := false, lasterr := .lengthMismatch })

/-- DECODE (R202): with MODEL Unknown a LengthMismatch that changes only RESULT and the report; with a known MODEL it
completes exactly as the DEC operation of that model. -/
def Obligations.DecodeFollowsTheCachedModel : Prop :=
  ∀ s : State,
    (s.model = .unknown → exec .decode s = .next
      { s with result := 0, ok := false, ill := false, redet := false, lasterr := .lengthMismatch }) ∧
    (∀ i : Instr, (s.model, i) ∈ [(Model.gamePad, Instr.decGp), (.threeDPro, .dec3dp), (.precisionPro, .decPp),
        (.forceFeedbackPro, .decFfp), (.forceFeedbackWheel, .decFfw)] →
      ∃ t, exec .decode s = .next t ∧ exec i s = .next t)

/-- The decoders said together (R34, R190, R201, R202, R275): each decodes for its own model, DECODE for the cached one. A
packet that decodes commits the whole decoded joystick state and sets VALID; any other leaves it, with the decoder's
IntegrityError or LengthMismatch; nothing but the joystick state, RESULT and the report ever changes. -/
def Obligations.DecodeCommitsOrLeavesTheJoystick : Prop :=
  ∀ (i : Instr) (m : Model) (s : State),
    (i, m) ∈ [(Instr.decode, s.model), (.decGp, .gamePad), (.dec3dp, .threeDPro), (.decPp, .precisionPro),
      (.decFfp, .forceFeedbackPro), (.decFfw, .forceFeedbackWheel)] →
    (∀ j, decodePacket cfg m s.pkt s.pktlen.toNat = .ok j →
      j.hat.toNat ≤ 8 ∧ exec i s = .next
        { s with
          axis := j.axis, hat := j.hat, buttons := j.buttons, valid := true
          result := 1, ok := true, ill := false, redet := false, lasterr := .noError }) ∧
    (∀ e, decodePacket cfg m s.pkt s.pktlen.toNat = .error e →
      (e = .integrityError ∨ e = .lengthMismatch) ∧ exec i s = .next
        { s with result := 0, ok := false, ill := false, redet := false, lasterr := e })

/-- HATNIB (R216, R217): 3 gives 7, 5 gives 6, every other nibble 0; RESULT and the report only. -/
def Obligations.HatnibLooksUpTheTable : Prop :=
  ∀ (nib : BitVec 4) (s : State),
    decode (0xF0000000 ||| nib.setWidth 32) = .ok (.hatnib nib) ∧
    exec (.hatnib nib) s = .next
      { s with
        result := if nib = 3 then 7 else if nib = 5 then 6 else 0
        ok := true, ill := false, redet := false, lasterr := .noError }

/-- Scale(x, max) (R198): exact at both ends, non-decreasing, the identity for max = 1023, within 0..1023, the floor of
x * 1023 / max, with a product below 2^20; and the values the rule lists. -/
def Obligations.ScaleIsTheLinearRescale : Prop :=
  (∀ max, 1 ≤ max → max ≤ 1023 →
    scale 0 max = 0 ∧ scale max max = 1023 ∧
    (∀ x, x ≤ max → scale x max ≤ 1023 ∧ x * 1023 < 2 ^ 20 ∧
      scale x max * max ≤ x * 1023 ∧ x * 1023 < (scale x max + 1) * max) ∧
    (∀ x y, x ≤ y → y ≤ max → scale x max ≤ scale y max)) ∧
  (∀ x, x ≤ 1023 → scale x 1023 = x) ∧
  scale 1 63 = 16 ∧ scale 31 63 = 503 ∧ scale 32 63 = 519 ∧ scale 64 127 = 515 ∧ scale 255 511 = 510 ∧
  scale 256 511 = 512 ∧ scale 128 255 = 513 ∧ scale 1 2 = 511

/-- XOR parity 0 and an even count of ones are the same predicate of the low W bits (R194, R195), for every W. -/
def Obligations.EvenParityIsXorParityZero : Prop :=
  ∀ (V : BitVec 64) (W : Nat), evenParity V W = !xorParity V W

/-- Assemble (R64, R192): for 1 or 3 bits per slot and n slots, bit j of the 64 is bit j mod bps of slot j / bps, and 0 at
and above bit n * bps; bits that would stand at 64 and above are dropped. The range property (R219): a packet of a length of
the model whose integrity bits hold decodes, and every field is in range: HAT at most 8, buttons and axes at and above the
model's counts 0, and every axis register the scaled value itself, which is so at most 1023. -/
def Obligations.ValidPacketsDecodeWithinRange : Prop :=
  (∀ (pkt : Packet) (bps n j : Nat), bps = 1 ∨ bps = 3 → j < 64 →
    (assemble pkt bps n).getLsbD j =
      if j / bps < n then (Memory.read pkt (j / bps)).getLsbD (j % bps) else false) ∧
  (∀ (m : Model) (pkt : Packet) (len bps : Nat) (V : BitVec 64), m ≠ .unknown →
    bitsPerSlot (cfg.layout m) len = some bps → V = lowBits (cfg.layout m).width (assemble pkt bps len) →
    integrity cfg m V = true →
    ∃ j, decodePacket cfg m pkt len = .ok j ∧ j.hat.toNat ≤ 8 ∧ j.buttons.toNat < 2 ^ (cfg.desc m).nbuttons ∧
      (∀ i : Fin 16, (cfg.desc m).naxes ≤ i.val → j.axis[i] = 0) ∧
      (∀ i : Fin 16, j.axis[i].toNat = ((cfg.layout m).axes.map (axisValue V)).getD i.val 0))

/-- Flipping any single bit within the W bits of a valid packet value makes the integrity check fail, for every model
(R220). -/
def Obligations.SingleBitFlipIsDetected : Prop :=
  ∀ (m : Model) (V : BitVec 64) (i : Nat), m ≠ .unknown → i < (cfg.layout m).width →
    integrity cfg m V = true → integrity cfg m (V ^^^ (1 <<< i)) = false

/-! ### Policy -/

/-- INIT on a device that answers the first attempt with a packet of a known length (R172, R242, R244). An unambiguous length:
one cooldown, one bracketed acquisition, the slots in the packet buffer, MODEL and RESULT the length's model, ERRCNT 0,
OK 1. An ambiguous one (16, 48): a further cooldown and the secondary read, whose packet stays in the buffer; MODEL is
ForceFeedbackPro when that packet is at least 14 slots longer, else PrecisionPro. The frame: the joystick state and all else
outside the registers R244 lists are kept, IDVAL too where there is no secondary read. -/
def Obligations.InitDetectsAtTheFirstAttempt : Prop :=
  ∀ (s : State) (slots : List Slot) (rest : List Lines), s.hid = Hidden.dead → s.seq = .idle →
    (∀ m, (slots.length, m) ∈ unambiguousLengths → s.feed = packetWave slots cfg.tNext.toNat ++ rest →
      ∃ t, exec .init s = .next t ∧ t.feed = rest ∧
        Trace s t ([.delay cfg.cooldownUs, .crit true, .trig true] ++
          (packetWave slots cfg.tNext.toNat).map Event.poll ++ [.trig false, .crit false]) ∧
        t.seq = .idle ∧ t.model = m ∧ t.result = (modelCode m).setWidth 16 ∧ t.errcnt = 0 ∧ t.ok = true ∧
        t.lasterr = .noError ∧ t.ill = false ∧ t.redet = false ∧ t.joystick = s.joystick ∧ t.idval = s.idval ∧
        t.pktlen.toNat = slots.length ∧ (∀ i, Memory.read t.pkt i = slots.getD i 0) ∧ t.trig = false ∧
        t.crit = false ∧ t.exceptInit = s.exceptInit) ∧
    (∀ second : List Slot, slots.length = 16 ∨ slots.length = 48 → 1 ≤ second.length → second.length ≤ 128 →
      s.feed = packetWave slots cfg.tNext.toNat ++ (takenWave second cfg.tNext.toNat ++ rest) →
      ∃ t, exec .init s = .next t ∧ t.feed = rest ∧
        Trace s t ([.delay cfg.cooldownUs, .crit true, .trig true] ++
          (packetWave slots cfg.tNext.toNat).map Event.poll ++
          [.trig false, .crit false, .delay cfg.cooldownUs, .crit true, .trig true] ++
          readEvents (cfg.idPos1 slots.length) (cfg.idPos2 slots.length) second cfg.tNext.toNat ++
          [.trig false, .crit false]) ∧
        t.seq = .idle ∧ t.model = (if slots.length + 14 ≤ second.length then .forceFeedbackPro else .precisionPro) ∧
        t.result = (modelCode t.model).setWidth 16 ∧ t.errcnt = 0 ∧ t.ok = true ∧ t.lasterr = .noError ∧
        t.ill = false ∧ t.redet = false ∧ t.joystick = s.joystick ∧
        t.idval.toNat = second.length - slots.length ∧ t.pktlen.toNat = second.length ∧
        (∀ i, Memory.read t.pkt i = second.getD i 0) ∧ t.trig = false ∧ t.crit = false ∧
        t.exceptInit = s.exceptInit)

/-- The loop of Init() (R242, R243), one round of it a step (log 3). From the loop head a step always goes on. Its events
are the cooldown and the mode switch where the last packet was shorter than MODESW_BELOW, and nothing where it was not; then
one attempt: a cooldown, C(1) T(1), polls, T(0) C(0), and for an ambiguous length the secondary read. It ends at the loop
head with MODEL Unknown exactly when LEN_TABLE has no entry for the packet acquired, else idle with MODEL known and the
report of the operation that called Init(): INIT's (R244), UPDATE's before any detection (R245, R247), or the failed cycle's
OK and LASTERR with REDET 1 (R245, R249). The frame: AXIS, HAT, BUTTONS, VALID and all else outside the acquisition's
registers, IDVAL, MODEL, RESULT, SEQ and the report are kept. There is no bound: while the device stays silent, any number
of rounds ends at the loop head. -/
def Obligations.InitLoopRetriesWithoutBound : Prop :=
  ∀ (s : State) (k : InitCaller), GlobalInv s → s.rst = .low → s.seq = .initLoop k →
    (∃ t es fs, step s = .next t ∧ Trace s t (es ++ fs) ∧
      (s.pktlen.toNat < cfg.modeswBelow → es = .delay cfg.cooldownUs :: ([.crit true] ++
        (cfg.modeswSeq.flatMap fun d => [.trig true, .delay cfg.modeswPulseUs, .trig false, .delay d]) ++
          [.crit false])) ∧
      (cfg.modeswBelow ≤ s.pktlen.toNat → es = []) ∧
      IsAttempt cfg (acquire cfg (initSwitch cfg s)).pktlen.toNat fs ∧
      (t.seq = .initLoop k ∧ t.model = .unknown ∨ t.seq = .idle ∧ t.model ≠ .unknown) ∧
      (t.seq = .initLoop k ↔ cfg.lenTable (acquire cfg (initSwitch cfg s)).pktlen.toNat = .noModel) ∧
      (t.seq = .idle → t.ill = false ∧
        (k = .cmdInit → t.ok = true ∧ t.lasterr = .noError ∧ t.redet = false ∧
          t.result = (modelCode t.model).setWidth 16) ∧
        (k = .updateUnknown → t.ok = false ∧ t.lasterr = .noError ∧ t.redet = true ∧ t.result = 0) ∧
        (k = .updateEscalated → t.ok = false ∧ t.lasterr = s.lasterr ∧ t.redet = true ∧ t.result = 0)) ∧
      t.errcnt = 0 ∧ t.joystick = s.joystick ∧ t.exceptInit = s.exceptInit) ∧
    (∀ (n : Nat) (v : Lines) (rest : List Lines), s.feed = List.replicate (n * (1 + cfg.tFirst.toNat)) v ++ rest →
      ∃ t, runSteps n s = .next t ∧ t.seq = .initLoop k ∧ t.model = .unknown ∧ t.feed = rest)

/-- UPDATE before any detection runs Init() (R242, R245, R247): its events are those of Init()'s first attempt, which is
plain, D(COOLDOWN_US) C(1) T(1), polls, T(0) C(0) and for an ambiguous length the secondary read; no joystick state is
produced. Exactly when LEN_TABLE has an entry for the packet acquired, as for a device that sends a packet of a known
length, it is idle with MODEL known, REDET 1, OK 0, LASTERR None and RESULT 0; else the step ends at the loop head of
Init(), the one inner position of the model (log 3). The frame: all else outside the acquisition's registers, IDVAL, MODEL,
RESULT, ERRCNT, SEQ and the report is kept. -/
def Obligations.UpdateWithUnknownModelDetects : Prop :=
  ∀ s : State, s.hid = Hidden.dead → s.seq = .idle → s.model = .unknown →
    ∃ t es, exec .update s = .next t ∧ Trace s t es ∧
      IsAttempt cfg (acquire cfg s.beginUpdate.enterInit).pktlen.toNat es ∧
      t.joystick = s.joystick ∧ t.errcnt = 0 ∧ t.trig = false ∧ t.crit = false ∧ t.exceptInit = s.exceptInit ∧
      (t.seq = .idle ∧ t.model ≠ .unknown ∧ t.redet = true ∧ t.ok = false ∧ t.lasterr = .noError ∧ t.result = 0 ∧
          t.ill = false ∨
        t.seq = .initLoop .updateUnknown ∧ t.model = .unknown) ∧
      (t.seq = .idle ↔ cfg.lenTable (acquire cfg s.beginUpdate.enterInit).pktlen.toNat ≠ .noModel) ∧
      (∀ (slots : List Slot) (rest : List Lines) (m : Model), (slots.length, m) ∈ unambiguousLengths →
        s.feed = packetWave slots cfg.tNext.toNat ++ rest → t.seq = .idle ∧ t.model = m ∧ t.feed = rest)

/-- An UPDATE with a known MODEL for whatever the device answers (R34, R245, R246, R248, R249, R278), `a` the state after its
Acquire(). It succeeds exactly when `a` holds a packet that decodes: OK 1, the joystick state decoded from it, ERRCNT 0,
RESULT 1. Else it fails, with AcquisitionTimeout for an empty packet and the decoder's error for any other: OK 0, joystick
state and MODEL kept, ERRCNT one more and still at most 5, RESULT 0; or, with ERRCNT above 5, it re-detects (joystick state
and the failure's kind kept, ERRCNT 0; idle with REDET 1 once a model is found, until then at the loop head of Init(), where
the step ends by log 3 with the report of log 17). The frame: without re-detection IDVAL and MODEL are kept too, and in every
case all else outside the registers R246 lists. FAMILY is the default three-wire one (log 9), which has no framing error. -/
def Obligations.UpdateSucceedsCountsOrEscalates : Prop :=
  ∀ s a : State, GlobalInv s → s.seq = .idle → s.model ≠ .unknown → a = acquire cfg s.beginUpdate →
    ∃ t, exec .update s = .next t ∧ t.ill = false ∧ t.trig = false ∧ t.crit = false ∧
      ((t.seq = .idle ∧ t.ok = true ∧ t.valid = true ∧ t.errcnt = 0 ∧ t.redet = false ∧ t.lasterr = .noError ∧
          t.result = 1 ∧ t.model = s.model ∧ t.idval = s.idval ∧ a.pktlen ≠ 0 ∧ t.pkt = a.pkt ∧ t.pktlen = a.pktlen ∧
          (∃ j, decodePacket cfg s.model a.pkt a.pktlen.toNat = .ok j ∧
            t.axis = j.axis ∧ t.hat = j.hat ∧ t.buttons = j.buttons) ∧
          t.exceptCycle = s.exceptCycle) ∨
        (((a.pktlen = 0 ∧ t.lasterr = .acquisitionTimeout) ∨
            (a.pktlen ≠ 0 ∧ decodePacket cfg s.model a.pkt a.pktlen.toNat = .error t.lasterr)) ∧
          t.ok = false ∧ t.joystick = s.joystick ∧ t.lasterr ≠ .noError ∧ t.lasterr ≠ .illegalCommand ∧
          ((t.seq = .idle ∧ t.errcnt.toNat = s.errcnt.toNat + 1 ∧ t.errcnt.toNat ≤ 5 ∧ t.redet = false ∧
              t.result = 0 ∧ t.model = s.model ∧ t.idval = s.idval ∧ t.pkt = a.pkt ∧ t.pktlen = a.pktlen ∧
              t.exceptCycle = s.exceptCycle) ∨
            (s.errcnt.toNat = 5 ∧ t.errcnt = 0 ∧ t.exceptInit = s.exceptInit ∧
              (t.seq = .idle ∧ t.redet = true ∧ t.model ≠ .unknown ∧ t.result = 0 ∨
                t.seq = .initLoop .updateEscalated ∧ t.redet = false ∧ t.model = .unknown)))))

/-- The GamePad scenario through UPDATE (R246 and 95_test_vectors.md S1): MODEL GamePad and the fifteen slots of the scenario
give AXIS[0] = 0, AXIS[1] = 1023, every other axis 0, HAT 0, all ten buttons pressed, VALID, OK and RESULT 1, ERRCNT 0,
whatever the state was before; IDVAL and all else outside the registers R246 lists is kept. -/
def Obligations.UpdateDecodesTheGamePadScenario : Prop :=
  ∀ (s : State) (rest : List Lines), s.hid = Hidden.dead → s.seq = .idle → s.model = .gamePad →
    s.feed = packetWave [1, 0, 0, 1, 0, 0, 0, 0, 0, 0, 0, 0, 0, 0, 0] cfg.tNext.toNat ++ rest →
    ∃ t, exec .update s = .next t ∧ t.feed = rest ∧
      t.axis = Vector.ofFn (fun i => if i = 1 then 1023 else 0) ∧ t.hat = 0 ∧ t.buttons = 0x03FF ∧ t.valid = true ∧
      t.errcnt = 0 ∧ t.ok = true ∧ t.redet = false ∧ t.lasterr = .noError ∧ t.result = 1 ∧ t.model = .gamePad ∧
      t.seq = .idle ∧ t.ill = false ∧ t.trig = false ∧ t.crit = false ∧ t.idval = s.idval ∧
      t.exceptCycle = s.exceptCycle

/-- A silent device (every answer of one acquisition the same) makes a failed UPDATE below the threshold an
AcquisitionTimeout: LASTERR 1, OK 0, ERRCNT one more, an empty packet, the joystick state kept (R245, R246, R273). -/
def Obligations.UpdateOnSilenceTimesOut : Prop :=
  ∀ (s : State) (v : Lines) (rest : List Lines), s.hid = Hidden.dead → s.seq = .idle → s.model ≠ .unknown →
    s.errcnt.toNat < 5 → s.feed = List.replicate (1 + cfg.tFirst.toNat) v ++ rest →
    exec .update s = .next
      { s with
        trig := false, crit := false, lastin := v, pkt := [], pktlen := 0, ferr := false, tmo := 0, feed := rest
        evt := s.evt ++ ([.delay cfg.cooldownUs, .crit true, .trig true] ++ List.replicate (1 + cfg.tFirst.toNat) (Event.poll v) ++
          [.trig false, .crit false])
        lasterr := .acquisitionTimeout, ok := false, ill := false, redet := false, result := 0
        errcnt := s.errcnt + 1 }

/-- The sixth consecutive failure escalates (R249, R280, C1): with ERRCNT 5, a silent acquisition and then a device that sends
a packet of an unambiguous known length, the same UPDATE re-detects: REDET 1, OK 0, ERRCNT 0, LASTERR the failure's kind,
MODEL the new model, RESULT 0; the joystick state, IDVAL and all else outside the registers R246 lists is kept. -/
def Obligations.SixthFailureRedetects : Prop :=
  ∀ (s : State) (v : Lines) (slots : List Slot) (rest : List Lines) (m : Model), s.hid = Hidden.dead → s.seq = .idle →
    s.model ≠ .unknown → s.errcnt.toNat = 5 →
    (slots.length, m) ∈ unambiguousLengths →
    s.feed = List.replicate (1 + cfg.tFirst.toNat) v ++ (packetWave slots cfg.tNext.toNat ++ rest) →
    ∃ t, exec .update s = .next t ∧ t.feed = rest ∧ t.seq = .idle ∧ t.redet = true ∧ t.ok = false ∧ t.errcnt = 0 ∧
      t.lasterr = .acquisitionTimeout ∧ t.model = m ∧ t.result = 0 ∧ t.ill = false ∧ t.joystick = s.joystick ∧
      t.trig = false ∧ t.crit = false ∧ t.idval = s.idval ∧
      t.exceptInit = s.exceptInit

/-! ### Host access -/

/-- RDREG (R63, R250): RESULT is the register at the address, zero-extended, reserved addresses 0, STATUS with BUSY 0; it
writes RESULT and nothing else. MODEL reads 0 to 5 in the order of R29, DESC the default DESC_TABLE's axes, buttons and hat
(R36, log 9: from general knowledge but for the GamePad's), LASTERR 0 to 4 and 7 (R38, R272). -/
def Obligations.RdregReadsTheRegisterMap : Prop :=
  (∀ (addr : BitVec 8) (s : State),
    decode (0xE0000000 ||| addr.setWidth 32) = .ok (.rdreg addr) ∧
    exec (.rdreg addr) s = .next
      { s with
        result :=
          if addr = 0x00 then statusWord false s
          else if addr = 0x01 then (modelCode s.model).setWidth 16
          else if addr = 0x02 then s.errcnt.setWidth 16
          else if addr = 0x03 then (errCode s.lasterr).setWidth 16
          else if addr = 0x04 then s.result
          else if addr = 0x05 then s.pktlen.setWidth 16
          else if addr = 0x06 then s.lastin.setWidth 16
          else if addr = 0x07 then (if s.trig then 1 else 0) ||| (if s.crit then 2 else 0)
          else if addr = 0x08 then
            BitVec.ofNat 16 ((cfg.desc s.model).naxes + 32 * (cfg.desc s.model).nbuttons +
              1024 * (if (cfg.desc s.model).hashat then 1 else 0))
          else if addr = 0x09 then s.idval
          else if addr = 0x0A then s.tmo
          else if addr = 0x0B then s.hat.setWidth 16
          else if addr = 0x0C then s.buttons
          else if addr = 0x0D then (if s.valid then 1 else 0)
          else if h : 0x10 ≤ addr.toNat ∧ addr.toNat < 0x20 then (s.axis[addr.toNat - 0x10]'(by omega)).setWidth 16
          else if 0x80 ≤ addr.toNat then (Memory.read s.pkt (addr.toNat - 0x80)).setWidth 16
          else 0 }) ∧
  (∀ (s : State) (code desc : BitVec 16), (s.model, code, desc) ∈
      [(Model.unknown, 0, 0x0000), (.gamePad, 1, 0x0142), (.threeDPro, 2, 0x0504), (.precisionPro, 3, 0x0524),
        (.forceFeedbackPro, 4, 0x0524), (.forceFeedbackWheel, 5, 0x0103)] →
    exec (.rdreg 0x01) s = .next { s with result := code } ∧ exec (.rdreg 0x08) s = .next { s with result := desc }) ∧
  (∀ (s : State) (code : BitVec 16), (s.lasterr, code) ∈
      [(ErrKind.noError, 0), (.acquisitionTimeout, 1), (.framingError, 2), (.integrityError, 3), (.lengthMismatch, 4),
        (.illegalCommand, 7)] →
    exec (.rdreg 0x03) s = .next { s with result := code })

/-- The bits of STATUS (R39) as RDREG 0x00 gives them: BUSY reads 0, OK, ILL, REDET, FERR, VALID, TRIG and CRIT in their
places, reserved bits 0. -/
def Obligations.StatusBitsStandInTheirPlaces : Prop :=
  ∀ s : State, ∃ t, exec (.rdreg 0x00) s = .next t ∧ ∀ i, t.result.getLsbD i =
    (if i = 1 then s.ok else if i = 2 then s.ill else if i = 3 then s.redet else if i = 4 then s.ferr
      else if i = 5 then s.valid else if i = 8 then s.trig else if i = 9 then s.crit else false)

/-- The register read port (R72, R250): while idle it gives what RDREG would; while an operation runs STATUS.BUSY reads 1. -/
def Obligations.ReadPortAgreesWithRdreg : Prop :=
  ∀ s : State,
    (s.seq = .idle → ∀ addr, ∃ t, exec (.rdreg addr) s = .next t ∧ t.result = s.readPort cfg addr) ∧
    (s.seq ≠ .idle → (s.readPort cfg 0x00).getLsbD 0 = true)

/-- WRSLOT (R62, R251): the slot written reads back, every other slot as before; RESULT, PKTLEN and everything but the report
unchanged; the canonical form of the packet list, log 11's form of the buffer, is kept. -/
def Obligations.WrslotWritesOneSlot : Prop :=
  ∀ (idx : BitVec 7) (val : Slot) (s : State),
    decode (0xF1000000 ||| (idx.setWidth 32 <<< 8) ||| val.setWidth 32) = .ok (.wrslot idx val) ∧
    ∃ p, exec (.wrslot idx val) s = .next
        { s with pkt := p, ok := true, ill := false, redet := false, lasterr := .noError } ∧
      (∀ i, Memory.read p i = if i = idx.toNat then val else Memory.read s.pkt i) ∧
      (Memory.wf s.pkt = true → Memory.wf p = true)

/-- SETLEN (R252): for n at most 128 PKTLEN is n, every slot at and above n is 0 and every slot below as before; RESULT, FERR
and everything but the report unchanged; a word with n above 128 is illegal. The canonical form of the packet list, log 11's
form of the buffer, is kept. -/
def Obligations.SetlenTruncatesThePacket : Prop :=
  (∀ (n : BitVec 8) (s : State), n.toNat ≤ 128 →
    decode (0xF2000000 ||| n.setWidth 32) = .ok (.setlen n) ∧
    ∃ p, exec (.setlen n) s = .next
        { s with pkt := p, pktlen := n, ok := true, ill := false, redet := false, lasterr := .noError } ∧
      (∀ i, Memory.read p i = if i < n.toNat then Memory.read s.pkt i else 0) ∧
      (Memory.wf s.pkt = true → Memory.wf p = true)) ∧
  (∀ n : BitVec 8, 128 < n.toNat → ∃ e, decode (0xF2000000 ||| n.setWidth 32) = .error e)

/-! ### The whole machine -/

/-- MODEL is written only by DETECT, INIT and UPDATE (R29), and by an UPDATE that ends idle without re-detection (REDET 0)
not at all. -/
def Obligations.ModelChangesOnlyByDetection : Prop :=
  ∀ (i : Instr) (s : State), s.seq = .idle → ∃ t, exec i s = .next t ∧
    (writesModel i = false → t.model = s.model) ∧
    (i = .update → t.seq = .idle → t.redet = false → t.model = s.model)

/-- ERRCNT is written only by UPDATE and INIT (R37, R248). -/
def Obligations.ErrcntChangesOnlyByPolicy : Prop :=
  ∀ (i : Instr) (s : State), ∃ t, exec i s = .next t ∧ (writesErrcnt i = false → t.errcnt = s.errcnt)

/-- AXIS, HAT, BUTTONS and VALID are written only by a successful decode (R30 to R34): by no operation but DECODE, DEC.x and
UPDATE, and by those not when they report OK 0. -/
def Obligations.JoystickChangesOnlyBySuccess : Prop :=
  ∀ (i : Instr) (s : State), s.seq = .idle → ∃ t, exec i s = .next t ∧
    (canDecode i = false → t.joystick = s.joystick) ∧ (t.ok = false → t.joystick = s.joystick)

/-- VALID is never cleared except by reset (R33). -/
def Obligations.ValidIsClearedOnlyByReset : Prop :=
  ∀ s : State, s.rst = .low → s.valid = true → ∃ t, step s = .next t ∧ t.valid = true

/-- The event history says what happened (R13, R47, R111): every step but a reset appends to EVT, takes the device's answers
in order, one for each poll it records, each record is the answer it got, and LASTIN is the last of them, or as before where
there was no poll (R25). -/
def Obligations.EventHistoryRecordsEveryAnswer : Prop :=
  ∀ s : State, s.rst = .low → ∃ t es, step s = .next t ∧ Trace s t es

/-- EVT is a ghost (R47 "No rule reads it"): a run from a state with another history does the same and appends the same, an
operation and a step alike, the rounds of Init() included; and what a reset leaves does not depend on it. -/
def Obligations.EventHistoryIsNeverRead : Prop :=
  (∀ (i : Instr) (s : State), ∃ t es, exec i s = .next t ∧ t.evt = s.evt ++ es ∧
    ∀ h, exec i { s with evt := h } = .next { t with evt := h ++ es }) ∧
  (∀ s : State, s.rst = .low → ∃ t es, step s = .next t ∧ t.evt = s.evt ++ es ∧
    ∀ h, step { s with evt := h } = .next { t with evt := h ++ es }) ∧
  (∀ s : State, s.rst ≠ .low → ∀ h, step { s with evt := h } = step s)

/-- The words that wait at the port have no influence on an operation and are not consumed by it (R97). -/
def Obligations.WaitingWordsHaveNoInfluence : Prop :=
  ∀ (i : Instr) (s : State), ∃ t, exec i s = .next t ∧ t.cmds = s.cmds ∧
    ∀ ws, exec i { s with cmds := ws } = .next { t with cmds := ws }

/-- Every operation other than INIT and UPDATE completes within the polls of rule R312. -/
def Obligations.OperationsCompleteWithinTheirPolls : Prop :=
  ∀ (i : Instr) (s : State), i ≠ .init → i ≠ .update → s.seq = .idle →
    ∃ t es, exec i s = .next t ∧ t.seq = .idle ∧ Trace s t es ∧ pollCount es ≤ pollBound i
end

