-- ==== Sys2Proof/Laws/Memory.lean ====
section
/-! SUPPORT. The slot space: what a read gives after each operation, and that every operation keeps the canonical form. -/

namespace Sys2Proof.Machine

@[simp] theorem Memory.read_nil (i : Nat) : Memory.read [] i = 0 := rfl

theorem Memory.read_cons (c : SlotCell) (p : Packet) (i : Nat) :
    Memory.read (c :: p) i = if c.1 = i then c.2 else Memory.read p i := rfl

theorem Memory.read_erase (p : Packet) (i j : Nat) :
    Memory.read (Memory.erase p i) j = if j = i then 0 else Memory.read p j := by
  induction p with
  | nil => simp [Memory.erase]
  | cons c p ih =>
    simp only [Memory.erase]
    split
    · rename_i h
      rw [ih, Memory.read_cons, h]
      by_cases hj : j = i
      · simp [hj]
      · simp [hj, Ne.symm hj]
    · rename_i h
      rw [Memory.read_cons, Memory.read_cons, ih]
      by_cases hj : j = i
      · simp [hj, h]
      · simp [hj]

theorem Memory.read_insert_same (p : Packet) (i : Nat) (v : Slot) :
    Memory.read (Memory.insert (Memory.erase p i) i v) i = v := by
  induction p with
  | nil => simp [Memory.erase, Memory.insert, Memory.read_cons]
  | cons c p ih =>
    simp only [Memory.erase]
    split
    · exact ih
    · rename_i h
      simp only [Memory.insert]
      split
      · simp [Memory.read_cons]
      · rw [Memory.read_cons, if_neg h, ih]

theorem Memory.read_insert_other (p : Packet) {i j : Nat} (v : Slot) (h : j ≠ i) :
    Memory.read (Memory.insert p i v) j = Memory.read p j := by
  induction p with
  | nil => simp [Memory.insert, Memory.read_cons, h.symm]
  | cons c p ih =>
    simp only [Memory.insert]
    split
    · rw [Memory.read_cons, if_neg (by simpa using h.symm)]
    · rw [Memory.read_cons, Memory.read_cons, ih]

/-- A slot written is the slot read back, and no other slot changes (R61, R62). -/
theorem Memory.read_write (p : Packet) (i j : Nat) (v : Slot) :
    Memory.read (Memory.write p i v) j = if j = i then v else Memory.read p j := by
  unfold Memory.write
  by_cases hv : v = 0
  · simp [hv, Memory.read_erase]
  · rw [if_neg hv]
    by_cases h : j = i
    · rw [h, Memory.read_insert_same]; simp
    · rw [Memory.read_insert_other _ v h, Memory.read_erase]; simp [h]

theorem Memory.read_below (p : Packet) (n i : Nat) :
    Memory.read (Memory.below p n) i = if i < n then Memory.read p i else 0 := by
  induction p with
  | nil => simp [Memory.below]
  | cons c p ih =>
    simp only [Memory.below]
    split
    · rw [Memory.read_cons, Memory.read_cons, ih]; split <;> simp_all
    · rw [ih, Memory.read_cons]; split
      · rw [if_neg (by omega)]
      · rfl

theorem Memory.wfFrom_cons (lo : Nat) (c : SlotCell) (p : Packet) :
    Memory.wfFrom lo (c :: p) = true ↔
      lo ≤ c.1 ∧ c.1 < capSlots ∧ c.2 ≠ 0 ∧ Memory.wfFrom (c.1 + 1) p = true := by
  simp only [Memory.wfFrom, Bool.and_eq_true, decide_eq_true_eq, and_assoc]

theorem Memory.wfFrom_mono {lo hi : Nat} (h : lo ≤ hi) {p : Packet} (hp : Memory.wfFrom hi p = true) :
    Memory.wfFrom lo p = true := by
  cases p with
  | nil => rfl
  | cons c p => rw [Memory.wfFrom_cons] at hp ⊢; exact ⟨by omega, hp.2⟩

theorem Memory.wfFrom_erase {lo : Nat} {p : Packet} (hp : Memory.wfFrom lo p = true) (i : Nat) :
    Memory.wfFrom lo (Memory.erase p i) = true := by
  induction p generalizing lo with
  | nil => rfl
  | cons c p ih =>
    rw [Memory.wfFrom_cons] at hp
    simp only [Memory.erase]
    split
    · exact Memory.wfFrom_mono (by omega) (ih hp.2.2.2)
    · rw [Memory.wfFrom_cons]; exact ⟨hp.1, hp.2.1, hp.2.2.1, ih hp.2.2.2⟩

theorem Memory.wfFrom_insert {lo i : Nat} {p : Packet} (hp : Memory.wfFrom lo (Memory.erase p i) = true)
    (hlo : lo ≤ i) (hi : i < capSlots) {v : Slot} (hv : v ≠ 0) :
    Memory.wfFrom lo (Memory.insert (Memory.erase p i) i v) = true := by
  induction p generalizing lo with
  | nil => exact (Memory.wfFrom_cons _ _ _).2 ⟨hlo, hi, hv, rfl⟩
  | cons c p ih =>
    simp only [Memory.erase] at hp ⊢
    split
    · rename_i h; rw [if_pos h] at hp; exact ih hp hlo
    · rename_i h
      rw [if_neg h, Memory.wfFrom_cons] at hp
      simp only [Memory.insert]
      split
      · rename_i hlt
        rw [Memory.wfFrom_cons, Memory.wfFrom_cons]
        exact ⟨hlo, hi, hv, hlt, hp.2⟩
      · rw [Memory.wfFrom_cons]
        exact ⟨hp.1, hp.2.1, hp.2.2.1, ih hp.2.2.2 (by omega)⟩

/-- MemWrite keeps the canonical form for every index of the slot space (R62). -/
theorem Memory.wf_write {p : Packet} (hp : Memory.wf p = true) {i : Nat} (hi : i < capSlots) (v : Slot) :
    Memory.wf (Memory.write p i v) = true := by
  unfold Memory.write
  split
  · exact Memory.wfFrom_erase hp i
  · exact Memory.wfFrom_insert (Memory.wfFrom_erase hp i) (Nat.zero_le i) hi ‹_›

theorem Memory.wfFrom_below {lo : Nat} {p : Packet} (hp : Memory.wfFrom lo p = true) (n : Nat) :
    Memory.wfFrom lo (Memory.below p n) = true := by
  induction p generalizing lo with
  | nil => rfl
  | cons c p ih =>
    rw [Memory.wfFrom_cons] at hp
    simp only [Memory.below]
    split
    · rw [Memory.wfFrom_cons]; exact ⟨hp.1, hp.2.1, hp.2.2.1, ih hp.2.2.2⟩
    · exact Memory.wfFrom_mono (by omega) (ih hp.2.2.2)

/-- Clearing the slots at and above a length keeps the canonical form (R252). -/
theorem Memory.wf_below {p : Packet} (hp : Memory.wf p = true) (n : Nat) : Memory.wf (Memory.below p n) = true :=
  Memory.wfFrom_below hp n

/-- Below the bound of a canonical list every slot reads 0. -/
theorem Memory.read_of_lt {lo : Nat} {p : Packet} (hp : Memory.wfFrom lo p = true) {i : Nat} (h : i < lo) :
    Memory.read p i = 0 := by
  induction p generalizing lo with
  | nil => rfl
  | cons c p ih =>
    rw [Memory.wfFrom_cons] at hp
    rw [Memory.read_cons, if_neg (by omega), ih hp.2.2.2 (by omega)]

/-- Equal contents are equal lists: canonical packets that read the same everywhere are the same data. -/
theorem Memory.wfFrom_ext {lo : Nat} {p q : Packet} (hp : Memory.wfFrom lo p = true) (hq : Memory.wfFrom lo q = true)
    (h : ∀ i, Memory.read p i = Memory.read q i) : p = q := by
  induction p generalizing lo q with
  | nil =>
    cases q with
    | nil => rfl
    | cons d q =>
      rw [Memory.wfFrom_cons] at hq
      have hd := h d.1
      rw [Memory.read_cons, if_pos rfl] at hd
      exact absurd hd.symm hq.2.2.1
  | cons c p ih =>
    have hp' := (Memory.wfFrom_cons _ _ _).1 hp
    cases q with
    | nil =>
      have hc := h c.1
      rw [Memory.read_cons, if_pos rfl] at hc
      exact absurd hc hp'.2.2.1
    | cons d q =>
      have hq' := (Memory.wfFrom_cons _ _ _).1 hq
      have key : c.1 = d.1 := by
        rcases Nat.lt_trichotomy c.1 d.1 with hlt | heq | hlt
        · have hc := h c.1
          rw [Memory.read_cons, if_pos rfl, Memory.read_cons, if_neg (by omega),
            Memory.read_of_lt hq'.2.2.2 (by omega)] at hc
          exact absurd hc hp'.2.2.1
        · exact heq
        · have hd := h d.1
          rw [Memory.read_cons, if_neg (by omega), Memory.read_cons, if_pos rfl,
            Memory.read_of_lt hp'.2.2.2 (by omega)] at hd
          exact absurd hd.symm hq'.2.2.1
      have hval : c.2 = d.2 := by
        have hc := h c.1
        rwa [Memory.read_cons, if_pos rfl, Memory.read_cons, if_pos key.symm] at hc
      have htail : p = q := by
        refine ih hp'.2.2.2 (key ▸ hq'.2.2.2) fun i => ?_
        have hi := h i
        rw [Memory.read_cons, Memory.read_cons] at hi
        by_cases hci : c.1 = i
        · rw [Memory.read_of_lt hp'.2.2.2 (by omega), Memory.read_of_lt hq'.2.2.2 (by omega)]
        · rwa [if_neg hci, if_neg (by omega)] at hi
      rw [Prod.ext key hval, htail]

/-- The empty packet is canonical (R28, R50). -/
@[simp] theorem Memory.wf_nil : Memory.wf [] = true := rfl

/-- The packet buffer of the reset state is canonical (R50). -/
theorem reset_pkt_wf : Memory.wf State.reset.pkt = true := rfl

end Sys2Proof.Machine
end

