-- ==== Sys2Proof/Laws/State.lean ====
section
/-! SUPPORT. One lemma per field per update of the state, each true by unfolding, so that no later proof unfolds a
record update. Where an update's value depends on a match (the environment's answers) the lemmas split it once. -/

namespace Sys2Proof.Machine

variable (s : State)

@[simp] theorem State.log_trig (e : Event) : (State.log e s).trig = s.trig := rfl
@[simp] theorem State.log_crit (e : Event) : (State.log e s).crit = s.crit := rfl
@[simp] theorem State.log_lastin (e : Event) : (State.log e s).lastin = s.lastin := rfl
@[simp] theorem State.log_pkt (e : Event) : (State.log e s).pkt = s.pkt := rfl
@[simp] theorem State.log_pktlen (e : Event) : (State.log e s).pktlen = s.pktlen := rfl
@[simp] theorem State.log_model (e : Event) : (State.log e s).model = s.model := rfl
@[simp] theorem State.log_axis (e : Event) : (State.log e s).axis = s.axis := rfl
@[simp] theorem State.log_hat (e : Event) : (State.log e s).hat = s.hat := rfl
@[simp] theorem State.log_buttons (e : Event) : (State.log e s).buttons = s.buttons := rfl
@[simp] theorem State.log_valid (e : Event) : (State.log e s).valid = s.valid := rfl
@[simp] theorem State.log_errcnt (e : Event) : (State.log e s).errcnt = s.errcnt := rfl
@[simp] theorem State.log_lasterr (e : Event) : (State.log e s).lasterr = s.lasterr := rfl
@[simp] theorem State.log_ok (e : Event) : (State.log e s).ok = s.ok := rfl
@[simp] theorem State.log_ill (e : Event) : (State.log e s).ill = s.ill := rfl
@[simp] theorem State.log_redet (e : Event) : (State.log e s).redet = s.redet := rfl
@[simp] theorem State.log_ferr (e : Event) : (State.log e s).ferr = s.ferr := rfl
@[simp] theorem State.log_result (e : Event) : (State.log e s).result = s.result := rfl
@[simp] theorem State.log_idval (e : Event) : (State.log e s).idval = s.idval := rfl
@[simp] theorem State.log_tmo (e : Event) : (State.log e s).tmo = s.tmo := rfl
@[simp] theorem State.log_seq (e : Event) : (State.log e s).seq = s.seq := rfl
@[simp] theorem State.log_hid (e : Event) : (State.log e s).hid = s.hid := rfl
@[simp] theorem State.log_evt (e : Event) : (State.log e s).evt = s.evt ++ [e] := rfl
@[simp] theorem State.log_feed (e : Event) : (State.log e s).feed = s.feed := rfl
@[simp] theorem State.log_draws (e : Event) : (State.log e s).draws = s.draws := rfl
@[simp] theorem State.log_cmds (e : Event) : (State.log e s).cmds = s.cmds := rfl
@[simp] theorem State.log_rst (e : Event) : (State.log e s).rst = s.rst := rfl

@[simp] theorem State.driveTrig_trig (l : Bool) : (State.driveTrig l s).trig = l := rfl
@[simp] theorem State.driveTrig_crit (l : Bool) : (State.driveTrig l s).crit = s.crit := rfl
@[simp] theorem State.driveTrig_lastin (l : Bool) : (State.driveTrig l s).lastin = s.lastin := rfl
@[simp] theorem State.driveTrig_pkt (l : Bool) : (State.driveTrig l s).pkt = s.pkt := rfl
@[simp] theorem State.driveTrig_pktlen (l : Bool) : (State.driveTrig l s).pktlen = s.pktlen := rfl
@[simp] theorem State.driveTrig_model (l : Bool) : (State.driveTrig l s).model = s.model := rfl
@[simp] theorem State.driveTrig_axis (l : Bool) : (State.driveTrig l s).axis = s.axis := rfl
@[simp] theorem State.driveTrig_hat (l : Bool) : (State.driveTrig l s).hat = s.hat := rfl
@[simp] theorem State.driveTrig_buttons (l : Bool) : (State.driveTrig l s).buttons = s.buttons := rfl
@[simp] theorem State.driveTrig_valid (l : Bool) : (State.driveTrig l s).valid = s.valid := rfl
@[simp] theorem State.driveTrig_errcnt (l : Bool) : (State.driveTrig l s).errcnt = s.errcnt := rfl
@[simp] theorem State.driveTrig_lasterr (l : Bool) : (State.driveTrig l s).lasterr = s.lasterr := rfl
@[simp] theorem State.driveTrig_ok (l : Bool) : (State.driveTrig l s).ok = s.ok := rfl
@[simp] theorem State.driveTrig_ill (l : Bool) : (State.driveTrig l s).ill = s.ill := rfl
@[simp] theorem State.driveTrig_redet (l : Bool) : (State.driveTrig l s).redet = s.redet := rfl
@[simp] theorem State.driveTrig_ferr (l : Bool) : (State.driveTrig l s).ferr = s.ferr := rfl
@[simp] theorem State.driveTrig_result (l : Bool) : (State.driveTrig l s).result = s.result := rfl
@[simp] theorem State.driveTrig_idval (l : Bool) : (State.driveTrig l s).idval = s.idval := rfl
@[simp] theorem State.driveTrig_tmo (l : Bool) : (State.driveTrig l s).tmo = s.tmo := rfl
@[simp] theorem State.driveTrig_seq (l : Bool) : (State.driveTrig l s).seq = s.seq := rfl
@[simp] theorem State.driveTrig_hid (l : Bool) : (State.driveTrig l s).hid = s.hid := rfl
@[simp] theorem State.driveTrig_evt (l : Bool) : (State.driveTrig l s).evt = s.evt ++ [.trig l] := rfl
@[simp] theorem State.driveTrig_feed (l : Bool) : (State.driveTrig l s).feed = s.feed := rfl
@[simp] theorem State.driveTrig_draws (l : Bool) : (State.driveTrig l s).draws = s.draws := rfl
@[simp] theorem State.driveTrig_cmds (l : Bool) : (State.driveTrig l s).cmds = s.cmds := rfl
@[simp] theorem State.driveTrig_rst (l : Bool) : (State.driveTrig l s).rst = s.rst := rfl

@[simp] theorem State.driveCrit_trig (b : Bool) : (State.driveCrit b s).trig = s.trig := rfl
@[simp] theorem State.driveCrit_crit (b : Bool) : (State.driveCrit b s).crit = b := rfl
@[simp] theorem State.driveCrit_lastin (b : Bool) : (State.driveCrit b s).lastin = s.lastin := rfl
@[simp] theorem State.driveCrit_pkt (b : Bool) : (State.driveCrit b s).pkt = s.pkt := rfl
@[simp] theorem State.driveCrit_pktlen (b : Bool) : (State.driveCrit b s).pktlen = s.pktlen := rfl
@[simp] theorem State.driveCrit_model (b : Bool) : (State.driveCrit b s).model = s.model := rfl
@[simp] theorem State.driveCrit_axis (b : Bool) : (State.driveCrit b s).axis = s.axis := rfl
@[simp] theorem State.driveCrit_hat (b : Bool) : (State.driveCrit b s).hat = s.hat := rfl
@[simp] theorem State.driveCrit_buttons (b : Bool) : (State.driveCrit b s).buttons = s.buttons := rfl
@[simp] theorem State.driveCrit_valid (b : Bool) : (State.driveCrit b s).valid = s.valid := rfl
@[simp] theorem State.driveCrit_errcnt (b : Bool) : (State.driveCrit b s).errcnt = s.errcnt := rfl
@[simp] theorem State.driveCrit_lasterr (b : Bool) : (State.driveCrit b s).lasterr = s.lasterr := rfl
@[simp] theorem State.driveCrit_ok (b : Bool) : (State.driveCrit b s).ok = s.ok := rfl
@[simp] theorem State.driveCrit_ill (b : Bool) : (State.driveCrit b s).ill = s.ill := rfl
@[simp] theorem State.driveCrit_redet (b : Bool) : (State.driveCrit b s).redet = s.redet := rfl
@[simp] theorem State.driveCrit_ferr (b : Bool) : (State.driveCrit b s).ferr = s.ferr := rfl
@[simp] theorem State.driveCrit_result (b : Bool) : (State.driveCrit b s).result = s.result := rfl
@[simp] theorem State.driveCrit_idval (b : Bool) : (State.driveCrit b s).idval = s.idval := rfl
@[simp] theorem State.driveCrit_tmo (b : Bool) : (State.driveCrit b s).tmo = s.tmo := rfl
@[simp] theorem State.driveCrit_seq (b : Bool) : (State.driveCrit b s).seq = s.seq := rfl
@[simp] theorem State.driveCrit_hid (b : Bool) : (State.driveCrit b s).hid = s.hid := rfl
@[simp] theorem State.driveCrit_evt (b : Bool) : (State.driveCrit b s).evt = s.evt ++ [.crit b] := rfl
@[simp] theorem State.driveCrit_feed (b : Bool) : (State.driveCrit b s).feed = s.feed := rfl
@[simp] theorem State.driveCrit_draws (b : Bool) : (State.driveCrit b s).draws = s.draws := rfl
@[simp] theorem State.driveCrit_cmds (b : Bool) : (State.driveCrit b s).cmds = s.cmds := rfl
@[simp] theorem State.driveCrit_rst (b : Bool) : (State.driveCrit b s).rst = s.rst := rfl

@[simp] theorem State.pause_trig (u : Nat) : (State.pause u s).trig = s.trig := rfl
@[simp] theorem State.pause_crit (u : Nat) : (State.pause u s).crit = s.crit := rfl
@[simp] theorem State.pause_lastin (u : Nat) : (State.pause u s).lastin = s.lastin := rfl
@[simp] theorem State.pause_pkt (u : Nat) : (State.pause u s).pkt = s.pkt := rfl
@[simp] theorem State.pause_pktlen (u : Nat) : (State.pause u s).pktlen = s.pktlen := rfl
@[simp] theorem State.pause_model (u : Nat) : (State.pause u s).model = s.model := rfl
@[simp] theorem State.pause_axis (u : Nat) : (State.pause u s).axis = s.axis := rfl
@[simp] theorem State.pause_hat (u : Nat) : (State.pause u s).hat = s.hat := rfl
@[simp] theorem State.pause_buttons (u : Nat) : (State.pause u s).buttons = s.buttons := rfl
@[simp] theorem State.pause_valid (u : Nat) : (State.pause u s).valid = s.valid := rfl
@[simp] theorem State.pause_errcnt (u : Nat) : (State.pause u s).errcnt = s.errcnt := rfl
@[simp] theorem State.pause_lasterr (u : Nat) : (State.pause u s).lasterr = s.lasterr := rfl
@[simp] theorem State.pause_ok (u : Nat) : (State.pause u s).ok = s.ok := rfl
@[simp] theorem State.pause_ill (u : Nat) : (State.pause u s).ill = s.ill := rfl
@[simp] theorem State.pause_redet (u : Nat) : (State.pause u s).redet = s.redet := rfl
@[simp] theorem State.pause_ferr (u : Nat) : (State.pause u s).ferr = s.ferr := rfl
@[simp] theorem State.pause_result (u : Nat) : (State.pause u s).result = s.result := rfl
@[simp] theorem State.pause_idval (u : Nat) : (State.pause u s).idval = s.idval := rfl
@[simp] theorem State.pause_tmo (u : Nat) : (State.pause u s).tmo = s.tmo := rfl
@[simp] theorem State.pause_seq (u : Nat) : (State.pause u s).seq = s.seq := rfl
@[simp] theorem State.pause_hid (u : Nat) : (State.pause u s).hid = s.hid := rfl
@[simp] theorem State.pause_evt (u : Nat) : (State.pause u s).evt = s.evt ++ [.delay u] := rfl
@[simp] theorem State.pause_feed (u : Nat) : (State.pause u s).feed = s.feed := rfl
@[simp] theorem State.pause_draws (u : Nat) : (State.pause u s).draws = s.draws := rfl
@[simp] theorem State.pause_cmds (u : Nat) : (State.pause u s).cmds = s.cmds := rfl
@[simp] theorem State.pause_rst (u : Nat) : (State.pause u s).rst = s.rst := rfl

@[simp] theorem State.writeSlot_trig (i : Nat) (v : Slot) : (State.writeSlot i v s).trig = s.trig := rfl
@[simp] theorem State.writeSlot_crit (i : Nat) (v : Slot) : (State.writeSlot i v s).crit = s.crit := rfl
@[simp] theorem State.writeSlot_lastin (i : Nat) (v : Slot) : (State.writeSlot i v s).lastin = s.lastin := rfl
@[simp] theorem State.writeSlot_pkt (i : Nat) (v : Slot) : (State.writeSlot i v s).pkt = Memory.write s.pkt i v := rfl
@[simp] theorem State.writeSlot_pktlen (i : Nat) (v : Slot) : (State.writeSlot i v s).pktlen = s.pktlen := rfl
@[simp] theorem State.writeSlot_model (i : Nat) (v : Slot) : (State.writeSlot i v s).model = s.model := rfl
@[simp] theorem State.writeSlot_axis (i : Nat) (v : Slot) : (State.writeSlot i v s).axis = s.axis := rfl
@[simp] theorem State.writeSlot_hat (i : Nat) (v : Slot) : (State.writeSlot i v s).hat = s.hat := rfl
@[simp] theorem State.writeSlot_buttons (i : Nat) (v : Slot) : (State.writeSlot i v s).buttons = s.buttons := rfl
@[simp] theorem State.writeSlot_valid (i : Nat) (v : Slot) : (State.writeSlot i v s).valid = s.valid := rfl
@[simp] theorem State.writeSlot_errcnt (i : Nat) (v : Slot) : (State.writeSlot i v s).errcnt = s.errcnt := rfl
@[simp] theorem State.writeSlot_lasterr (i : Nat) (v : Slot) : (State.writeSlot i v s).lasterr = s.lasterr := rfl
@[simp] theorem State.writeSlot_ok (i : Nat) (v : Slot) : (State.writeSlot i v s).ok = s.ok := rfl
@[simp] theorem State.writeSlot_ill (i : Nat) (v : Slot) : (State.writeSlot i v s).ill = s.ill := rfl
@[simp] theorem State.writeSlot_redet (i : Nat) (v : Slot) : (State.writeSlot i v s).redet = s.redet := rfl
@[simp] theorem State.writeSlot_ferr (i : Nat) (v : Slot) : (State.writeSlot i v s).ferr = s.ferr := rfl
@[simp] theorem State.writeSlot_result (i : Nat) (v : Slot) : (State.writeSlot i v s).result = s.result := rfl
@[simp] theorem State.writeSlot_idval (i : Nat) (v : Slot) : (State.writeSlot i v s).idval = s.idval := rfl
@[simp] theorem State.writeSlot_tmo (i : Nat) (v : Slot) : (State.writeSlot i v s).tmo = s.tmo := rfl
@[simp] theorem State.writeSlot_seq (i : Nat) (v : Slot) : (State.writeSlot i v s).seq = s.seq := rfl
@[simp] theorem State.writeSlot_hid (i : Nat) (v : Slot) : (State.writeSlot i v s).hid = s.hid := rfl
@[simp] theorem State.writeSlot_evt (i : Nat) (v : Slot) : (State.writeSlot i v s).evt = s.evt := rfl
@[simp] theorem State.writeSlot_feed (i : Nat) (v : Slot) : (State.writeSlot i v s).feed = s.feed := rfl
@[simp] theorem State.writeSlot_draws (i : Nat) (v : Slot) : (State.writeSlot i v s).draws = s.draws := rfl
@[simp] theorem State.writeSlot_cmds (i : Nat) (v : Slot) : (State.writeSlot i v s).cmds = s.cmds := rfl
@[simp] theorem State.writeSlot_rst (i : Nat) (v : Slot) : (State.writeSlot i v s).rst = s.rst := rfl

@[simp] theorem State.appendSlot_trig (v : Slot) : (State.appendSlot v s).trig = s.trig := rfl
@[simp] theorem State.appendSlot_crit (v : Slot) : (State.appendSlot v s).crit = s.crit := rfl
@[simp] theorem State.appendSlot_lastin (v : Slot) : (State.appendSlot v s).lastin = s.lastin := rfl
@[simp] theorem State.appendSlot_pkt (v : Slot) : (State.appendSlot v s).pkt = Memory.write s.pkt s.pktlen.toNat v := rfl
@[simp] theorem State.appendSlot_pktlen (v : Slot) : (State.appendSlot v s).pktlen = s.pktlen + 1 := rfl
@[simp] theorem State.appendSlot_model (v : Slot) : (State.appendSlot v s).model = s.model := rfl
@[simp] theorem State.appendSlot_axis (v : Slot) : (State.appendSlot v s).axis = s.axis := rfl
@[simp] theorem State.appendSlot_hat (v : Slot) : (State.appendSlot v s).hat = s.hat := rfl
@[simp] theorem State.appendSlot_buttons (v : Slot) : (State.appendSlot v s).buttons = s.buttons := rfl
@[simp] theorem State.appendSlot_valid (v : Slot) : (State.appendSlot v s).valid = s.valid := rfl
@[simp] theorem State.appendSlot_errcnt (v : Slot) : (State.appendSlot v s).errcnt = s.errcnt := rfl
@[simp] theorem State.appendSlot_lasterr (v : Slot) : (State.appendSlot v s).lasterr = s.lasterr := rfl
@[simp] theorem State.appendSlot_ok (v : Slot) : (State.appendSlot v s).ok = s.ok := rfl
@[simp] theorem State.appendSlot_ill (v : Slot) : (State.appendSlot v s).ill = s.ill := rfl
@[simp] theorem State.appendSlot_redet (v : Slot) : (State.appendSlot v s).redet = s.redet := rfl
@[simp] theorem State.appendSlot_ferr (v : Slot) : (State.appendSlot v s).ferr = s.ferr := rfl
@[simp] theorem State.appendSlot_result (v : Slot) : (State.appendSlot v s).result = s.result := rfl
@[simp] theorem State.appendSlot_idval (v : Slot) : (State.appendSlot v s).idval = s.idval := rfl
@[simp] theorem State.appendSlot_tmo (v : Slot) : (State.appendSlot v s).tmo = s.tmo := rfl
@[simp] theorem State.appendSlot_seq (v : Slot) : (State.appendSlot v s).seq = s.seq := rfl
@[simp] theorem State.appendSlot_hid (v : Slot) : (State.appendSlot v s).hid = s.hid := rfl
@[simp] theorem State.appendSlot_evt (v : Slot) : (State.appendSlot v s).evt = s.evt := rfl
@[simp] theorem State.appendSlot_feed (v : Slot) : (State.appendSlot v s).feed = s.feed := rfl
@[simp] theorem State.appendSlot_draws (v : Slot) : (State.appendSlot v s).draws = s.draws := rfl
@[simp] theorem State.appendSlot_cmds (v : Slot) : (State.appendSlot v s).cmds = s.cmds := rfl
@[simp] theorem State.appendSlot_rst (v : Slot) : (State.appendSlot v s).rst = s.rst := rfl

@[simp] theorem State.fresh_trig : (State.fresh s).trig = s.trig := rfl
@[simp] theorem State.fresh_crit : (State.fresh s).crit = s.crit := rfl
@[simp] theorem State.fresh_lastin : (State.fresh s).lastin = s.lastin := rfl
@[simp] theorem State.fresh_pkt : (State.fresh s).pkt = [] := rfl
@[simp] theorem State.fresh_pktlen : (State.fresh s).pktlen = 0 := rfl
@[simp] theorem State.fresh_model : (State.fresh s).model = s.model := rfl
@[simp] theorem State.fresh_axis : (State.fresh s).axis = s.axis := rfl
@[simp] theorem State.fresh_hat : (State.fresh s).hat = s.hat := rfl
@[simp] theorem State.fresh_buttons : (State.fresh s).buttons = s.buttons := rfl
@[simp] theorem State.fresh_valid : (State.fresh s).valid = s.valid := rfl
@[simp] theorem State.fresh_errcnt : (State.fresh s).errcnt = s.errcnt := rfl
@[simp] theorem State.fresh_lasterr : (State.fresh s).lasterr = s.lasterr := rfl
@[simp] theorem State.fresh_ok : (State.fresh s).ok = s.ok := rfl
@[simp] theorem State.fresh_ill : (State.fresh s).ill = s.ill := rfl
@[simp] theorem State.fresh_redet : (State.fresh s).redet = s.redet := rfl
@[simp] theorem State.fresh_ferr : (State.fresh s).ferr = false := rfl
@[simp] theorem State.fresh_result : (State.fresh s).result = s.result := rfl
@[simp] theorem State.fresh_idval : (State.fresh s).idval = s.idval := rfl
@[simp] theorem State.fresh_tmo : (State.fresh s).tmo = s.tmo := rfl
@[simp] theorem State.fresh_seq : (State.fresh s).seq = s.seq := rfl
@[simp] theorem State.fresh_hid : (State.fresh s).hid = s.hid := rfl
@[simp] theorem State.fresh_evt : (State.fresh s).evt = s.evt := rfl
@[simp] theorem State.fresh_feed : (State.fresh s).feed = s.feed := rfl
@[simp] theorem State.fresh_draws : (State.fresh s).draws = s.draws := rfl
@[simp] theorem State.fresh_cmds : (State.fresh s).cmds = s.cmds := rfl
@[simp] theorem State.fresh_rst : (State.fresh s).rst = s.rst := rfl

@[simp] theorem State.setTmo_trig (v : Timeout) : (State.setTmo v s).trig = s.trig := rfl
@[simp] theorem State.setTmo_crit (v : Timeout) : (State.setTmo v s).crit = s.crit := rfl
@[simp] theorem State.setTmo_lastin (v : Timeout) : (State.setTmo v s).lastin = s.lastin := rfl
@[simp] theorem State.setTmo_pkt (v : Timeout) : (State.setTmo v s).pkt = s.pkt := rfl
@[simp] theorem State.setTmo_pktlen (v : Timeout) : (State.setTmo v s).pktlen = s.pktlen := rfl
@[simp] theorem State.setTmo_model (v : Timeout) : (State.setTmo v s).model = s.model := rfl
@[simp] theorem State.setTmo_axis (v : Timeout) : (State.setTmo v s).axis = s.axis := rfl
@[simp] theorem State.setTmo_hat (v : Timeout) : (State.setTmo v s).hat = s.hat := rfl
@[simp] theorem State.setTmo_buttons (v : Timeout) : (State.setTmo v s).buttons = s.buttons := rfl
@[simp] theorem State.setTmo_valid (v : Timeout) : (State.setTmo v s).valid = s.valid := rfl
@[simp] theorem State.setTmo_errcnt (v : Timeout) : (State.setTmo v s).errcnt = s.errcnt := rfl
@[simp] theorem State.setTmo_lasterr (v : Timeout) : (State.setTmo v s).lasterr = s.lasterr := rfl
@[simp] theorem State.setTmo_ok (v : Timeout) : (State.setTmo v s).ok = s.ok := rfl
@[simp] theorem State.setTmo_ill (v : Timeout) : (State.setTmo v s).ill = s.ill := rfl
@[simp] theorem State.setTmo_redet (v : Timeout) : (State.setTmo v s).redet = s.redet := rfl
@[simp] theorem State.setTmo_ferr (v : Timeout) : (State.setTmo v s).ferr = s.ferr := rfl
@[simp] theorem State.setTmo_result (v : Timeout) : (State.setTmo v s).result = s.result := rfl
@[simp] theorem State.setTmo_idval (v : Timeout) : (State.setTmo v s).idval = s.idval := rfl
@[simp] theorem State.setTmo_tmo (v : Timeout) : (State.setTmo v s).tmo = v := rfl
@[simp] theorem State.setTmo_seq (v : Timeout) : (State.setTmo v s).seq = s.seq := rfl
@[simp] theorem State.setTmo_hid (v : Timeout) : (State.setTmo v s).hid = s.hid := rfl
@[simp] theorem State.setTmo_evt (v : Timeout) : (State.setTmo v s).evt = s.evt := rfl
@[simp] theorem State.setTmo_feed (v : Timeout) : (State.setTmo v s).feed = s.feed := rfl
@[simp] theorem State.setTmo_draws (v : Timeout) : (State.setTmo v s).draws = s.draws := rfl
@[simp] theorem State.setTmo_cmds (v : Timeout) : (State.setTmo v s).cmds = s.cmds := rfl
@[simp] theorem State.setTmo_rst (v : Timeout) : (State.setTmo v s).rst = s.rst := rfl

@[simp] theorem State.setLast_trig (b : Bool) : (State.setLast b s).trig = s.trig := rfl
@[simp] theorem State.setLast_crit (b : Bool) : (State.setLast b s).crit = s.crit := rfl
@[simp] theorem State.setLast_lastin (b : Bool) : (State.setLast b s).lastin = s.lastin := rfl
@[simp] theorem State.setLast_pkt (b : Bool) : (State.setLast b s).pkt = s.pkt := rfl
@[simp] theorem State.setLast_pktlen (b : Bool) : (State.setLast b s).pktlen = s.pktlen := rfl
@[simp] theorem State.setLast_model (b : Bool) : (State.setLast b s).model = s.model := rfl
@[simp] theorem State.setLast_axis (b : Bool) : (State.setLast b s).axis = s.axis := rfl
@[simp] theorem State.setLast_hat (b : Bool) : (State.setLast b s).hat = s.hat := rfl
@[simp] theorem State.setLast_buttons (b : Bool) : (State.setLast b s).buttons = s.buttons := rfl
@[simp] theorem State.setLast_valid (b : Bool) : (State.setLast b s).valid = s.valid := rfl
@[simp] theorem State.setLast_errcnt (b : Bool) : (State.setLast b s).errcnt = s.errcnt := rfl
@[simp] theorem State.setLast_lasterr (b : Bool) : (State.setLast b s).lasterr = s.lasterr := rfl
@[simp] theorem State.setLast_ok (b : Bool) : (State.setLast b s).ok = s.ok := rfl
@[simp] theorem State.setLast_ill (b : Bool) : (State.setLast b s).ill = s.ill := rfl
@[simp] theorem State.setLast_redet (b : Bool) : (State.setLast b s).redet = s.redet := rfl
@[simp] theorem State.setLast_ferr (b : Bool) : (State.setLast b s).ferr = s.ferr := rfl
@[simp] theorem State.setLast_result (b : Bool) : (State.setLast b s).result = s.result := rfl
@[simp] theorem State.setLast_idval (b : Bool) : (State.setLast b s).idval = s.idval := rfl
@[simp] theorem State.setLast_tmo (b : Bool) : (State.setLast b s).tmo = s.tmo := rfl
@[simp] theorem State.setLast_seq (b : Bool) : (State.setLast b s).seq = s.seq := rfl
@[simp] theorem State.setLast_hid (b : Bool) : (State.setLast b s).hid = { s.hid with last := b } := rfl
@[simp] theorem State.setLast_evt (b : Bool) : (State.setLast b s).evt = s.evt := rfl
@[simp] theorem State.setLast_feed (b : Bool) : (State.setLast b s).feed = s.feed := rfl
@[simp] theorem State.setLast_draws (b : Bool) : (State.setLast b s).draws = s.draws := rfl
@[simp] theorem State.setLast_cmds (b : Bool) : (State.setLast b s).cmds = s.cmds := rfl
@[simp] theorem State.setLast_rst (b : Bool) : (State.setLast b s).rst = s.rst := rfl

@[simp] theorem State.setResult_trig (v : BitVec 16) : (State.setResult v s).trig = s.trig := rfl
@[simp] theorem State.setResult_crit (v : BitVec 16) : (State.setResult v s).crit = s.crit := rfl
@[simp] theorem State.setResult_lastin (v : BitVec 16) : (State.setResult v s).lastin = s.lastin := rfl
@[simp] theorem State.setResult_pkt (v : BitVec 16) : (State.setResult v s).pkt = s.pkt := rfl
@[simp] theorem State.setResult_pktlen (v : BitVec 16) : (State.setResult v s).pktlen = s.pktlen := rfl
@[simp] theorem State.setResult_model (v : BitVec 16) : (State.setResult v s).model = s.model := rfl
@[simp] theorem State.setResult_axis (v : BitVec 16) : (State.setResult v s).axis = s.axis := rfl
@[simp] theorem State.setResult_hat (v : BitVec 16) : (State.setResult v s).hat = s.hat := rfl
@[simp] theorem State.setResult_buttons (v : BitVec 16) : (State.setResult v s).buttons = s.buttons := rfl
@[simp] theorem State.setResult_valid (v : BitVec 16) : (State.setResult v s).valid = s.valid := rfl
@[simp] theorem State.setResult_errcnt (v : BitVec 16) : (State.setResult v s).errcnt = s.errcnt := rfl
@[simp] theorem State.setResult_lasterr (v : BitVec 16) : (State.setResult v s).lasterr = s.lasterr := rfl
@[simp] theorem State.setResult_ok (v : BitVec 16) : (State.setResult v s).ok = s.ok := rfl
@[simp] theorem State.setResult_ill (v : BitVec 16) : (State.setResult v s).ill = s.ill := rfl
@[simp] theorem State.setResult_redet (v : BitVec 16) : (State.setResult v s).redet = s.redet := rfl
@[simp] theorem State.setResult_ferr (v : BitVec 16) : (State.setResult v s).ferr = s.ferr := rfl
@[simp] theorem State.setResult_result (v : BitVec 16) : (State.setResult v s).result = v := rfl
@[simp] theorem State.setResult_idval (v : BitVec 16) : (State.setResult v s).idval = s.idval := rfl
@[simp] theorem State.setResult_tmo (v : BitVec 16) : (State.setResult v s).tmo = s.tmo := rfl
@[simp] theorem State.setResult_seq (v : BitVec 16) : (State.setResult v s).seq = s.seq := rfl
@[simp] theorem State.setResult_hid (v : BitVec 16) : (State.setResult v s).hid = s.hid := rfl
@[simp] theorem State.setResult_evt (v : BitVec 16) : (State.setResult v s).evt = s.evt := rfl
@[simp] theorem State.setResult_feed (v : BitVec 16) : (State.setResult v s).feed = s.feed := rfl
@[simp] theorem State.setResult_draws (v : BitVec 16) : (State.setResult v s).draws = s.draws := rfl
@[simp] theorem State.setResult_cmds (v : BitVec 16) : (State.setResult v s).cmds = s.cmds := rfl
@[simp] theorem State.setResult_rst (v : BitVec 16) : (State.setResult v s).rst = s.rst := rfl

@[simp] theorem State.complete_trig (e : ErrKind) : (State.complete e s).trig = s.trig := rfl
@[simp] theorem State.complete_crit (e : ErrKind) : (State.complete e s).crit = s.crit := rfl
@[simp] theorem State.complete_lastin (e : ErrKind) : (State.complete e s).lastin = s.lastin := rfl
@[simp] theorem State.complete_pkt (e : ErrKind) : (State.complete e s).pkt = s.pkt := rfl
@[simp] theorem State.complete_pktlen (e : ErrKind) : (State.complete e s).pktlen = s.pktlen := rfl
@[simp] theorem State.complete_model (e : ErrKind) : (State.complete e s).model = s.model := rfl
@[simp] theorem State.complete_axis (e : ErrKind) : (State.complete e s).axis = s.axis := rfl
@[simp] theorem State.complete_hat (e : ErrKind) : (State.complete e s).hat = s.hat := rfl
@[simp] theorem State.complete_buttons (e : ErrKind) : (State.complete e s).buttons = s.buttons := rfl
@[simp] theorem State.complete_valid (e : ErrKind) : (State.complete e s).valid = s.valid := rfl
@[simp] theorem State.complete_errcnt (e : ErrKind) : (State.complete e s).errcnt = s.errcnt := rfl
@[simp] theorem State.complete_lasterr (e : ErrKind) : (State.complete e s).lasterr = e := rfl
@[simp] theorem State.complete_ok (e : ErrKind) : (State.complete e s).ok = decide (e = .noError) := rfl
@[simp] theorem State.complete_ill (e : ErrKind) : (State.complete e s).ill = false := rfl
@[simp] theorem State.complete_redet (e : ErrKind) : (State.complete e s).redet = false := rfl
@[simp] theorem State.complete_ferr (e : ErrKind) : (State.complete e s).ferr = s.ferr := rfl
@[simp] theorem State.complete_result (e : ErrKind) : (State.complete e s).result = s.result := rfl
@[simp] theorem State.complete_idval (e : ErrKind) : (State.complete e s).idval = s.idval := rfl
@[simp] theorem State.complete_tmo (e : ErrKind) : (State.complete e s).tmo = s.tmo := rfl
@[simp] theorem State.complete_seq (e : ErrKind) : (State.complete e s).seq = s.seq := rfl
@[simp] theorem State.complete_hid (e : ErrKind) : (State.complete e s).hid = s.hid := rfl
@[simp] theorem State.complete_evt (e : ErrKind) : (State.complete e s).evt = s.evt := rfl
@[simp] theorem State.complete_feed (e : ErrKind) : (State.complete e s).feed = s.feed := rfl
@[simp] theorem State.complete_draws (e : ErrKind) : (State.complete e s).draws = s.draws := rfl
@[simp] theorem State.complete_cmds (e : ErrKind) : (State.complete e s).cmds = s.cmds := rfl
@[simp] theorem State.complete_rst (e : ErrKind) : (State.complete e s).rst = s.rst := rfl

@[simp] theorem State.raise_trig (e : ErrKind) : (State.raise e s).trig = s.trig := rfl
@[simp] theorem State.raise_crit (e : ErrKind) : (State.raise e s).crit = s.crit := rfl
@[simp] theorem State.raise_lastin (e : ErrKind) : (State.raise e s).lastin = s.lastin := rfl
@[simp] theorem State.raise_pkt (e : ErrKind) : (State.raise e s).pkt = s.pkt := rfl
@[simp] theorem State.raise_pktlen (e : ErrKind) : (State.raise e s).pktlen = s.pktlen := rfl
@[simp] theorem State.raise_model (e : ErrKind) : (State.raise e s).model = s.model := rfl
@[simp] theorem State.raise_axis (e : ErrKind) : (State.raise e s).axis = s.axis := rfl
@[simp] theorem State.raise_hat (e : ErrKind) : (State.raise e s).hat = s.hat := rfl
@[simp] theorem State.raise_buttons (e : ErrKind) : (State.raise e s).buttons = s.buttons := rfl
@[simp] theorem State.raise_valid (e : ErrKind) : (State.raise e s).valid = s.valid := rfl
@[simp] theorem State.raise_errcnt (e : ErrKind) : (State.raise e s).errcnt = s.errcnt := rfl
@[simp] theorem State.raise_lasterr (e : ErrKind) : (State.raise e s).lasterr = e := rfl
@[simp] theorem State.raise_ok (e : ErrKind) : (State.raise e s).ok = false := rfl
@[simp] theorem State.raise_ill (e : ErrKind) : (State.raise e s).ill = s.ill := rfl
@[simp] theorem State.raise_redet (e : ErrKind) : (State.raise e s).redet = s.redet := rfl
@[simp] theorem State.raise_ferr (e : ErrKind) : (State.raise e s).ferr = s.ferr := rfl
@[simp] theorem State.raise_result (e : ErrKind) : (State.raise e s).result = s.result := rfl
@[simp] theorem State.raise_idval (e : ErrKind) : (State.raise e s).idval = s.idval := rfl
@[simp] theorem State.raise_tmo (e : ErrKind) : (State.raise e s).tmo = s.tmo := rfl
@[simp] theorem State.raise_seq (e : ErrKind) : (State.raise e s).seq = s.seq := rfl
@[simp] theorem State.raise_hid (e : ErrKind) : (State.raise e s).hid = s.hid := rfl
@[simp] theorem State.raise_evt (e : ErrKind) : (State.raise e s).evt = s.evt := rfl
@[simp] theorem State.raise_feed (e : ErrKind) : (State.raise e s).feed = s.feed := rfl
@[simp] theorem State.raise_draws (e : ErrKind) : (State.raise e s).draws = s.draws := rfl
@[simp] theorem State.raise_cmds (e : ErrKind) : (State.raise e s).cmds = s.cmds := rfl
@[simp] theorem State.raise_rst (e : ErrKind) : (State.raise e s).rst = s.rst := rfl

@[simp] theorem State.refuseIllegal_trig : (State.refuseIllegal s).trig = s.trig := rfl
@[simp] theorem State.refuseIllegal_crit : (State.refuseIllegal s).crit = s.crit := rfl
@[simp] theorem State.refuseIllegal_lastin : (State.refuseIllegal s).lastin = s.lastin := rfl
@[simp] theorem State.refuseIllegal_pkt : (State.refuseIllegal s).pkt = s.pkt := rfl
@[simp] theorem State.refuseIllegal_pktlen : (State.refuseIllegal s).pktlen = s.pktlen := rfl
@[simp] theorem State.refuseIllegal_model : (State.refuseIllegal s).model = s.model := rfl
@[simp] theorem State.refuseIllegal_axis : (State.refuseIllegal s).axis = s.axis := rfl
@[simp] theorem State.refuseIllegal_hat : (State.refuseIllegal s).hat = s.hat := rfl
@[simp] theorem State.refuseIllegal_buttons : (State.refuseIllegal s).buttons = s.buttons := rfl
@[simp] theorem State.refuseIllegal_valid : (State.refuseIllegal s).valid = s.valid := rfl
@[simp] theorem State.refuseIllegal_errcnt : (State.refuseIllegal s).errcnt = s.errcnt := rfl
@[simp] theorem State.refuseIllegal_lasterr : (State.refuseIllegal s).lasterr = .illegalCommand := rfl
@[simp] theorem State.refuseIllegal_ok : (State.refuseIllegal s).ok = false := rfl
@[simp] theorem State.refuseIllegal_ill : (State.refuseIllegal s).ill = true := rfl
@[simp] theorem State.refuseIllegal_redet : (State.refuseIllegal s).redet = false := rfl
@[simp] theorem State.refuseIllegal_ferr : (State.refuseIllegal s).ferr = s.ferr := rfl
@[simp] theorem State.refuseIllegal_result : (State.refuseIllegal s).result = s.result := rfl
@[simp] theorem State.refuseIllegal_idval : (State.refuseIllegal s).idval = s.idval := rfl
@[simp] theorem State.refuseIllegal_tmo : (State.refuseIllegal s).tmo = s.tmo := rfl
@[simp] theorem State.refuseIllegal_seq : (State.refuseIllegal s).seq = s.seq := rfl
@[simp] theorem State.refuseIllegal_hid : (State.refuseIllegal s).hid = s.hid := rfl
@[simp] theorem State.refuseIllegal_evt : (State.refuseIllegal s).evt = s.evt := rfl
@[simp] theorem State.refuseIllegal_feed : (State.refuseIllegal s).feed = s.feed := rfl
@[simp] theorem State.refuseIllegal_draws : (State.refuseIllegal s).draws = s.draws := rfl
@[simp] theorem State.refuseIllegal_cmds : (State.refuseIllegal s).cmds = s.cmds := rfl
@[simp] theorem State.refuseIllegal_rst : (State.refuseIllegal s).rst = s.rst := rfl

@[simp] theorem State.enterInit_trig : (State.enterInit s).trig = s.trig := rfl
@[simp] theorem State.enterInit_crit : (State.enterInit s).crit = s.crit := rfl
@[simp] theorem State.enterInit_lastin : (State.enterInit s).lastin = s.lastin := rfl
@[simp] theorem State.enterInit_pkt : (State.enterInit s).pkt = s.pkt := rfl
@[simp] theorem State.enterInit_pktlen : (State.enterInit s).pktlen = s.pktlen := rfl
@[simp] theorem State.enterInit_model : (State.enterInit s).model = s.model := rfl
@[simp] theorem State.enterInit_axis : (State.enterInit s).axis = s.axis := rfl
@[simp] theorem State.enterInit_hat : (State.enterInit s).hat = s.hat := rfl
@[simp] theorem State.enterInit_buttons : (State.enterInit s).buttons = s.buttons := rfl
@[simp] theorem State.enterInit_valid : (State.enterInit s).valid = s.valid := rfl
@[simp] theorem State.enterInit_errcnt : (State.enterInit s).errcnt = 0 := rfl
@[simp] theorem State.enterInit_lasterr : (State.enterInit s).lasterr = s.lasterr := rfl
@[simp] theorem State.enterInit_ok : (State.enterInit s).ok = s.ok := rfl
@[simp] theorem State.enterInit_ill : (State.enterInit s).ill = s.ill := rfl
@[simp] theorem State.enterInit_redet : (State.enterInit s).redet = s.redet := rfl
@[simp] theorem State.enterInit_ferr : (State.enterInit s).ferr = s.ferr := rfl
@[simp] theorem State.enterInit_result : (State.enterInit s).result = s.result := rfl
@[simp] theorem State.enterInit_idval : (State.enterInit s).idval = s.idval := rfl
@[simp] theorem State.enterInit_tmo : (State.enterInit s).tmo = s.tmo := rfl
@[simp] theorem State.enterInit_seq : (State.enterInit s).seq = s.seq := rfl
@[simp] theorem State.enterInit_hid : (State.enterInit s).hid = s.hid := rfl
@[simp] theorem State.enterInit_evt : (State.enterInit s).evt = s.evt := rfl
@[simp] theorem State.enterInit_feed : (State.enterInit s).feed = s.feed := rfl
@[simp] theorem State.enterInit_draws : (State.enterInit s).draws = s.draws := rfl
@[simp] theorem State.enterInit_cmds : (State.enterInit s).cmds = s.cmds := rfl
@[simp] theorem State.enterInit_rst : (State.enterInit s).rst = s.rst := rfl

@[simp] theorem State.loopInit_trig (k : InitCaller) : (State.loopInit k s).trig = s.trig := rfl
@[simp] theorem State.loopInit_crit (k : InitCaller) : (State.loopInit k s).crit = s.crit := rfl
@[simp] theorem State.loopInit_lastin (k : InitCaller) : (State.loopInit k s).lastin = s.lastin := rfl
@[simp] theorem State.loopInit_pkt (k : InitCaller) : (State.loopInit k s).pkt = s.pkt := rfl
@[simp] theorem State.loopInit_pktlen (k : InitCaller) : (State.loopInit k s).pktlen = s.pktlen := rfl
@[simp] theorem State.loopInit_model (k : InitCaller) : (State.loopInit k s).model = s.model := rfl
@[simp] theorem State.loopInit_axis (k : InitCaller) : (State.loopInit k s).axis = s.axis := rfl
@[simp] theorem State.loopInit_hat (k : InitCaller) : (State.loopInit k s).hat = s.hat := rfl
@[simp] theorem State.loopInit_buttons (k : InitCaller) : (State.loopInit k s).buttons = s.buttons := rfl
@[simp] theorem State.loopInit_valid (k : InitCaller) : (State.loopInit k s).valid = s.valid := rfl
@[simp] theorem State.loopInit_errcnt (k : InitCaller) : (State.loopInit k s).errcnt = s.errcnt := rfl
@[simp] theorem State.loopInit_lasterr (k : InitCaller) : (State.loopInit k s).lasterr = s.lasterr := rfl
@[simp] theorem State.loopInit_ok (k : InitCaller) : (State.loopInit k s).ok = s.ok := rfl
@[simp] theorem State.loopInit_ill (k : InitCaller) : (State.loopInit k s).ill = s.ill := rfl
@[simp] theorem State.loopInit_redet (k : InitCaller) : (State.loopInit k s).redet = s.redet := rfl
@[simp] theorem State.loopInit_ferr (k : InitCaller) : (State.loopInit k s).ferr = s.ferr := rfl
@[simp] theorem State.loopInit_result (k : InitCaller) : (State.loopInit k s).result = s.result := rfl
@[simp] theorem State.loopInit_idval (k : InitCaller) : (State.loopInit k s).idval = s.idval := rfl
@[simp] theorem State.loopInit_tmo (k : InitCaller) : (State.loopInit k s).tmo = s.tmo := rfl
@[simp] theorem State.loopInit_seq (k : InitCaller) : (State.loopInit k s).seq = .initLoop k := rfl
@[simp] theorem State.loopInit_hid (k : InitCaller) : (State.loopInit k s).hid = s.hid := rfl
@[simp] theorem State.loopInit_evt (k : InitCaller) : (State.loopInit k s).evt = s.evt := rfl
@[simp] theorem State.loopInit_feed (k : InitCaller) : (State.loopInit k s).feed = s.feed := rfl
@[simp] theorem State.loopInit_draws (k : InitCaller) : (State.loopInit k s).draws = s.draws := rfl
@[simp] theorem State.loopInit_cmds (k : InitCaller) : (State.loopInit k s).cmds = s.cmds := rfl
@[simp] theorem State.loopInit_rst (k : InitCaller) : (State.loopInit k s).rst = s.rst := rfl

@[simp] theorem State.beginUpdate_trig : (State.beginUpdate s).trig = s.trig := rfl
@[simp] theorem State.beginUpdate_crit : (State.beginUpdate s).crit = s.crit := rfl
@[simp] theorem State.beginUpdate_lastin : (State.beginUpdate s).lastin = s.lastin := rfl
@[simp] theorem State.beginUpdate_pkt : (State.beginUpdate s).pkt = s.pkt := rfl
@[simp] theorem State.beginUpdate_pktlen : (State.beginUpdate s).pktlen = s.pktlen := rfl
@[simp] theorem State.beginUpdate_model : (State.beginUpdate s).model = s.model := rfl
@[simp] theorem State.beginUpdate_axis : (State.beginUpdate s).axis = s.axis := rfl
@[simp] theorem State.beginUpdate_hat : (State.beginUpdate s).hat = s.hat := rfl
@[simp] theorem State.beginUpdate_buttons : (State.beginUpdate s).buttons = s.buttons := rfl
@[simp] theorem State.beginUpdate_valid : (State.beginUpdate s).valid = s.valid := rfl
@[simp] theorem State.beginUpdate_errcnt : (State.beginUpdate s).errcnt = s.errcnt := rfl
@[simp] theorem State.beginUpdate_lasterr : (State.beginUpdate s).lasterr = s.lasterr := rfl
@[simp] theorem State.beginUpdate_ok : (State.beginUpdate s).ok = s.ok := rfl
@[simp] theorem State.beginUpdate_ill : (State.beginUpdate s).ill = false := rfl
@[simp] theorem State.beginUpdate_redet : (State.beginUpdate s).redet = false := rfl
@[simp] theorem State.beginUpdate_ferr : (State.beginUpdate s).ferr = s.ferr := rfl
@[simp] theorem State.beginUpdate_result : (State.beginUpdate s).result = s.result := rfl
@[simp] theorem State.beginUpdate_idval : (State.beginUpdate s).idval = s.idval := rfl
@[simp] theorem State.beginUpdate_tmo : (State.beginUpdate s).tmo = s.tmo := rfl
@[simp] theorem State.beginUpdate_seq : (State.beginUpdate s).seq = s.seq := rfl
@[simp] theorem State.beginUpdate_hid : (State.beginUpdate s).hid = s.hid := rfl
@[simp] theorem State.beginUpdate_evt : (State.beginUpdate s).evt = s.evt := rfl
@[simp] theorem State.beginUpdate_feed : (State.beginUpdate s).feed = s.feed := rfl
@[simp] theorem State.beginUpdate_draws : (State.beginUpdate s).draws = s.draws := rfl
@[simp] theorem State.beginUpdate_cmds : (State.beginUpdate s).cmds = s.cmds := rfl
@[simp] theorem State.beginUpdate_rst : (State.beginUpdate s).rst = s.rst := rfl

@[simp] theorem State.commit_trig (j : Joystick) : (State.commit j s).trig = s.trig := rfl
@[simp] theorem State.commit_crit (j : Joystick) : (State.commit j s).crit = s.crit := rfl
@[simp] theorem State.commit_lastin (j : Joystick) : (State.commit j s).lastin = s.lastin := rfl
@[simp] theorem State.commit_pkt (j : Joystick) : (State.commit j s).pkt = s.pkt := rfl
@[simp] theorem State.commit_pktlen (j : Joystick) : (State.commit j s).pktlen = s.pktlen := rfl
@[simp] theorem State.commit_model (j : Joystick) : (State.commit j s).model = s.model := rfl
@[simp] theorem State.commit_axis (j : Joystick) : (State.commit j s).axis = j.axis := rfl
@[simp] theorem State.commit_hat (j : Joystick) : (State.commit j s).hat = j.hat := rfl
@[simp] theorem State.commit_buttons (j : Joystick) : (State.commit j s).buttons = j.buttons := rfl
@[simp] theorem State.commit_valid (j : Joystick) : (State.commit j s).valid = true := rfl
@[simp] theorem State.commit_errcnt (j : Joystick) : (State.commit j s).errcnt = s.errcnt := rfl
@[simp] theorem State.commit_lasterr (j : Joystick) : (State.commit j s).lasterr = s.lasterr := rfl
@[simp] theorem State.commit_ok (j : Joystick) : (State.commit j s).ok = s.ok := rfl
@[simp] theorem State.commit_ill (j : Joystick) : (State.commit j s).ill = s.ill := rfl
@[simp] theorem State.commit_redet (j : Joystick) : (State.commit j s).redet = s.redet := rfl
@[simp] theorem State.commit_ferr (j : Joystick) : (State.commit j s).ferr = s.ferr := rfl
@[simp] theorem State.commit_result (j : Joystick) : (State.commit j s).result = s.result := rfl
@[simp] theorem State.commit_idval (j : Joystick) : (State.commit j s).idval = s.idval := rfl
@[simp] theorem State.commit_tmo (j : Joystick) : (State.commit j s).tmo = s.tmo := rfl
@[simp] theorem State.commit_seq (j : Joystick) : (State.commit j s).seq = s.seq := rfl
@[simp] theorem State.commit_hid (j : Joystick) : (State.commit j s).hid = s.hid := rfl
@[simp] theorem State.commit_evt (j : Joystick) : (State.commit j s).evt = s.evt := rfl
@[simp] theorem State.commit_feed (j : Joystick) : (State.commit j s).feed = s.feed := rfl
@[simp] theorem State.commit_draws (j : Joystick) : (State.commit j s).draws = s.draws := rfl
@[simp] theorem State.commit_cmds (j : Joystick) : (State.commit j s).cmds = s.cmds := rfl
@[simp] theorem State.commit_rst (j : Joystick) : (State.commit j s).rst = s.rst := rfl

@[simp] theorem State.startBytes_trig : (State.startBytes s).trig = s.trig := rfl
@[simp] theorem State.startBytes_crit : (State.startBytes s).crit = s.crit := rfl
@[simp] theorem State.startBytes_lastin : (State.startBytes s).lastin = s.lastin := rfl
@[simp] theorem State.startBytes_pkt : (State.startBytes s).pkt = s.pkt := rfl
@[simp] theorem State.startBytes_pktlen : (State.startBytes s).pktlen = s.pktlen := rfl
@[simp] theorem State.startBytes_model : (State.startBytes s).model = s.model := rfl
@[simp] theorem State.startBytes_axis : (State.startBytes s).axis = s.axis := rfl
@[simp] theorem State.startBytes_hat : (State.startBytes s).hat = s.hat := rfl
@[simp] theorem State.startBytes_buttons : (State.startBytes s).buttons = s.buttons := rfl
@[simp] theorem State.startBytes_valid : (State.startBytes s).valid = s.valid := rfl
@[simp] theorem State.startBytes_errcnt : (State.startBytes s).errcnt = s.errcnt := rfl
@[simp] theorem State.startBytes_lasterr : (State.startBytes s).lasterr = s.lasterr := rfl
@[simp] theorem State.startBytes_ok : (State.startBytes s).ok = s.ok := rfl
@[simp] theorem State.startBytes_ill : (State.startBytes s).ill = s.ill := rfl
@[simp] theorem State.startBytes_redet : (State.startBytes s).redet = s.redet := rfl
@[simp] theorem State.startBytes_ferr : (State.startBytes s).ferr = s.ferr := rfl
@[simp] theorem State.startBytes_result : (State.startBytes s).result = s.result := rfl
@[simp] theorem State.startBytes_idval : (State.startBytes s).idval = s.idval := rfl
@[simp] theorem State.startBytes_tmo : (State.startBytes s).tmo = s.tmo := rfl
@[simp] theorem State.startBytes_seq : (State.startBytes s).seq = s.seq := rfl
@[simp] theorem State.startBytes_hid : (State.startBytes s).hid = Hidden.dead := rfl
@[simp] theorem State.startBytes_evt : (State.startBytes s).evt = s.evt := rfl
@[simp] theorem State.startBytes_feed : (State.startBytes s).feed = s.feed := rfl
@[simp] theorem State.startBytes_draws : (State.startBytes s).draws = s.draws := rfl
@[simp] theorem State.startBytes_cmds : (State.startBytes s).cmds = s.cmds := rfl
@[simp] theorem State.startBytes_rst : (State.startBytes s).rst = s.rst := rfl

@[simp] theorem State.endAcquisition_trig : (State.endAcquisition s).trig = false := rfl
@[simp] theorem State.endAcquisition_crit : (State.endAcquisition s).crit = false := rfl
@[simp] theorem State.endAcquisition_lastin : (State.endAcquisition s).lastin = s.lastin := rfl
@[simp] theorem State.endAcquisition_pkt : (State.endAcquisition s).pkt = s.pkt := rfl
@[simp] theorem State.endAcquisition_pktlen : (State.endAcquisition s).pktlen = s.pktlen := rfl
@[simp] theorem State.endAcquisition_model : (State.endAcquisition s).model = s.model := rfl
@[simp] theorem State.endAcquisition_axis : (State.endAcquisition s).axis = s.axis := rfl
@[simp] theorem State.endAcquisition_hat : (State.endAcquisition s).hat = s.hat := rfl
@[simp] theorem State.endAcquisition_buttons : (State.endAcquisition s).buttons = s.buttons := rfl
@[simp] theorem State.endAcquisition_valid : (State.endAcquisition s).valid = s.valid := rfl
@[simp] theorem State.endAcquisition_errcnt : (State.endAcquisition s).errcnt = s.errcnt := rfl
@[simp] theorem State.endAcquisition_lasterr : (State.endAcquisition s).lasterr = s.lasterr := rfl
@[simp] theorem State.endAcquisition_ok : (State.endAcquisition s).ok = s.ok := rfl
@[simp] theorem State.endAcquisition_ill : (State.endAcquisition s).ill = s.ill := rfl
@[simp] theorem State.endAcquisition_redet : (State.endAcquisition s).redet = s.redet := rfl
@[simp] theorem State.endAcquisition_ferr : (State.endAcquisition s).ferr = s.ferr := rfl
@[simp] theorem State.endAcquisition_result : (State.endAcquisition s).result = s.result := rfl
@[simp] theorem State.endAcquisition_idval : (State.endAcquisition s).idval = s.idval := rfl
@[simp] theorem State.endAcquisition_tmo : (State.endAcquisition s).tmo = s.tmo := rfl
@[simp] theorem State.endAcquisition_seq : (State.endAcquisition s).seq = s.seq := rfl
@[simp] theorem State.endAcquisition_hid : (State.endAcquisition s).hid = s.hid := rfl
@[simp] theorem State.endAcquisition_evt : (State.endAcquisition s).evt = s.evt ++ [.trig false] ++ [.crit false] := rfl
@[simp] theorem State.endAcquisition_feed : (State.endAcquisition s).feed = s.feed := rfl
@[simp] theorem State.endAcquisition_draws : (State.endAcquisition s).draws = s.draws := rfl
@[simp] theorem State.endAcquisition_cmds : (State.endAcquisition s).cmds = s.cmds := rfl
@[simp] theorem State.endAcquisition_rst : (State.endAcquisition s).rst = s.rst := rfl

@[simp] theorem State.extractId_trig (c : Cfg) (n : Nat) : (State.extractId c n s).trig = s.trig := rfl
@[simp] theorem State.extractId_crit (c : Cfg) (n : Nat) : (State.extractId c n s).crit = s.crit := rfl
@[simp] theorem State.extractId_lastin (c : Cfg) (n : Nat) : (State.extractId c n s).lastin = s.lastin := rfl
@[simp] theorem State.extractId_pkt (c : Cfg) (n : Nat) : (State.extractId c n s).pkt = s.pkt := rfl
@[simp] theorem State.extractId_pktlen (c : Cfg) (n : Nat) : (State.extractId c n s).pktlen = s.pktlen := rfl
@[simp] theorem State.extractId_model (c : Cfg) (n : Nat) : (State.extractId c n s).model = s.model := rfl
@[simp] theorem State.extractId_axis (c : Cfg) (n : Nat) : (State.extractId c n s).axis = s.axis := rfl
@[simp] theorem State.extractId_hat (c : Cfg) (n : Nat) : (State.extractId c n s).hat = s.hat := rfl
@[simp] theorem State.extractId_buttons (c : Cfg) (n : Nat) : (State.extractId c n s).buttons = s.buttons := rfl
@[simp] theorem State.extractId_valid (c : Cfg) (n : Nat) : (State.extractId c n s).valid = s.valid := rfl
@[simp] theorem State.extractId_errcnt (c : Cfg) (n : Nat) : (State.extractId c n s).errcnt = s.errcnt := rfl
@[simp] theorem State.extractId_lasterr (c : Cfg) (n : Nat) : (State.extractId c n s).lasterr = s.lasterr := rfl
@[simp] theorem State.extractId_ok (c : Cfg) (n : Nat) : (State.extractId c n s).ok = s.ok := rfl
@[simp] theorem State.extractId_ill (c : Cfg) (n : Nat) : (State.extractId c n s).ill = s.ill := rfl
@[simp] theorem State.extractId_redet (c : Cfg) (n : Nat) : (State.extractId c n s).redet = s.redet := rfl
@[simp] theorem State.extractId_ferr (c : Cfg) (n : Nat) : (State.extractId c n s).ferr = s.ferr := rfl
@[simp] theorem State.extractId_result (c : Cfg) (n : Nat) : (State.extractId c n s).result = s.result := rfl
@[simp] theorem State.extractId_idval (c : Cfg) (n : Nat) : (State.extractId c n s).idval = c.idExtract s.pkt s.pktlen.toNat n := rfl
@[simp] theorem State.extractId_tmo (c : Cfg) (n : Nat) : (State.extractId c n s).tmo = s.tmo := rfl
@[simp] theorem State.extractId_seq (c : Cfg) (n : Nat) : (State.extractId c n s).seq = s.seq := rfl
@[simp] theorem State.extractId_hid (c : Cfg) (n : Nat) : (State.extractId c n s).hid = s.hid := rfl
@[simp] theorem State.extractId_evt (c : Cfg) (n : Nat) : (State.extractId c n s).evt = s.evt := rfl
@[simp] theorem State.extractId_feed (c : Cfg) (n : Nat) : (State.extractId c n s).feed = s.feed := rfl
@[simp] theorem State.extractId_draws (c : Cfg) (n : Nat) : (State.extractId c n s).draws = s.draws := rfl
@[simp] theorem State.extractId_cmds (c : Cfg) (n : Nat) : (State.extractId c n s).cmds = s.cmds := rfl
@[simp] theorem State.extractId_rst (c : Cfg) (n : Nat) : (State.extractId c n s).rst = s.rst := rfl

@[simp] theorem State.setLength_trig (n : BitVec 8) : (State.setLength n s).trig = s.trig := rfl
@[simp] theorem State.setLength_crit (n : BitVec 8) : (State.setLength n s).crit = s.crit := rfl
@[simp] theorem State.setLength_lastin (n : BitVec 8) : (State.setLength n s).lastin = s.lastin := rfl
@[simp] theorem State.setLength_pkt (n : BitVec 8) : (State.setLength n s).pkt = Memory.below s.pkt n.toNat := rfl
@[simp] theorem State.setLength_pktlen (n : BitVec 8) : (State.setLength n s).pktlen = n := rfl
@[simp] theorem State.setLength_model (n : BitVec 8) : (State.setLength n s).model = s.model := rfl
@[simp] theorem State.setLength_axis (n : BitVec 8) : (State.setLength n s).axis = s.axis := rfl
@[simp] theorem State.setLength_hat (n : BitVec 8) : (State.setLength n s).hat = s.hat := rfl
@[simp] theorem State.setLength_buttons (n : BitVec 8) : (State.setLength n s).buttons = s.buttons := rfl
@[simp] theorem State.setLength_valid (n : BitVec 8) : (State.setLength n s).valid = s.valid := rfl
@[simp] theorem State.setLength_errcnt (n : BitVec 8) : (State.setLength n s).errcnt = s.errcnt := rfl
@[simp] theorem State.setLength_lasterr (n : BitVec 8) : (State.setLength n s).lasterr = s.lasterr := rfl
@[simp] theorem State.setLength_ok (n : BitVec 8) : (State.setLength n s).ok = s.ok := rfl
@[simp] theorem State.setLength_ill (n : BitVec 8) : (State.setLength n s).ill = s.ill := rfl
@[simp] theorem State.setLength_redet (n : BitVec 8) : (State.setLength n s).redet = s.redet := rfl
@[simp] theorem State.setLength_ferr (n : BitVec 8) : (State.setLength n s).ferr = s.ferr := rfl
@[simp] theorem State.setLength_result (n : BitVec 8) : (State.setLength n s).result = s.result := rfl
@[simp] theorem State.setLength_idval (n : BitVec 8) : (State.setLength n s).idval = s.idval := rfl
@[simp] theorem State.setLength_tmo (n : BitVec 8) : (State.setLength n s).tmo = s.tmo := rfl
@[simp] theorem State.setLength_seq (n : BitVec 8) : (State.setLength n s).seq = s.seq := rfl
@[simp] theorem State.setLength_hid (n : BitVec 8) : (State.setLength n s).hid = s.hid := rfl
@[simp] theorem State.setLength_evt (n : BitVec 8) : (State.setLength n s).evt = s.evt := rfl
@[simp] theorem State.setLength_feed (n : BitVec 8) : (State.setLength n s).feed = s.feed := rfl
@[simp] theorem State.setLength_draws (n : BitVec 8) : (State.setLength n s).draws = s.draws := rfl
@[simp] theorem State.setLength_cmds (n : BitVec 8) : (State.setLength n s).cmds = s.cmds := rfl
@[simp] theorem State.setLength_rst (n : BitVec 8) : (State.setLength n s).rst = s.rst := rfl

@[simp] theorem State.accept_trig : (State.accept s).trig = s.trig := rfl
@[simp] theorem State.accept_crit : (State.accept s).crit = s.crit := rfl
@[simp] theorem State.accept_lastin : (State.accept s).lastin = s.lastin := rfl
@[simp] theorem State.accept_pkt : (State.accept s).pkt = s.pkt := rfl
@[simp] theorem State.accept_pktlen : (State.accept s).pktlen = s.pktlen := rfl
@[simp] theorem State.accept_model : (State.accept s).model = s.model := rfl
@[simp] theorem State.accept_axis : (State.accept s).axis = s.axis := rfl
@[simp] theorem State.accept_hat : (State.accept s).hat = s.hat := rfl
@[simp] theorem State.accept_buttons : (State.accept s).buttons = s.buttons := rfl
@[simp] theorem State.accept_valid : (State.accept s).valid = s.valid := rfl
@[simp] theorem State.accept_errcnt : (State.accept s).errcnt = s.errcnt := rfl
@[simp] theorem State.accept_lasterr : (State.accept s).lasterr = s.lasterr := rfl
@[simp] theorem State.accept_ok : (State.accept s).ok = s.ok := rfl
@[simp] theorem State.accept_ill : (State.accept s).ill = s.ill := rfl
@[simp] theorem State.accept_redet : (State.accept s).redet = s.redet := rfl
@[simp] theorem State.accept_ferr : (State.accept s).ferr = s.ferr := rfl
@[simp] theorem State.accept_result : (State.accept s).result = s.result := rfl
@[simp] theorem State.accept_idval : (State.accept s).idval = s.idval := rfl
@[simp] theorem State.accept_tmo : (State.accept s).tmo = s.tmo := rfl
@[simp] theorem State.accept_seq : (State.accept s).seq = s.seq := rfl
@[simp] theorem State.accept_hid : (State.accept s).hid = s.hid := rfl
@[simp] theorem State.accept_evt : (State.accept s).evt = s.evt := rfl
@[simp] theorem State.accept_feed : (State.accept s).feed = s.feed := rfl
@[simp] theorem State.accept_draws : (State.accept s).draws = s.draws := rfl
@[simp] theorem State.accept_cmds : (State.accept s).cmds = s.cmds.tail := rfl
@[simp] theorem State.accept_rst : (State.accept s).rst = s.rst := rfl

@[simp] theorem State.reportAcquisition_trig : (State.reportAcquisition s).trig = s.trig := rfl
@[simp] theorem State.reportAcquisition_crit : (State.reportAcquisition s).crit = s.crit := rfl
@[simp] theorem State.reportAcquisition_lastin : (State.reportAcquisition s).lastin = s.lastin := rfl
@[simp] theorem State.reportAcquisition_pkt : (State.reportAcquisition s).pkt = s.pkt := rfl
@[simp] theorem State.reportAcquisition_pktlen : (State.reportAcquisition s).pktlen = s.pktlen := rfl
@[simp] theorem State.reportAcquisition_model : (State.reportAcquisition s).model = s.model := rfl
@[simp] theorem State.reportAcquisition_axis : (State.reportAcquisition s).axis = s.axis := rfl
@[simp] theorem State.reportAcquisition_hat : (State.reportAcquisition s).hat = s.hat := rfl
@[simp] theorem State.reportAcquisition_buttons : (State.reportAcquisition s).buttons = s.buttons := rfl
@[simp] theorem State.reportAcquisition_valid : (State.reportAcquisition s).valid = s.valid := rfl
@[simp] theorem State.reportAcquisition_errcnt : (State.reportAcquisition s).errcnt = s.errcnt := rfl
@[simp] theorem State.reportAcquisition_lasterr : (State.reportAcquisition s).lasterr = acqKind s := rfl
@[simp] theorem State.reportAcquisition_ok : (State.reportAcquisition s).ok = decide (acqKind s = .noError) := rfl
@[simp] theorem State.reportAcquisition_ill : (State.reportAcquisition s).ill = false := rfl
@[simp] theorem State.reportAcquisition_redet : (State.reportAcquisition s).redet = false := rfl
@[simp] theorem State.reportAcquisition_ferr : (State.reportAcquisition s).ferr = s.ferr := rfl
@[simp] theorem State.reportAcquisition_result : (State.reportAcquisition s).result = s.pktlen.setWidth 16 := rfl
@[simp] theorem State.reportAcquisition_idval : (State.reportAcquisition s).idval = s.idval := rfl
@[simp] theorem State.reportAcquisition_tmo : (State.reportAcquisition s).tmo = s.tmo := rfl
@[simp] theorem State.reportAcquisition_seq : (State.reportAcquisition s).seq = s.seq := rfl
@[simp] theorem State.reportAcquisition_hid : (State.reportAcquisition s).hid = s.hid := rfl
@[simp] theorem State.reportAcquisition_evt : (State.reportAcquisition s).evt = s.evt := rfl
@[simp] theorem State.reportAcquisition_feed : (State.reportAcquisition s).feed = s.feed := rfl
@[simp] theorem State.reportAcquisition_draws : (State.reportAcquisition s).draws = s.draws := rfl
@[simp] theorem State.reportAcquisition_cmds : (State.reportAcquisition s).cmds = s.cmds := rfl
@[simp] theorem State.reportAcquisition_rst : (State.reportAcquisition s).rst = s.rst := rfl

@[simp] theorem coolDown_trig (c : Cfg) : (coolDown c s).trig = s.trig := rfl
@[simp] theorem coolDown_crit (c : Cfg) : (coolDown c s).crit = s.crit := rfl
@[simp] theorem coolDown_lastin (c : Cfg) : (coolDown c s).lastin = s.lastin := rfl
@[simp] theorem coolDown_pkt (c : Cfg) : (coolDown c s).pkt = s.pkt := rfl
@[simp] theorem coolDown_pktlen (c : Cfg) : (coolDown c s).pktlen = s.pktlen := rfl
@[simp] theorem coolDown_model (c : Cfg) : (coolDown c s).model = s.model := rfl
@[simp] theorem coolDown_axis (c : Cfg) : (coolDown c s).axis = s.axis := rfl
@[simp] theorem coolDown_hat (c : Cfg) : (coolDown c s).hat = s.hat := rfl
@[simp] theorem coolDown_buttons (c : Cfg) : (coolDown c s).buttons = s.buttons := rfl
@[simp] theorem coolDown_valid (c : Cfg) : (coolDown c s).valid = s.valid := rfl
@[simp] theorem coolDown_errcnt (c : Cfg) : (coolDown c s).errcnt = s.errcnt := rfl
@[simp] theorem coolDown_lasterr (c : Cfg) : (coolDown c s).lasterr = s.lasterr := rfl
@[simp] theorem coolDown_ok (c : Cfg) : (coolDown c s).ok = s.ok := rfl
@[simp] theorem coolDown_ill (c : Cfg) : (coolDown c s).ill = s.ill := rfl
@[simp] theorem coolDown_redet (c : Cfg) : (coolDown c s).redet = s.redet := rfl
@[simp] theorem coolDown_ferr (c : Cfg) : (coolDown c s).ferr = s.ferr := rfl
@[simp] theorem coolDown_result (c : Cfg) : (coolDown c s).result = s.result := rfl
@[simp] theorem coolDown_idval (c : Cfg) : (coolDown c s).idval = s.idval := rfl
@[simp] theorem coolDown_tmo (c : Cfg) : (coolDown c s).tmo = s.tmo := rfl
@[simp] theorem coolDown_seq (c : Cfg) : (coolDown c s).seq = s.seq := rfl
@[simp] theorem coolDown_hid (c : Cfg) : (coolDown c s).hid = s.hid := rfl
@[simp] theorem coolDown_evt (c : Cfg) : (coolDown c s).evt = s.evt ++ [.delay c.cooldownUs] := rfl
@[simp] theorem coolDown_feed (c : Cfg) : (coolDown c s).feed = s.feed := rfl
@[simp] theorem coolDown_draws (c : Cfg) : (coolDown c s).draws = s.draws := rfl
@[simp] theorem coolDown_cmds (c : Cfg) : (coolDown c s).cmds = s.cmds := rfl
@[simp] theorem coolDown_rst (c : Cfg) : (coolDown c s).rst = s.rst := rfl

@[simp] theorem State.takeAnswer_trig : (State.takeAnswer s).trig = s.trig := by unfold State.takeAnswer; split <;> rfl
@[simp] theorem State.takeAnswer_crit : (State.takeAnswer s).crit = s.crit := by unfold State.takeAnswer; split <;> rfl
@[simp] theorem State.takeAnswer_lastin : (State.takeAnswer s).lastin = s.lastin := by unfold State.takeAnswer; split <;> rfl
@[simp] theorem State.takeAnswer_pkt : (State.takeAnswer s).pkt = s.pkt := by unfold State.takeAnswer; split <;> rfl
@[simp] theorem State.takeAnswer_pktlen : (State.takeAnswer s).pktlen = s.pktlen := by unfold State.takeAnswer; split <;> rfl
@[simp] theorem State.takeAnswer_model : (State.takeAnswer s).model = s.model := by unfold State.takeAnswer; split <;> rfl
@[simp] theorem State.takeAnswer_axis : (State.takeAnswer s).axis = s.axis := by unfold State.takeAnswer; split <;> rfl
@[simp] theorem State.takeAnswer_hat : (State.takeAnswer s).hat = s.hat := by unfold State.takeAnswer; split <;> rfl
@[simp] theorem State.takeAnswer_buttons : (State.takeAnswer s).buttons = s.buttons := by unfold State.takeAnswer; split <;> rfl
@[simp] theorem State.takeAnswer_valid : (State.takeAnswer s).valid = s.valid := by unfold State.takeAnswer; split <;> rfl
@[simp] theorem State.takeAnswer_errcnt : (State.takeAnswer s).errcnt = s.errcnt := by unfold State.takeAnswer; split <;> rfl
@[simp] theorem State.takeAnswer_lasterr : (State.takeAnswer s).lasterr = s.lasterr := by unfold State.takeAnswer; split <;> rfl
@[simp] theorem State.takeAnswer_ok : (State.takeAnswer s).ok = s.ok := by unfold State.takeAnswer; split <;> rfl
@[simp] theorem State.takeAnswer_ill : (State.takeAnswer s).ill = s.ill := by unfold State.takeAnswer; split <;> rfl
@[simp] theorem State.takeAnswer_redet : (State.takeAnswer s).redet = s.redet := by unfold State.takeAnswer; split <;> rfl
@[simp] theorem State.takeAnswer_ferr : (State.takeAnswer s).ferr = s.ferr := by unfold State.takeAnswer; split <;> rfl
@[simp] theorem State.takeAnswer_result : (State.takeAnswer s).result = s.result := by unfold State.takeAnswer; split <;> rfl
@[simp] theorem State.takeAnswer_idval : (State.takeAnswer s).idval = s.idval := by unfold State.takeAnswer; split <;> rfl
@[simp] theorem State.takeAnswer_tmo : (State.takeAnswer s).tmo = s.tmo := by unfold State.takeAnswer; split <;> rfl
@[simp] theorem State.takeAnswer_seq : (State.takeAnswer s).seq = s.seq := by unfold State.takeAnswer; split <;> rfl
@[simp] theorem State.takeAnswer_hid : (State.takeAnswer s).hid = s.hid := by unfold State.takeAnswer; split <;> rfl
@[simp] theorem State.takeAnswer_evt : (State.takeAnswer s).evt = s.evt := by unfold State.takeAnswer; split <;> rfl
@[simp] theorem State.takeAnswer_cmds : (State.takeAnswer s).cmds = s.cmds := by unfold State.takeAnswer; split <;> rfl
@[simp] theorem State.takeAnswer_rst : (State.takeAnswer s).rst = s.rst := by unfold State.takeAnswer; split <;> rfl

@[simp] theorem State.poll_trig : (State.poll s).trig = s.trig := State.takeAnswer_trig s
@[simp] theorem State.poll_crit : (State.poll s).crit = s.crit := State.takeAnswer_crit s
@[simp] theorem State.poll_lastin : (State.poll s).lastin = s.nextAnswer := rfl
@[simp] theorem State.poll_pkt : (State.poll s).pkt = s.pkt := State.takeAnswer_pkt s
@[simp] theorem State.poll_pktlen : (State.poll s).pktlen = s.pktlen := State.takeAnswer_pktlen s
@[simp] theorem State.poll_model : (State.poll s).model = s.model := State.takeAnswer_model s
@[simp] theorem State.poll_axis : (State.poll s).axis = s.axis := State.takeAnswer_axis s
@[simp] theorem State.poll_hat : (State.poll s).hat = s.hat := State.takeAnswer_hat s
@[simp] theorem State.poll_buttons : (State.poll s).buttons = s.buttons := State.takeAnswer_buttons s
@[simp] theorem State.poll_valid : (State.poll s).valid = s.valid := State.takeAnswer_valid s
@[simp] theorem State.poll_errcnt : (State.poll s).errcnt = s.errcnt := State.takeAnswer_errcnt s
@[simp] theorem State.poll_lasterr : (State.poll s).lasterr = s.lasterr := State.takeAnswer_lasterr s
@[simp] theorem State.poll_ok : (State.poll s).ok = s.ok := State.takeAnswer_ok s
@[simp] theorem State.poll_ill : (State.poll s).ill = s.ill := State.takeAnswer_ill s
@[simp] theorem State.poll_redet : (State.poll s).redet = s.redet := State.takeAnswer_redet s
@[simp] theorem State.poll_ferr : (State.poll s).ferr = s.ferr := State.takeAnswer_ferr s
@[simp] theorem State.poll_result : (State.poll s).result = s.result := State.takeAnswer_result s
@[simp] theorem State.poll_idval : (State.poll s).idval = s.idval := State.takeAnswer_idval s
@[simp] theorem State.poll_tmo : (State.poll s).tmo = s.tmo := State.takeAnswer_tmo s
@[simp] theorem State.poll_seq : (State.poll s).seq = s.seq := State.takeAnswer_seq s
@[simp] theorem State.poll_hid : (State.poll s).hid = s.hid := State.takeAnswer_hid s
@[simp] theorem State.poll_evt : (State.poll s).evt = s.evt ++ [.poll s.nextAnswer] := rfl
@[simp] theorem State.poll_feed : (State.poll s).feed = s.takeAnswer.feed := rfl
@[simp] theorem State.poll_draws : (State.poll s).draws = s.takeAnswer.draws := rfl
@[simp] theorem State.poll_cmds : (State.poll s).cmds = s.cmds := State.takeAnswer_cmds s
@[simp] theorem State.poll_rst : (State.poll s).rst = s.rst := State.takeAnswer_rst s

@[simp] theorem State.afterReset_trig : s.afterReset.trig = false := rfl
@[simp] theorem State.afterReset_crit : s.afterReset.crit = false := rfl
@[simp] theorem State.afterReset_lastin : s.afterReset.lastin = Config.resetLastin s.draws := rfl
@[simp] theorem State.afterReset_pkt : s.afterReset.pkt = [] := rfl
@[simp] theorem State.afterReset_pktlen : s.afterReset.pktlen = 0 := rfl
@[simp] theorem State.afterReset_model : s.afterReset.model = .unknown := rfl
@[simp] theorem State.afterReset_axis : s.afterReset.axis = Vector.ofFn fun i => Config.resetAxis s.draws i.val := rfl
@[simp] theorem State.afterReset_hat : s.afterReset.hat = BitVec.ofNat 4 (Config.resetHat s.draws).val := rfl
@[simp] theorem State.afterReset_buttons : s.afterReset.buttons = Config.resetButtons s.draws := rfl
@[simp] theorem State.afterReset_valid : s.afterReset.valid = false := rfl
@[simp] theorem State.afterReset_errcnt : s.afterReset.errcnt = 0 := rfl
@[simp] theorem State.afterReset_lasterr : s.afterReset.lasterr = .noError := rfl
@[simp] theorem State.afterReset_ok : s.afterReset.ok = false := rfl
@[simp] theorem State.afterReset_ill : s.afterReset.ill = false := rfl
@[simp] theorem State.afterReset_redet : s.afterReset.redet = false := rfl
@[simp] theorem State.afterReset_ferr : s.afterReset.ferr = false := rfl
@[simp] theorem State.afterReset_result : s.afterReset.result = 0 := rfl
@[simp] theorem State.afterReset_idval : s.afterReset.idval = 0 := rfl
@[simp] theorem State.afterReset_tmo : s.afterReset.tmo = 0 := rfl
@[simp] theorem State.afterReset_seq : s.afterReset.seq = .idle := rfl
@[simp] theorem State.afterReset_hid : s.afterReset.hid = Hidden.dead := rfl
@[simp] theorem State.afterReset_evt : s.afterReset.evt = [] := rfl
@[simp] theorem State.afterReset_feed : s.afterReset.feed = s.feed := rfl
@[simp] theorem State.afterReset_draws : s.afterReset.draws = s.draws + 1 := rfl
@[simp] theorem State.afterReset_cmds : s.afterReset.cmds = s.cmds := rfl
@[simp] theorem State.afterReset_rst : s.afterReset.rst = .low := rfl

@[simp] theorem State.skipAnswers_trig (n : Nat) : (s.skipAnswers n).trig = s.trig := rfl
@[simp] theorem State.skipAnswers_crit (n : Nat) : (s.skipAnswers n).crit = s.crit := rfl
@[simp] theorem State.skipAnswers_lastin (n : Nat) : (s.skipAnswers n).lastin = s.lastin := rfl
@[simp] theorem State.skipAnswers_pkt (n : Nat) : (s.skipAnswers n).pkt = s.pkt := rfl
@[simp] theorem State.skipAnswers_pktlen (n : Nat) : (s.skipAnswers n).pktlen = s.pktlen := rfl
@[simp] theorem State.skipAnswers_model (n : Nat) : (s.skipAnswers n).model = s.model := rfl
@[simp] theorem State.skipAnswers_axis (n : Nat) : (s.skipAnswers n).axis = s.axis := rfl
@[simp] theorem State.skipAnswers_hat (n : Nat) : (s.skipAnswers n).hat = s.hat := rfl
@[simp] theorem State.skipAnswers_buttons (n : Nat) : (s.skipAnswers n).buttons = s.buttons := rfl
@[simp] theorem State.skipAnswers_valid (n : Nat) : (s.skipAnswers n).valid = s.valid := rfl
@[simp] theorem State.skipAnswers_errcnt (n : Nat) : (s.skipAnswers n).errcnt = s.errcnt := rfl
@[simp] theorem State.skipAnswers_lasterr (n : Nat) : (s.skipAnswers n).lasterr = s.lasterr := rfl
@[simp] theorem State.skipAnswers_ok (n : Nat) : (s.skipAnswers n).ok = s.ok := rfl
@[simp] theorem State.skipAnswers_ill (n : Nat) : (s.skipAnswers n).ill = s.ill := rfl
@[simp] theorem State.skipAnswers_redet (n : Nat) : (s.skipAnswers n).redet = s.redet := rfl
@[simp] theorem State.skipAnswers_ferr (n : Nat) : (s.skipAnswers n).ferr = s.ferr := rfl
@[simp] theorem State.skipAnswers_result (n : Nat) : (s.skipAnswers n).result = s.result := rfl
@[simp] theorem State.skipAnswers_idval (n : Nat) : (s.skipAnswers n).idval = s.idval := rfl
@[simp] theorem State.skipAnswers_tmo (n : Nat) : (s.skipAnswers n).tmo = s.tmo := rfl
@[simp] theorem State.skipAnswers_seq (n : Nat) : (s.skipAnswers n).seq = s.seq := rfl
@[simp] theorem State.skipAnswers_hid (n : Nat) : (s.skipAnswers n).hid = s.hid := rfl
@[simp] theorem State.skipAnswers_evt (n : Nat) : (s.skipAnswers n).evt = s.evt := rfl
@[simp] theorem State.skipAnswers_feed (n : Nat) : (s.skipAnswers n).feed = s.feed.drop n := rfl
@[simp] theorem State.skipAnswers_draws (n : Nat) : (s.skipAnswers n).draws = s.draws + (n - s.feed.length) := rfl
@[simp] theorem State.skipAnswers_cmds (n : Nat) : (s.skipAnswers n).cmds = s.cmds := rfl
@[simp] theorem State.skipAnswers_rst (n : Nat) : (s.skipAnswers n).rst = s.rst := rfl

@[simp] theorem State.cutReset_trig (n : Nat) (t : State) : (State.cutReset n s t).trig = false := rfl
@[simp] theorem State.cutReset_crit (n : Nat) (t : State) : (State.cutReset n s t).crit = false := rfl
@[simp] theorem State.cutReset_pkt (n : Nat) (t : State) : (State.cutReset n s t).pkt = [] := rfl
@[simp] theorem State.cutReset_pktlen (n : Nat) (t : State) : (State.cutReset n s t).pktlen = 0 := rfl
@[simp] theorem State.cutReset_model (n : Nat) (t : State) : (State.cutReset n s t).model = .unknown := rfl
@[simp] theorem State.cutReset_valid (n : Nat) (t : State) : (State.cutReset n s t).valid = false := rfl
@[simp] theorem State.cutReset_errcnt (n : Nat) (t : State) : (State.cutReset n s t).errcnt = 0 := rfl
@[simp] theorem State.cutReset_lasterr (n : Nat) (t : State) : (State.cutReset n s t).lasterr = .noError := rfl
@[simp] theorem State.cutReset_ok (n : Nat) (t : State) : (State.cutReset n s t).ok = false := rfl
@[simp] theorem State.cutReset_ill (n : Nat) (t : State) : (State.cutReset n s t).ill = false := rfl
@[simp] theorem State.cutReset_redet (n : Nat) (t : State) : (State.cutReset n s t).redet = false := rfl
@[simp] theorem State.cutReset_ferr (n : Nat) (t : State) : (State.cutReset n s t).ferr = false := rfl
@[simp] theorem State.cutReset_result (n : Nat) (t : State) : (State.cutReset n s t).result = 0 := rfl
@[simp] theorem State.cutReset_idval (n : Nat) (t : State) : (State.cutReset n s t).idval = 0 := rfl
@[simp] theorem State.cutReset_tmo (n : Nat) (t : State) : (State.cutReset n s t).tmo = 0 := rfl
@[simp] theorem State.cutReset_seq (n : Nat) (t : State) : (State.cutReset n s t).seq = .idle := rfl
@[simp] theorem State.cutReset_hid (n : Nat) (t : State) : (State.cutReset n s t).hid = Hidden.dead := rfl
@[simp] theorem State.cutReset_evt (n : Nat) (t : State) : (State.cutReset n s t).evt = [] := rfl
@[simp] theorem State.cutReset_rst (n : Nat) (t : State) : (State.cutReset n s t).rst = .low := rfl
@[simp] theorem State.cutReset_feed (n : Nat) (t : State) :
    (State.cutReset n s t).feed = s.feed.drop (pollCount ((t.evt.drop s.evt.length).take n)) := rfl
@[simp] theorem State.cutReset_cmds (n : Nat) (t : State) : (State.cutReset n s t).cmds = t.cmds := rfl

@[simp] theorem State.placeWord_trig (w : Word) : (State.placeWord w s).trig = s.trig := rfl
@[simp] theorem State.placeWord_crit (w : Word) : (State.placeWord w s).crit = s.crit := rfl
@[simp] theorem State.placeWord_lastin (w : Word) : (State.placeWord w s).lastin = s.lastin := rfl
@[simp] theorem State.placeWord_pkt (w : Word) : (State.placeWord w s).pkt = s.pkt := rfl
@[simp] theorem State.placeWord_pktlen (w : Word) : (State.placeWord w s).pktlen = s.pktlen := rfl
@[simp] theorem State.placeWord_model (w : Word) : (State.placeWord w s).model = s.model := rfl
@[simp] theorem State.placeWord_axis (w : Word) : (State.placeWord w s).axis = s.axis := rfl
@[simp] theorem State.placeWord_hat (w : Word) : (State.placeWord w s).hat = s.hat := rfl
@[simp] theorem State.placeWord_buttons (w : Word) : (State.placeWord w s).buttons = s.buttons := rfl
@[simp] theorem State.placeWord_valid (w : Word) : (State.placeWord w s).valid = s.valid := rfl
@[simp] theorem State.placeWord_errcnt (w : Word) : (State.placeWord w s).errcnt = s.errcnt := rfl
@[simp] theorem State.placeWord_lasterr (w : Word) : (State.placeWord w s).lasterr = s.lasterr := rfl
@[simp] theorem State.placeWord_ok (w : Word) : (State.placeWord w s).ok = s.ok := rfl
@[simp] theorem State.placeWord_ill (w : Word) : (State.placeWord w s).ill = s.ill := rfl
@[simp] theorem State.placeWord_redet (w : Word) : (State.placeWord w s).redet = s.redet := rfl
@[simp] theorem State.placeWord_ferr (w : Word) : (State.placeWord w s).ferr = s.ferr := rfl
@[simp] theorem State.placeWord_result (w : Word) : (State.placeWord w s).result = s.result := rfl
@[simp] theorem State.placeWord_idval (w : Word) : (State.placeWord w s).idval = s.idval := rfl
@[simp] theorem State.placeWord_tmo (w : Word) : (State.placeWord w s).tmo = s.tmo := rfl
@[simp] theorem State.placeWord_seq (w : Word) : (State.placeWord w s).seq = .idle := rfl
@[simp] theorem State.placeWord_hid (w : Word) : (State.placeWord w s).hid = s.hid := rfl
@[simp] theorem State.placeWord_evt (w : Word) : (State.placeWord w s).evt = s.evt := rfl
@[simp] theorem State.placeWord_feed (w : Word) : (State.placeWord w s).feed = s.feed := rfl
@[simp] theorem State.placeWord_draws (w : Word) : (State.placeWord w s).draws = s.draws := rfl
@[simp] theorem State.placeWord_cmds (w : Word) : (State.placeWord w s).cmds = w :: s.cmds := rfl
@[simp] theorem State.placeWord_rst (w : Word) : (State.placeWord w s).rst = .low := rfl

end Sys2Proof.Machine
end

