-- ==== Sys2Proof/Laws/Env.lean ====
section
/-! SUPPORT. The device's answers: what one poll and n polls do to the state. -/

namespace Sys2Proof.Machine

variable (s : State)

theorem State.nextAnswer_eq : s.nextAnswer = s.answer 0 := by
  unfold State.nextAnswer State.answer
  cases h : s.feed <;> simp

theorem State.takeAnswer_eq : s.takeAnswer = s.skipAnswers 1 := by
  unfold State.takeAnswer State.skipAnswers
  cases h : s.feed <;> simp

theorem State.takeAnswer_feed : s.takeAnswer.feed = s.feed.drop 1 := by rw [State.takeAnswer_eq]; rfl

theorem State.takeAnswer_draws : s.takeAnswer.draws = s.draws + (1 - s.feed.length) := by
  rw [State.takeAnswer_eq]; rfl

theorem State.answer_drop {s t : State} {n : Nat} (hf : t.feed = s.feed.drop n)
    (hd : t.draws = s.draws + (n - s.feed.length)) (k : Nat) : t.answer k = s.answer (n + k) := by
  unfold State.answer
  simp only [hf, hd, List.length_drop, List.getElem_drop]
  by_cases h : n + k < s.feed.length
  · rw [dif_pos h, dif_pos (by omega)]
  · rw [dif_neg h, dif_neg (by omega)]; congr 1; omega

/-- The answers after one poll are the later ones. -/
@[simp] theorem State.answer_poll (k : Nat) : s.poll.answer k = s.answer (k + 1) := by
  rw [State.answer_drop (s := s) (t := s.poll) (n := 1) (State.takeAnswer_feed s) (State.takeAnswer_draws s),
    Nat.add_comm]

/-- One poll: LASTIN is the answer (R111). -/
@[simp] theorem State.poll_lastin' : s.poll.lastin = s.answer 0 := by
  rw [State.poll_lastin, State.nextAnswer_eq]

/-- A state is its environment's answers plus fields a change of other fields does not touch. -/
theorem State.answer_congr {s t : State} (hf : s.feed = t.feed) (hd : s.draws = t.draws) : s.answer = t.answer := by
  funext k; unfold State.answer; simp only [hf, hd]

theorem State.polled_zero : s.polled 0 = s := by
  unfold State.polled State.skipAnswers State.answers
  simp

theorem State.polled_one : s.polled 1 = s.poll := by
  unfold State.polled State.poll
  rw [State.takeAnswer_eq, State.nextAnswer_eq]
  simp [State.answers, List.range_succ]

theorem State.answer_skip (n k : Nat) : (s.skipAnswers n).answer k = s.answer (n + k) :=
  State.answer_drop rfl rfl k

theorem State.skipAnswers_add (m n : Nat) : (s.skipAnswers m).skipAnswers n = s.skipAnswers (m + n) := by
  unfold State.skipAnswers
  simp only [List.drop_drop, List.length_drop]
  congr 1; omega

@[simp] theorem State.answer_polled (n k : Nat) : (s.polled n).answer k = s.answer (n + k) :=
  (congrFun (State.answer_congr rfl rfl) k).trans (State.answer_skip s n k)

theorem State.answers_succ (n : Nat) : s.answers (n + 1) = s.answers n ++ [s.answer n] := by
  unfold State.answers; rw [List.range_succ, List.map_append]; rfl

theorem State.answers_add (m n : Nat) : s.answers (m + n) = s.answers m ++ (s.polled m).answers n := by
  unfold State.answers
  rw [List.range_add, List.map_append, List.map_map]
  congr 1
  exact List.map_congr_left fun k _ => (State.answer_polled s m k).symm

/-- n polls after m polls are m + n polls. -/
theorem State.polled_add (m n : Nat) : (s.polled m).polled n = s.polled (m + n) := by
  have hf : ((s.polled m).skipAnswers n).feed = (s.skipAnswers (m + n)).feed := by
    show (s.feed.drop m).drop n = s.feed.drop (m + n)
    rw [List.drop_drop]
  have hd : ((s.polled m).skipAnswers n).draws = (s.skipAnswers (m + n)).draws := by
    show s.draws + (m - s.feed.length) + (n - (s.feed.drop m).length) = s.draws + (m + n - s.feed.length)
    rw [List.length_drop]; omega
  have hl : (if n = 0 then (s.polled m).lastin else (s.polled m).answer (n - 1)) =
      if m + n = 0 then s.lastin else s.answer (m + n - 1) := by
    cases n with
    | zero => rfl
    | succ n => simp [← Nat.add_assoc]
  have he : (s.polled m).evt ++ ((s.polled m).answers n).map Event.poll =
      s.evt ++ (s.answers (m + n)).map Event.poll := by
    rw [State.answers_add, List.map_append]
    exact List.append_assoc _ _ _
  calc (s.polled m).polled n
      = { s with
          feed := ((s.polled m).skipAnswers n).feed, draws := ((s.polled m).skipAnswers n).draws,
          lastin := if n = 0 then (s.polled m).lastin else (s.polled m).answer (n - 1),
          evt := (s.polled m).evt ++ ((s.polled m).answers n).map Event.poll } := rfl
    _ = s.polled (m + n) := by rw [hf, hd, hl, he]; rfl

theorem State.poll_polled (n : Nat) : s.poll.polled n = s.polled (n + 1) := by
  rw [← State.polled_one, State.polled_add, Nat.add_comm]

theorem State.polled_poll (n : Nat) : (s.polled n).poll = s.polled (n + 1) := by
  rw [← State.polled_one, State.polled_add]

theorem State.polled_lastin_succ (n : Nat) : (s.polled (n + 1)).lastin = s.answer n := rfl

end Sys2Proof.Machine
end

