-- ==== Sys2Proof/Laws/Wait.lean ====
section
/-! SUPPORT. What a wait does, said once: WaitEdge and WaitLevel as a number of polls and a remaining budget, for the
least answer that satisfies the wait and for none (40_bit_channel.md rules R110, R113, R114). -/

namespace Sys2Proof.Machine

theorem State.setLast_setLast (s : State) (a b : Bool) : (s.setLast a).setLast b = s.setLast b := rfl

/-- A poll of a state written as polls of `s` under a new edge memory and a new TMO. -/
theorem State.poll_under (s : State) (k : Nat) (b : Bool) (m : Timeout) :
    (((s.polled k).setLast b).setTmo m).poll = ((s.polled (k + 1)).setLast b).setTmo m := by
  rw [← State.polled_poll, ← State.polled_one, ← State.polled_one]
  rfl

theorem waitEdgeLoop_succ (l : Line) (d : Dir) (n : Nat) (s : State) :
    waitEdgeLoop l d (n + 1) s =
      if lineLevel l (s.answer 0) ≠ s.hid.last ∧ dirWants d (lineLevel l (s.answer 0)) = true then s.poll
      else waitEdgeLoop l d n ((s.poll.setLast (lineLevel l (s.answer 0))).setTmo (s.tmo - 1)) := by
  rw [← State.poll_lastin']; rfl

theorem waitLevelLoop_succ (l : Line) (b : Bool) (n : Nat) (s : State) :
    waitLevelLoop l b (n + 1) s =
      if lineLevel l (s.answer 0) = b then s.poll else waitLevelLoop l b n (s.poll.setTmo (s.tmo - 1)) := by
  rw [← State.poll_lastin']; rfl

/-- The loop's state after k + 1 polls of `s`, with budget m. -/
abbrev State.inWait (l : Line) (s : State) (k : Nat) (m : Timeout) : State :=
  ((s.polled (k + 1)).setLast (lineLevel l (s.answer k))).setTmo m

theorem waitEdgeLoop_inWait (l : Line) (d : Dir) (n k : Nat) (m : Timeout) (s : State) :
    waitEdgeLoop l d (n + 1) (s.inWait l k m) =
      if s.edgeAt l d k then ((s.polled (k + 2)).setLast (lineLevel l (s.answer k))).setTmo m
      else waitEdgeLoop l d n (s.inWait l (k + 1) (m - 1)) := by
  have ha : (s.inWait l k m).answer 0 = s.answer (k + 1) :=
    (State.answer_congr (t := s.polled (k + 1)) rfl rfl ▸ State.answer_polled s (k + 1) 0)
  rw [waitEdgeLoop_succ, ha, State.poll_under]
  simp only [State.setTmo_hid, State.setLast_hid, State.edgeAt, ne_comm]
  rfl

theorem waitEdgeLoop_found (l : Line) (d : Dir) (s : State) (n k j : Nat) (m : Timeout) (hj : j < n)
    (he : s.edgeAt l d (k + j)) (hn : ∀ i < j, ¬ s.edgeAt l d (k + i)) :
    (waitEdgeLoop l d n (s.inWait l k m)).setLast false =
      ((s.polled (k + j + 2)).setTmo (m - BitVec.ofNat 16 j)).setLast false := by
  induction n generalizing k j m with
  | zero => omega
  | succ n ih =>
    rw [waitEdgeLoop_inWait]
    cases j with
    | zero => rw [if_pos (by simpa only [Nat.add_zero] using he)]; simp only [BitVec.sub_zero]; rfl
    | succ j =>
      rw [if_neg (by simpa only [Nat.add_zero] using hn 0 (by omega)), ih (k + 1) j (m - 1) (by omega)
        (by rwa [show k + 1 + j = k + (j + 1) by omega])
        (fun i hi => by rw [show k + 1 + i = k + (i + 1) by omega]; exact hn _ (by omega))]
      rw [show k + 1 + j + 2 = k + (j + 1) + 2 by omega,
        show m - 1 - BitVec.ofNat 16 j = m - BitVec.ofNat 16 (j + 1) by rw [BitVec.ofNat_add]; bv_omega]

theorem waitEdgeLoop_none (l : Line) (d : Dir) (s : State) (n k : Nat) (m : Timeout)
    (hn : ∀ i < n, ¬ s.edgeAt l d (k + i)) :
    (waitEdgeLoop l d n (s.inWait l k m)).setLast false =
      ((s.polled (k + n + 1)).setTmo (m - BitVec.ofNat 16 n)).setLast false := by
  induction n generalizing k m with
  | zero => show ((s.polled (k + 1)).setTmo m).setLast false = _; simp
  | succ n ih =>
    rw [waitEdgeLoop_inWait, if_neg (by simpa only [Nat.add_zero] using hn 0 (by omega)), ih (k + 1) (m - 1)
      (fun i hi => by rw [show k + 1 + i = k + (i + 1) by omega]; exact hn _ (by omega))]
    rw [show k + 1 + n + 1 = k + (n + 1) + 1 by omega,
      show m - 1 - BitVec.ofNat 16 n = m - BitVec.ofNat 16 (n + 1) by rw [BitVec.ofNat_add]; bv_omega]

theorem waitEdge_eq (l : Line) (d : Dir) (n : Timeout) (s : State) :
    waitEdge l d n s = (waitEdgeLoop l d n.toNat (s.inWait l 0 n)).setLast false := by
  unfold waitEdge State.inWait
  rw [State.polled_one, ← State.poll_lastin']

/-- WaitEdge that sees its edge first between answers j and j + 1, j < N: j + 2 polls, N - j left (R113). -/
theorem waitEdge_found (l : Line) (d : Dir) (n : Timeout) (s : State) (j : Nat) (hj : j < n.toNat)
    (he : s.edgeAt l d j) (hn : ∀ i < j, ¬ s.edgeAt l d i) :
    waitEdge l d n s = ((s.polled (j + 2)).setTmo (n - BitVec.ofNat 16 j)).setLast false := by
  rw [waitEdge_eq, waitEdgeLoop_found l d s n.toNat 0 j n hj (by simpa using he) (by simpa using hn)]
  simp

/-- WaitEdge that sees no edge among its N + 1 answers: N + 1 polls, 0 left (R113). -/
theorem waitEdge_none (l : Line) (d : Dir) (n : Timeout) (s : State) (hn : ∀ i < n.toNat, ¬ s.edgeAt l d i) :
    waitEdge l d n s = ((s.polled (n.toNat + 1)).setTmo 0).setLast false := by
  rw [waitEdge_eq, waitEdgeLoop_none l d s n.toNat 0 n (by simpa using hn)]
  simp

/-- Either case of WaitEdge: some number of polls p in 1 .. N + 1, TMO the budget left (R113, R123). -/
theorem waitEdge_cases (l : Line) (d : Dir) (n : Timeout) (s : State) :
    ∃ p r, 1 ≤ p ∧ p ≤ n.toNat + 1 ∧ waitEdge l d n s = ((s.polled p).setTmo r).setLast false := by
  classical
  by_cases h : ∃ j, j < n.toNat ∧ s.edgeAt l d j
  · have hs := Nat.find_spec h
    refine ⟨Nat.find h + 2, _, by omega, by omega, waitEdge_found l d n s _ hs.1 hs.2 fun i hi he => ?_⟩
    exact Nat.find_min h hi ⟨by omega, he⟩
  · push Not at h
    exact ⟨n.toNat + 1, 0, by omega, le_refl _, waitEdge_none l d n s h⟩

theorem waitLevelLoop_found (l : Line) (b : Bool) (s : State) (n k j : Nat) (m : Timeout) (hj : j < n)
    (he : lineLevel l (s.answer (k + j)) = b) (hn : ∀ i < j, lineLevel l (s.answer (k + i)) ≠ b) :
    waitLevelLoop l b n ((s.polled k).setTmo m) = (s.polled (k + j + 1)).setTmo (m - BitVec.ofNat 16 j) := by
  induction n generalizing k j m with
  | zero => omega
  | succ n ih =>
    have ha : ((s.polled k).setTmo m).answer 0 = s.answer k :=
      (State.answer_congr (t := s.polled k) rfl rfl ▸ State.answer_polled s k 0)
    have hp : ((s.polled k).setTmo m).poll = (s.polled (k + 1)).setTmo m := by
      rw [← State.polled_poll, ← State.polled_one, ← State.polled_one]; rfl
    rw [waitLevelLoop_succ, ha, hp]
    cases j with
    | zero => rw [if_pos (by simpa only [Nat.add_zero] using he)]; simp only [BitVec.sub_zero, Nat.add_zero]
    | succ j =>
      rw [if_neg (by simpa only [Nat.add_zero] using hn 0 (by omega))]
      have := ih (k + 1) j (m - 1) (by omega) (by rwa [show k + 1 + j = k + (j + 1) by omega])
        (fun i hi => by rw [show k + 1 + i = k + (i + 1) by omega]; exact hn _ (by omega))
      rw [show k + 1 + j + 1 = k + (j + 1) + 1 by omega,
        show m - 1 - BitVec.ofNat 16 j = m - BitVec.ofNat 16 (j + 1) by rw [BitVec.ofNat_add]; bv_omega] at this
      exact this

theorem waitLevelLoop_none (l : Line) (b : Bool) (s : State) (n k : Nat) (m : Timeout)
    (hn : ∀ i < n, lineLevel l (s.answer (k + i)) ≠ b) :
    waitLevelLoop l b n ((s.polled k).setTmo m) = (s.polled (k + n)).setTmo (m - BitVec.ofNat 16 n) := by
  induction n generalizing k m with
  | zero => show (s.polled k).setTmo m = _; simp
  | succ n ih =>
    have ha : ((s.polled k).setTmo m).answer 0 = s.answer k :=
      (State.answer_congr (t := s.polled k) rfl rfl ▸ State.answer_polled s k 0)
    have hp : ((s.polled k).setTmo m).poll = (s.polled (k + 1)).setTmo m := by
      rw [← State.polled_poll, ← State.polled_one, ← State.polled_one]; rfl
    rw [waitLevelLoop_succ, ha, hp, if_neg (by simpa only [Nat.add_zero] using hn 0 (by omega))]
    have := ih (k + 1) (m - 1)
      (fun i hi => by rw [show k + 1 + i = k + (i + 1) by omega]; exact hn _ (by omega))
    rw [show k + 1 + n = k + (n + 1) by omega,
      show m - 1 - BitVec.ofNat 16 n = m - BitVec.ofNat 16 (n + 1) by rw [BitVec.ofNat_add]; bv_omega] at this
    exact this

/-- WaitLevel that first sees its level at answer j, j < N: j + 1 polls, N - j left (R114). -/
theorem waitLevel_found (l : Line) (b : Bool) (n : Timeout) (s : State) (j : Nat) (hj : j < n.toNat)
    (he : lineLevel l (s.answer j) = b) (hn : ∀ i < j, lineLevel l (s.answer i) ≠ b) :
    waitLevel l b n s = (s.polled (j + 1)).setTmo (n - BitVec.ofNat 16 j) := by
  have := waitLevelLoop_found l b s n.toNat 0 j n hj (by simpa using he) (by simpa using hn)
  rw [State.polled_zero] at this
  simpa [waitLevel] using this

/-- WaitLevel that does not see its level among N answers: N polls, 0 left (R114). -/
theorem waitLevel_none (l : Line) (b : Bool) (n : Timeout) (s : State)
    (hn : ∀ i < n.toNat, lineLevel l (s.answer i) ≠ b) :
    waitLevel l b n s = (s.polled n.toNat).setTmo 0 := by
  have := waitLevelLoop_none l b s n.toNat 0 n (by simpa using hn)
  rw [State.polled_zero] at this
  simpa [waitLevel] using this

/-- Either case of WaitLevel: at most N polls, TMO the budget left (R114, R123). -/
theorem waitLevel_cases (l : Line) (b : Bool) (n : Timeout) (s : State) :
    ∃ p r, p ≤ n.toNat ∧ waitLevel l b n s = (s.polled p).setTmo r := by
  classical
  by_cases h : ∃ j, j < n.toNat ∧ lineLevel l (s.answer j) = b
  · have hs := Nat.find_spec h
    refine ⟨Nat.find h + 1, _, by omega, waitLevel_found l b n s _ hs.1 hs.2 fun i hi he => ?_⟩
    exact Nat.find_min h hi ⟨by omega, he⟩
  · push Not at h
    exact ⟨n.toNat, 0, le_refl _, waitLevel_none l b n s h⟩

end Sys2Proof.Machine
end

