-- ==== Sys2Proof/Laws/Trace.lean ====
section
/-! SUPPORT. What every procedure does to the event history and the device's answers (Trace), and its frame: the fields a
wait leaves unchanged, one lemma each. -/

namespace Sys2Proof.Machine

theorem pollCount_nil : pollCount [] = 0 := rfl

theorem pollCount_append (as bs : List Event) : pollCount (as ++ bs) = pollCount as + pollCount bs :=
  List.countP_append

theorem pollCount_cons (e : Event) (es : List Event) :
    pollCount (e :: es) = pollCount es + if e.isPoll then 1 else 0 := List.countP_cons

theorem pollCount_map_poll (vs : List Lines) : pollCount (vs.map Event.poll) = vs.length := by
  induction vs with
  | nil => rfl
  | cons v vs ih => simp [pollCount_cons, Event.isPoll, ih]

theorem State.length_answers (s : State) (n : Nat) : (s.answers n).length = n := by simp [State.answers]

namespace Trace

theorem refl (s : State) : Trace s s [] := ⟨by simp, rfl, by simp [pollCount], by simp [pollCount], rfl⟩

/-- The view of the fields a trace speaks of; fields it does not speak of may change. -/
theorem of_eq {s t t' : State} {es : List Event} (h : Trace s t es) (he : t'.evt = t.evt) (hf : t'.feed = t.feed)
    (hd : t'.draws = t.draws) (hl : t'.lastin = t.lastin) : Trace s t' es :=
  ⟨he ▸ h.evt, hl ▸ h.lastin, hf ▸ h.feed, hd ▸ h.draws, h.answers⟩

theorem of_eq_left {s s' t : State} {es : List Event} (h : Trace s t es) (he : s'.evt = s.evt) (hf : s'.feed = s.feed)
    (hd : s'.draws = s.draws) (hl : s'.lastin = s.lastin) : Trace s' t es :=
  ⟨he ▸ h.evt, hl ▸ h.lastin, hf ▸ h.feed, by rw [hd, hf]; exact h.draws,
    h.answers.trans (by unfold State.answers; rw [State.answer_congr (s := s') (t := s) hf hd])⟩

theorem answers_after {s t : State} {es : List Event} (h : Trace s t es) (k : Nat) :
    t.answer k = s.answer (pollCount es + k) := State.answer_drop h.feed h.draws k

theorem trans {s t u : State} {es fs : List Event} (h : Trace s t es) (g : Trace t u fs) : Trace s u (es ++ fs) := by
  refine ⟨by rw [g.evt, h.evt, List.append_assoc], ?_, ?_, ?_, ?_⟩
  · rw [g.lastin, h.lastin, List.filterMap_append, List.getLast?_append]
    cases (fs.filterMap Event.answer).getLast? <;> simp
  · rw [g.feed, h.feed, List.drop_drop, pollCount_append]
  · rw [g.draws, h.draws, h.feed, List.length_drop, pollCount_append]; omega
  · rw [List.filterMap_append, h.answers, g.answers, pollCount_append]
    unfold State.answers
    rw [List.range_add, List.map_append, List.map_map]
    congr 1
    exact List.map_congr_left fun k _ => h.answers_after k

/-- One event that is no poll. -/
theorem event {s t : State} {e : Event} (hp : e.isPoll = false) (he : t.evt = s.evt ++ [e]) (hf : t.feed = s.feed)
    (hd : t.draws = s.draws) (hl : t.lastin = s.lastin) : Trace s t [e] := by
  have hc : pollCount [e] = 0 := by rw [pollCount_cons, hp]; rfl
  have ha : [e].filterMap Event.answer = [] := by cases e <;> simp_all [Event.isPoll, Event.answer]
  exact ⟨he, by rw [ha]; exact hl, by rw [hc]; simpa using hf, by rw [hc]; simpa using hd, by rw [hc, ha]; rfl⟩

theorem driveTrig (s : State) (l : Bool) : Trace s (s.driveTrig l) [.trig l] := event rfl rfl rfl rfl rfl

theorem driveCrit (s : State) (b : Bool) : Trace s (s.driveCrit b) [.crit b] := event rfl rfl rfl rfl rfl

theorem pause (s : State) (u : Nat) : Trace s (s.pause u) [.delay u] := event rfl rfl rfl rfl rfl

theorem coolDown (c : Cfg) (s : State) : Trace s (Machine.coolDown c s) [.delay c.cooldownUs] := pause s _

/-- Recording an outcome adds no event and takes no answer. -/
theorem setResult {s t : State} {es : List Event} (h : Trace s t es) (v : BitVec 16) : Trace s (t.setResult v) es :=
  h.of_eq rfl rfl rfl rfl

theorem complete {s t : State} {es : List Event} (h : Trace s t es) (e : ErrKind) : Trace s (t.complete e) es :=
  h.of_eq rfl rfl rfl rfl

/-- n polls record the next n answers. -/
theorem polled (s : State) (n : Nat) : Trace s (s.polled n) ((s.answers n).map Event.poll) := by
  have hc : pollCount ((s.answers n).map Event.poll) = n := by
    rw [pollCount_map_poll, State.length_answers]
  have ha : ((s.answers n).map Event.poll).filterMap Event.answer = s.answers n := by
    rw [List.filterMap_map]; exact List.filterMap_some
  refine ⟨rfl, ?_, by rw [hc]; rfl, by rw [hc]; rfl, by rw [hc, ha]⟩
  rw [ha]
  cases n with
  | zero => rfl
  | succ n => rw [State.answers_succ, List.getLast?_concat]; rfl

end Trace

/-- What a wait leaves behind: at least one and at most N + 1 polls, nothing else in EVT (R113, R123). -/
theorem waitEdge_trace (l : Line) (d : Dir) (n : Timeout) (s : State) :
    ∃ es, Trace s (waitEdge l d n s) es ∧ (∀ e ∈ es, e.isPoll = true) ∧ 1 ≤ pollCount es ∧
      pollCount es ≤ n.toNat + 1 := by
  obtain ⟨p, r, h1, h2, h⟩ := waitEdge_cases l d n s
  refine ⟨(s.answers p).map Event.poll, ?_, ?_, ?_⟩
  · rw [h]; exact (Trace.polled s p).of_eq rfl rfl rfl rfl
  · intro e he
    obtain ⟨v, _, rfl⟩ := List.mem_map.1 he
    rfl
  · rw [pollCount_map_poll, State.length_answers]; exact ⟨h1, h2⟩

/-- What WaitLevel leaves behind: at most N polls, nothing else in EVT (R114, R123). -/
theorem waitLevel_trace (l : Line) (b : Bool) (n : Timeout) (s : State) :
    ∃ es, Trace s (waitLevel l b n s) es ∧ (∀ e ∈ es, e.isPoll = true) ∧ pollCount es ≤ n.toNat := by
  obtain ⟨p, r, h2, h⟩ := waitLevel_cases l b n s
  refine ⟨(s.answers p).map Event.poll, ?_, ?_, ?_⟩
  · rw [h]; exact (Trace.polled s p).of_eq rfl rfl rfl rfl
  · intro e he
    obtain ⟨v, _, rfl⟩ := List.mem_map.1 he
    rfl
  · rw [pollCount_map_poll, State.length_answers]; exact h2

section
variable (l : Line) (d : Dir) (n : Timeout) (b : Bool) (s : State)

/-- The edge memory is dead after a wait, the rest of the hidden state is as before (R46). -/
@[simp] theorem waitEdge_hid : (waitEdge l d n s).hid = { s.hid with last := false } := by
  obtain ⟨p, r, -, -, h⟩ := waitEdge_cases l d n s
  rw [h]; rfl

/-- The frame of WaitEdge (R113, R119): only LASTIN, TMO, EVT, the edge memory and the answers change. -/
theorem waitEdge_except : (waitEdge l d n s).exceptWait = s.exceptWait := by
  obtain ⟨p, r, -, -, h⟩ := waitEdge_cases l d n s
  rw [h]; rfl

/-- The frame of WaitLevel (R114, R120). -/
theorem waitLevel_except : (waitLevel l b n s).exceptWait = s.exceptWait := by
  obtain ⟨p, r, -, h⟩ := waitLevel_cases l b n s
  rw [h]; rfl

@[simp] theorem waitEdge_trig : (waitEdge l d n s).trig = s.trig := by have h := congrArg State.trig (waitEdge_except l d n s); exact h
@[simp] theorem waitEdge_crit : (waitEdge l d n s).crit = s.crit := by have h := congrArg State.crit (waitEdge_except l d n s); exact h
@[simp] theorem waitEdge_pkt : (waitEdge l d n s).pkt = s.pkt := by have h := congrArg State.pkt (waitEdge_except l d n s); exact h
@[simp] theorem waitEdge_pktlen : (waitEdge l d n s).pktlen = s.pktlen := by have h := congrArg State.pktlen (waitEdge_except l d n s); exact h
@[simp] theorem waitEdge_model : (waitEdge l d n s).model = s.model := by have h := congrArg State.model (waitEdge_except l d n s); exact h
@[simp] theorem waitEdge_axis : (waitEdge l d n s).axis = s.axis := by have h := congrArg State.axis (waitEdge_except l d n s); exact h
@[simp] theorem waitEdge_hat : (waitEdge l d n s).hat = s.hat := by have h := congrArg State.hat (waitEdge_except l d n s); exact h
@[simp] theorem waitEdge_buttons : (waitEdge l d n s).buttons = s.buttons := by have h := congrArg State.buttons (waitEdge_except l d n s); exact h
@[simp] theorem waitEdge_valid : (waitEdge l d n s).valid = s.valid := by have h := congrArg State.valid (waitEdge_except l d n s); exact h
@[simp] theorem waitEdge_errcnt : (waitEdge l d n s).errcnt = s.errcnt := by have h := congrArg State.errcnt (waitEdge_except l d n s); exact h
@[simp] theorem waitEdge_lasterr : (waitEdge l d n s).lasterr = s.lasterr := by have h := congrArg State.lasterr (waitEdge_except l d n s); exact h
@[simp] theorem waitEdge_ok : (waitEdge l d n s).ok = s.ok := by have h := congrArg State.ok (waitEdge_except l d n s); exact h
@[simp] theorem waitEdge_ill : (waitEdge l d n s).ill = s.ill := by have h := congrArg State.ill (waitEdge_except l d n s); exact h
@[simp] theorem waitEdge_redet : (waitEdge l d n s).redet = s.redet := by have h := congrArg State.redet (waitEdge_except l d n s); exact h
@[simp] theorem waitEdge_ferr : (waitEdge l d n s).ferr = s.ferr := by have h := congrArg State.ferr (waitEdge_except l d n s); exact h
@[simp] theorem waitEdge_result : (waitEdge l d n s).result = s.result := by have h := congrArg State.result (waitEdge_except l d n s); exact h
@[simp] theorem waitEdge_idval : (waitEdge l d n s).idval = s.idval := by have h := congrArg State.idval (waitEdge_except l d n s); exact h
@[simp] theorem waitEdge_seq : (waitEdge l d n s).seq = s.seq := by have h := congrArg State.seq (waitEdge_except l d n s); exact h
@[simp] theorem waitEdge_cmds : (waitEdge l d n s).cmds = s.cmds := by have h := congrArg State.cmds (waitEdge_except l d n s); exact h
@[simp] theorem waitEdge_rst : (waitEdge l d n s).rst = s.rst := by have h := congrArg State.rst (waitEdge_except l d n s); exact h

@[simp] theorem waitLevel_hid : (waitLevel l b n s).hid = s.hid := by
  obtain ⟨p, r, -, h⟩ := waitLevel_cases l b n s
  rw [h]; rfl
@[simp] theorem waitLevel_trig : (waitLevel l b n s).trig = s.trig := by have h := congrArg State.trig (waitLevel_except l n b s); exact h
@[simp] theorem waitLevel_crit : (waitLevel l b n s).crit = s.crit := by have h := congrArg State.crit (waitLevel_except l n b s); exact h
@[simp] theorem waitLevel_pkt : (waitLevel l b n s).pkt = s.pkt := by have h := congrArg State.pkt (waitLevel_except l n b s); exact h
@[simp] theorem waitLevel_pktlen : (waitLevel l b n s).pktlen = s.pktlen := by have h := congrArg State.pktlen (waitLevel_except l n b s); exact h
@[simp] theorem waitLevel_model : (waitLevel l b n s).model = s.model := by have h := congrArg State.model (waitLevel_except l n b s); exact h
@[simp] theorem waitLevel_axis : (waitLevel l b n s).axis = s.axis := by have h := congrArg State.axis (waitLevel_except l n b s); exact h
@[simp] theorem waitLevel_hat : (waitLevel l b n s).hat = s.hat := by have h := congrArg State.hat (waitLevel_except l n b s); exact h
@[simp] theorem waitLevel_buttons : (waitLevel l b n s).buttons = s.buttons := by have h := congrArg State.buttons (waitLevel_except l n b s); exact h
@[simp] theorem waitLevel_valid : (waitLevel l b n s).valid = s.valid := by have h := congrArg State.valid (waitLevel_except l n b s); exact h
@[simp] theorem waitLevel_errcnt : (waitLevel l b n s).errcnt = s.errcnt := by have h := congrArg State.errcnt (waitLevel_except l n b s); exact h
@[simp] theorem waitLevel_lasterr : (waitLevel l b n s).lasterr = s.lasterr := by have h := congrArg State.lasterr (waitLevel_except l n b s); exact h
@[simp] theorem waitLevel_ok : (waitLevel l b n s).ok = s.ok := by have h := congrArg State.ok (waitLevel_except l n b s); exact h
@[simp] theorem waitLevel_ill : (waitLevel l b n s).ill = s.ill := by have h := congrArg State.ill (waitLevel_except l n b s); exact h
@[simp] theorem waitLevel_redet : (waitLevel l b n s).redet = s.redet := by have h := congrArg State.redet (waitLevel_except l n b s); exact h
@[simp] theorem waitLevel_ferr : (waitLevel l b n s).ferr = s.ferr := by have h := congrArg State.ferr (waitLevel_except l n b s); exact h
@[simp] theorem waitLevel_result : (waitLevel l b n s).result = s.result := by have h := congrArg State.result (waitLevel_except l n b s); exact h
@[simp] theorem waitLevel_idval : (waitLevel l b n s).idval = s.idval := by have h := congrArg State.idval (waitLevel_except l n b s); exact h
@[simp] theorem waitLevel_seq : (waitLevel l b n s).seq = s.seq := by have h := congrArg State.seq (waitLevel_except l n b s); exact h
@[simp] theorem waitLevel_cmds : (waitLevel l b n s).cmds = s.cmds := by have h := congrArg State.cmds (waitLevel_except l n b s); exact h
@[simp] theorem waitLevel_rst : (waitLevel l b n s).rst = s.rst := by have h := congrArg State.rst (waitLevel_except l n b s); exact h

end

end Sys2Proof.Machine
end

