-- ==== Sys2Proof/Laws/Acquisition.lean ====
section
/-! SUPPORT. What the acquisitions do, said once each: their trace, their frame, and what holds of the packet they leave
(41_acquisition.md). -/

namespace Sys2Proof.Machine

variable (c : Cfg)

theorem exceptWait_exceptAcquisition {s t : State} (h : t.exceptWait = s.exceptWait) :
    t.exceptAcquisition = s.exceptAcquisition := by
  unfold State.exceptAcquisition; rw [h]

@[simp] theorem waitEdge_exceptAcquisition (l : Line) (d : Dir) (n : Timeout) (s : State) :
    (waitEdge l d n s).exceptAcquisition = s.exceptAcquisition :=
  exceptWait_exceptAcquisition (waitEdge_except l d n s)

theorem pktlen_succ {n : BitVec 8} (h : n.toNat < capSlots) : (n + 1).toNat = n.toNat + 1 := by
  have h' : n.toNat < 128 := h
  bv_omega

/-! ### The sampling loop -/

/-- Induction over the sampling loop, packaged once: what a wait and a stored slot keep, the loop keeps. -/
theorem sampleLoop_keeps {P : State → Prop} {keep : Slot} {after : State → State}
    (hw : ∀ t, P t → P (waitEdge .clk c.sampleDir c.tNext t))
    (hs : ∀ t, P t → t.pktlen.toNat < capSlots → P (after (t.appendSlot (dataLines t.lastin &&& keep))))
    (fuel : Nat) (s : State) (h : P s) : P (sampleLoop c keep after fuel s) := by
  induction fuel generalizing s with
  | zero => exact h
  | succ n ih =>
    simp only [sampleLoop]
    split
    · exact h
    · rename_i hc
      split
      · exact hw s h
      · refine ih _ (hs _ (hw s h) ?_)
        simp only [waitEdge_pktlen]; omega

/-- What a hook after a stored slot may do: append events that are no polls and of kind Q, change TRIG, nothing else. -/
structure Hook (Q : Event → Bool) (after : State → State) : Prop where
  trace : ∀ t, ∃ es, Trace t (after t) es ∧ (∀ e ∈ es, Q e = true ∧ e.isPoll = false)
  frame : ∀ t, (after t).exceptAcquisition = t.exceptAcquisition
  pkt : ∀ t, (after t).pkt = t.pkt
  pktlen : ∀ t, (after t).pktlen = t.pktlen
  crit : ∀ t, (after t).crit = t.crit
  ferr : ∀ t, (after t).ferr = t.ferr
  hid : ∀ t, (after t).hid = t.hid

theorem Hook.id (Q : Event → Bool) : Hook Q id where
  trace t := ⟨[], Trace.refl t, by simp⟩
  frame _ := rfl
  pkt _ := rfl
  pktlen _ := rfl
  crit _ := rfl
  ferr _ := rfl
  hid _ := rfl

theorem pollCount_eq_zero {es : List Event} (h : ∀ e ∈ es, e.isPoll = false) : pollCount es = 0 := by
  rw [pollCount, List.countP_eq_zero]; intro e he; simp [h e he]

/-- The trace of the sampling loop: polls and the hook's events, at most 1 + T_NEXT polls a round (R143, R312). -/
theorem sampleLoop_trace {Q : Event → Bool} (hQ : ∀ e, Event.isPoll e = true → Q e = true) {keep : Slot}
    {after : State → State} (hk : Hook Q after) (fuel : Nat) (s : State) :
    ∃ es, Trace s (sampleLoop c keep after fuel s) es ∧ (∀ e ∈ es, Q e = true) ∧
      pollCount es ≤ fuel * (1 + c.tNext.toNat) := by
  induction fuel generalizing s with
  | zero => exact ⟨[], Trace.refl s, by simp, by simp [pollCount]⟩
  | succ n ih =>
    simp only [sampleLoop]
    split
    · exact ⟨[], Trace.refl s, by simp, by simp [pollCount]⟩
    · obtain ⟨ws, hw, hp, -, hle⟩ := waitEdge_trace .clk c.sampleDir c.tNext s
      split
      · exact ⟨ws, hw, fun e he => hQ e (hp e he), by rw [Nat.succ_mul]; omega⟩
      · obtain ⟨as, ha, hq⟩ := hk.trace ((waitEdge .clk c.sampleDir c.tNext s).appendSlot
            (dataLines (waitEdge .clk c.sampleDir c.tNext s).lastin &&& keep))
        obtain ⟨es, he, hes, hcount⟩ := ih (after ((waitEdge .clk c.sampleDir c.tNext s).appendSlot
            (dataLines (waitEdge .clk c.sampleDir c.tNext s).lastin &&& keep)))
        have ha' := ha.of_eq_left (s' := waitEdge .clk c.sampleDir c.tNext s) rfl rfl rfl rfl
        refine ⟨ws ++ as ++ es, (hw.trans ha').trans he, ?_, ?_⟩
        · intro e hm
          rcases List.mem_append.1 hm with hm | hm
          · rcases List.mem_append.1 hm with hm | hm
            · exact hQ e (hp e hm)
            · exact (hq e hm).1
          · exact hes e hm
        · rw [pollCount_append, pollCount_append, pollCount_eq_zero fun e hm => (hq e hm).2, Nat.succ_mul]
          omega

/-- What holds of the packet while slots are sampled into it: at most 128 slots, canonical, masked, none beyond PKTLEN. -/
structure Sampling (keep : Slot) (s : State) : Prop where
  len : s.pktlen.toNat ≤ capSlots
  wf : Memory.wf s.pkt = true
  masked : ∀ i, Memory.read s.pkt i &&& keep = Memory.read s.pkt i
  beyond : ∀ i, s.pktlen.toNat ≤ i → Memory.read s.pkt i = 0
  ferr : s.ferr = false
  crit : s.crit = true
  hid : s.hid = Hidden.dead

theorem Sampling.append {keep : Slot} {s : State} (h : Sampling keep s) (hlt : s.pktlen.toNat < capSlots) (v : Slot) :
    Sampling keep (s.appendSlot (v &&& keep)) where
  len := by rw [State.appendSlot_pktlen, pktlen_succ hlt]; omega
  wf := Memory.wf_write h.wf hlt _
  masked i := by
    simp only [State.appendSlot_pkt, Memory.read_write]
    split
    · rw [BitVec.and_assoc, BitVec.and_self]
    · exact h.masked i
  beyond i hi := by
    simp only [State.appendSlot_pkt, State.appendSlot_pktlen, Memory.read_write] at hi ⊢
    rw [pktlen_succ hlt] at hi
    rw [if_neg (by omega)]
    exact h.beyond i (by omega)
  ferr := h.ferr
  crit := h.crit
  hid := h.hid

theorem Sampling.hook {keep : Slot} {Q : Event → Bool} {after : State → State} (hk : Hook Q after) {s : State}
    (h : Sampling keep s) : Sampling keep (after s) where
  len := by rw [hk.pktlen]; exact h.len
  wf := by rw [hk.pkt]; exact h.wf
  masked i := by rw [hk.pkt]; exact h.masked i
  beyond i hi := by rw [hk.pkt]; rw [hk.pktlen] at hi; exact h.beyond i hi
  ferr := by rw [hk.ferr]; exact h.ferr
  crit := by rw [hk.crit]; exact h.crit
  hid := by rw [hk.hid]; exact h.hid

theorem Sampling.wait {keep : Slot} {s : State} (h : Sampling keep s) (l : Line) (d : Dir) (n : Timeout) :
    Sampling keep (waitEdge l d n s) where
  len := by rw [waitEdge_pktlen]; exact h.len
  wf := by rw [waitEdge_pkt]; exact h.wf
  masked i := by rw [waitEdge_pkt]; exact h.masked i
  beyond i hi := by rw [waitEdge_pkt]; rw [waitEdge_pktlen] at hi; exact h.beyond i hi
  ferr := by rw [waitEdge_ferr]; exact h.ferr
  crit := by rw [waitEdge_crit]; exact h.crit
  hid := by rw [waitEdge_hid, h.hid]

theorem sampleLoop_sampling {keep : Slot} {Q : Event → Bool} {after : State → State} (hk : Hook Q after) (fuel : Nat)
    {s : State} (h : Sampling keep s) : Sampling keep (sampleLoop c keep after fuel s) :=
  sampleLoop_keeps c (P := Sampling keep) (fun _ ht => ht.wait _ _ _)
    (fun _ ht hlt => Sampling.hook hk (ht.append hlt _)) fuel s h

theorem sampleLoop_frame {keep : Slot} {Q : Event → Bool} {after : State → State} (hk : Hook Q after) (fuel : Nat)
    (s : State) : (sampleLoop c keep after fuel s).exceptAcquisition = s.exceptAcquisition :=
  sampleLoop_keeps c (P := fun t => t.exceptAcquisition = s.exceptAcquisition)
    (fun t ht => by rw [waitEdge_exceptAcquisition, ht])
    (fun t ht _ => by rw [hk.frame]; exact ht) fuel s rfl

/-- A stored slot, a failed wait or a full packet: the loop of R143 never ends because the fuel runs out. -/
theorem sampleLoop_ends {keep : Slot} {Q : Event → Bool} {after : State → State} (hk : Hook Q after) (fuel : Nat)
    (s : State) (hf : capSlots ≤ s.pktlen.toNat + fuel) (hl : s.pktlen.toNat ≤ capSlots) :
    (sampleLoop c keep after fuel s).tmo = 0 ∨ (sampleLoop c keep after fuel s).pktlen.toNat = capSlots := by
  induction fuel generalizing s with
  | zero => exact Or.inr (by show s.pktlen.toNat = _; omega)
  | succ n ih =>
    simp only [sampleLoop]
    split
    · rename_i h; rcases h with h | h
      · exact Or.inl h
      · exact Or.inr (by omega)
    · rename_i h
      split
      · exact Or.inl ‹_›
      · have hp := pktlen_succ (n := s.pktlen) (by omega)
        apply ih
        · rw [hk.pktlen]; simp only [State.appendSlot_pktlen, waitEdge_pktlen, hp]; omega
        · rw [hk.pktlen]; simp only [State.appendSlot_pktlen, waitEdge_pktlen, hp]; omega

/-! ### The start of an acquisition -/

theorem startAcquisition_frame (s : State) : (startAcquisition c s).exceptAcquisition = s.exceptAcquisition := by
  unfold startAcquisition; rw [waitEdge_exceptAcquisition]; rfl

/-- `Fresh(); crit(1); trig(1)` and the first wait: C(1), T(1), then 1 to 1 + T_FIRST polls (R143). -/
theorem startAcquisition_trace (s : State) :
    ∃ ps, Trace s (startAcquisition c s) (.crit true :: .trig true :: ps) ∧ (∀ e ∈ ps, e.isPoll = true) ∧
      1 ≤ pollCount ps ∧ pollCount ps ≤ c.tFirst.toNat + 1 := by
  obtain ⟨ps, hw, hp, h1, h2⟩ := waitEdge_trace .clk c.firstDir c.tFirst ((s.fresh.driveCrit true).driveTrig true)
  refine ⟨ps, ?_, hp, h1, h2⟩
  have h0 : Trace s (s.fresh.driveCrit true) [.crit true] := Trace.event rfl rfl rfl rfl rfl
  exact (h0.trans (Trace.driveTrig _ true)).trans hw

theorem startAcquisition_sampling (keep : Slot) (s : State) (hh : s.hid = Hidden.dead) :
    Sampling keep (startAcquisition c s) := by
  unfold startAcquisition
  refine Sampling.wait ?_ _ _ _
  exact {
    len := by simp
    wf := rfl
    masked := fun i => by simp
    beyond := fun i _ => rfl
    ferr := rfl
    crit := rfl
    hid := hh }

/-! ### AcqSerial -/

theorem acqSerial_frame (keep : Slot) (s : State) : (acqSerial c keep s).exceptAcquisition = s.exceptAcquisition := by
  show (sampleLoop c keep id capSlots (startAcquisition c s)).exceptAcquisition = _
  rw [sampleLoop_frame c (Hook.id Event.isPoll), startAcquisition_frame]

@[simp] theorem acqSerial_trig (keep : Slot) (s : State) : (acqSerial c keep s).trig = false := rfl
@[simp] theorem acqSerial_crit (keep : Slot) (s : State) : (acqSerial c keep s).crit = false := rfl

/-- The events of AcqSerial (R141, R143): C(1) T(1), polls only, T(0) C(0); at most 1 + T_FIRST + 128 (1 + T_NEXT) polls. -/
theorem acqSerial_trace (keep : Slot) (s : State) :
    ∃ ps, Trace s (acqSerial c keep s) ([.crit true, .trig true] ++ ps ++ [.trig false, .crit false]) ∧
      (∀ e ∈ ps, e.isPoll = true) ∧ 1 ≤ pollCount ps ∧
      pollCount ps ≤ 1 + c.tFirst.toNat + capSlots * (1 + c.tNext.toNat) := by
  obtain ⟨ps, h0, hp, h1, h2⟩ := startAcquisition_trace c s
  obtain ⟨qs, hq, hqp, hqc⟩ := sampleLoop_trace c (Q := Event.isPoll) (fun _ h => h) (keep := keep)
    (Hook.id Event.isPoll) capSlots (startAcquisition c s)
  refine ⟨ps ++ qs, ?_, ?_, ?_, ?_⟩
  · have h3 := (h0.trans hq).trans ((Trace.driveTrig _ false).trans (Trace.driveCrit _ false))
    simpa [acqSerial, State.endAcquisition] using h3
  · intro e he
    rcases List.mem_append.1 he with he | he
    · exact hp e he
    · exact hqp e he
  · rw [pollCount_append]; omega
  · rw [pollCount_append]; omega

/-- What AcqSerial leaves in the packet (R143, R28): at most 128 slots, masked, zero beyond PKTLEN; STATUS.FERR is 0. -/
theorem acqSerial_packet (keep : Slot) (s : State) (hh : s.hid = Hidden.dead) :
    (acqSerial c keep s).pktlen.toNat ≤ capSlots ∧ Memory.wf (acqSerial c keep s).pkt = true ∧
      (∀ i, Memory.read (acqSerial c keep s).pkt i &&& keep = Memory.read (acqSerial c keep s).pkt i) ∧
      (∀ i, (acqSerial c keep s).pktlen.toNat ≤ i → Memory.read (acqSerial c keep s).pkt i = 0) ∧
      (acqSerial c keep s).ferr = false ∧ (acqSerial c keep s).hid = Hidden.dead := by
  have h := sampleLoop_sampling c (Hook.id Event.isPoll) capSlots (startAcquisition_sampling c keep s hh)
  exact ⟨h.len, h.wf, h.masked, h.beyond, h.ferr, h.hid⟩

/-! ### AcqByte -/

theorem State.commitBits_eq (base : Nat) (sh : BitVec 8) (k n : Nat) (s : State) :
    ∃ p, State.commitBits base sh k n s = { s with pkt := p } ∧
      (Memory.wf s.pkt = true → base + k + n ≤ capSlots → Memory.wf p = true) ∧
      (∀ i, Memory.read p i = if base + k ≤ i ∧ i < base + k + n then
        (BitVec.ofBool (sh.getLsbD (i - base))).setWidth 3 else Memory.read s.pkt i) := by
  induction n generalizing k s with
  | zero => exact ⟨s.pkt, rfl, fun h _ => h, fun i => by rw [if_neg (by omega)]⟩
  | succ n ih =>
    obtain ⟨p, hp, hwf, hr⟩ := ih (k + 1) (s.writeSlot (base + k) ((BitVec.ofBool (sh.getLsbD k)).setWidth 3))
    refine ⟨p, hp, fun h hb => hwf (Memory.wf_write h (by omega) _) (by omega), fun i => ?_⟩
    rw [hr, State.writeSlot_pkt, Memory.read_write]
    by_cases h1 : i = base + k
    · rw [if_neg (by omega), if_pos h1, if_pos (by omega)]
      congr 3; omega
    · rw [if_neg h1]
      by_cases h2 : base + (k + 1) ≤ i ∧ i < base + (k + 1) + n
      · rw [if_pos h2, if_pos (by omega)]
      · rw [if_neg h2, if_neg (by omega)]

/-- What holds of the packet while bytes are framed into it: PKTLEN a multiple of 8 at most 128, slots 0 or 1. -/
structure Framing (s : State) : Prop where
  len : s.pktlen.toNat ≤ capSlots
  whole : s.pktlen.toNat % 8 = 0
  wf : Memory.wf s.pkt = true
  masked : ∀ i, Memory.read s.pkt i &&& 1 = Memory.read s.pkt i
  beyond : ∀ i, s.pktlen.toNat ≤ i → Memory.read s.pkt i = 0
  ferr : s.ferr = false
  crit : s.crit = true

theorem Framing.wait {s : State} (h : Framing s) (l : Line) (d : Dir) (n : Timeout) : Framing (waitEdge l d n s) where
  len := by rw [waitEdge_pktlen]; exact h.len
  whole := by rw [waitEdge_pktlen]; exact h.whole
  wf := by rw [waitEdge_pkt]; exact h.wf
  masked i := by rw [waitEdge_pkt]; exact h.masked i
  beyond i hi := by rw [waitEdge_pkt]; rw [waitEdge_pktlen] at hi; exact h.beyond i hi
  ferr := by rw [waitEdge_ferr]; exact h.ferr
  crit := by rw [waitEdge_crit]; exact h.crit

theorem Framing.of_eq {s t : State} (h : Framing s) (hp : t.pkt = s.pkt) (hl : t.pktlen = s.pktlen)
    (hf : t.ferr = s.ferr) (hc : t.crit = s.crit) : Framing t where
  len := hl ▸ h.len
  whole := hl ▸ h.whole
  wf := hp ▸ h.wf
  masked i := hp ▸ h.masked i
  beyond i hi := by rw [hp]; rw [hl] at hi; exact h.beyond i hi
  ferr := hf ▸ h.ferr
  crit := hc ▸ h.crit

/-- What one bit of the byte frame does (R146): it changes hidden state only, or commits the byte after its stop bit. -/
theorem State.takeBit_cases (b : Bool) (s : State) :
    (∃ h, s.takeBit b = { s with hid := h }) ∨
      (s.hid.pos = 9 ∨ 9 < s.hid.pos) ∧ b = false ∧
        s.takeBit b = { State.commitBits s.pktlen.toNat s.hid.sh 0 8 s with
          pktlen := s.pktlen + 8, hid := { s.hid with pos := 0 } } := by
  unfold State.takeBit
  split
  · split <;> exact Or.inl ⟨_, rfl⟩
  · split
    · exact Or.inl ⟨_, rfl⟩
    · split
      · exact Or.inl ⟨_, rfl⟩
      · exact Or.inr ⟨by omega, by simpa using ‹¬ b = true›, rfl⟩

theorem bitSlot_masked (b : Bool) : (BitVec.ofBool b).setWidth 3 &&& (1 : Slot) = (BitVec.ofBool b).setWidth 3 := by
  cases b <;> rfl

theorem Framing.takeBit {s : State} (h : Framing s) (hlt : s.pktlen.toNat < capSlots) (b : Bool) :
    Framing (s.takeBit b) := by
  rcases State.takeBit_cases b s with ⟨hd, he⟩ | ⟨-, -, he⟩
  · exact h.of_eq (by rw [he]) (by rw [he]) (by rw [he]) (by rw [he])
  · obtain ⟨p, hp, hwf, hr⟩ := State.commitBits_eq s.pktlen.toNat s.hid.sh 0 8 s
    have hw := h.whole
    have hlt' : s.pktlen.toNat < 128 := hlt
    have hc : capSlots = 128 := rfl
    have hl : (s.pktlen + 8).toNat = s.pktlen.toNat + 8 := by bv_omega
    rw [he, hp]
    refine ⟨?_, ?_, hwf h.wf (by omega), ?_, ?_, h.ferr, h.crit⟩
    · show (s.pktlen + 8).toNat ≤ _; omega
    · show (s.pktlen + 8).toNat % 8 = 0; omega
    · intro i
      show Memory.read p i &&& 1 = Memory.read p i
      rw [hr]; split
      · exact bitSlot_masked _
      · exact h.masked i
    · intro i hi
      have hi' : s.pktlen.toNat + 8 ≤ i := by rw [← hl]; exact hi
      show Memory.read p i = 0
      rw [hr, if_neg (by omega)]
      exact h.beyond i (by omega)

theorem State.takeBit_exceptAcquisition (b : Bool) (s : State) :
    (s.takeBit b).exceptAcquisition = s.exceptAcquisition := by
  rcases State.takeBit_cases b s with ⟨hd, he⟩ | ⟨-, -, he⟩
  · rw [he]; rfl
  · obtain ⟨p, hp, -, -⟩ := State.commitBits_eq s.pktlen.toNat s.hid.sh 0 8 s
    rw [he, hp]; rfl

theorem State.takeBit_trace (b : Bool) (s : State) : Trace s (s.takeBit b) [] := by
  rcases State.takeBit_cases b s with ⟨hd, he⟩ | ⟨-, -, he⟩
  · rw [he]; exact (Trace.refl s).of_eq rfl rfl rfl rfl
  · obtain ⟨p, hp, -, -⟩ := State.commitBits_eq s.pktlen.toNat s.hid.sh 0 8 s
    rw [he, hp]; exact (Trace.refl s).of_eq rfl rfl rfl rfl

/-- Induction over the byte loop, packaged once. -/
theorem byteLoop_keeps {P : State → Prop} (hw : ∀ t, P t → P (waitEdge .clk .falling c.tNext t))
    (hb : ∀ t b, P t → t.pktlen.toNat < capSlots → P (t.takeBit b)) (fuel : Nat) (s : State) (h : P s) :
    P (byteLoop c fuel s) := by
  induction fuel generalizing s with
  | zero => exact h
  | succ n ih =>
    simp only [byteLoop]
    split
    · exact h
    · split
      · exact hw s h
      · refine ih _ (hb _ _ (hw s h) ?_)
        rw [waitEdge_pktlen]; omega

theorem byteLoop_trace (fuel : Nat) (s : State) :
    ∃ es, Trace s (byteLoop c fuel s) es ∧ (∀ e ∈ es, e.isPoll = true) ∧
      pollCount es ≤ fuel * (1 + c.tNext.toNat) := by
  induction fuel generalizing s with
  | zero => exact ⟨[], Trace.refl s, by simp, by simp [pollCount]⟩
  | succ n ih =>
    simp only [byteLoop]
    split
    · exact ⟨[], Trace.refl s, by simp, by simp [pollCount]⟩
    · obtain ⟨ws, hw, hp, -, hle⟩ := waitEdge_trace .clk .falling c.tNext s
      split
      · exact ⟨ws, hw, hp, by rw [Nat.succ_mul]; omega⟩
      · obtain ⟨es, he, hes, hcount⟩ := ih ((waitEdge .clk .falling c.tNext s).takeBit
            (lineLevel .d0 (waitEdge .clk .falling c.tNext s).lastin))
        refine ⟨ws ++ es, hw.trans ((State.takeBit_trace _ _).trans he), ?_, ?_⟩
        · intro e hm
          rcases List.mem_append.1 hm with hm | hm
          · exact hp e hm
          · exact hes e hm
        · rw [pollCount_append, Nat.succ_mul]; omega

theorem State.closeBytes_frame (s : State) : s.closeBytes.exceptAcquisition = s.exceptAcquisition := by
  unfold State.closeBytes; split <;> rfl

theorem acqByte_frame (s : State) : (acqByte c s).exceptAcquisition = s.exceptAcquisition := by
  unfold acqByte
  rw [State.closeBytes_frame]
  show (byteLoop c byteRounds (startAcquisition c s).startBytes).exceptAcquisition = _
  exact byteLoop_keeps c (P := fun t => t.exceptAcquisition = s.exceptAcquisition)
    (fun t ht => by rw [waitEdge_exceptAcquisition, ht])
    (fun t b ht _ => by rw [State.takeBit_exceptAcquisition, ht]) byteRounds _ (startAcquisition_frame c s)

theorem State.closeBytes_trig (s : State) : s.closeBytes.trig = s.trig := by unfold State.closeBytes; split <;> rfl
theorem State.closeBytes_crit (s : State) : s.closeBytes.crit = s.crit := by unfold State.closeBytes; split <;> rfl
theorem State.closeBytes_hid (s : State) : s.closeBytes.hid = Hidden.dead := by unfold State.closeBytes; split <;> rfl

@[simp] theorem acqByte_trig (s : State) : (acqByte c s).trig = false := by
  unfold acqByte; rw [State.closeBytes_trig]; rfl
@[simp] theorem acqByte_crit (s : State) : (acqByte c s).crit = false := by
  unfold acqByte; rw [State.closeBytes_crit]; rfl
@[simp] theorem acqByte_hid (s : State) : (acqByte c s).hid = Hidden.dead := State.closeBytes_hid _

theorem State.closeBytes_trace (s : State) : Trace s s.closeBytes [] := by
  unfold State.closeBytes
  split <;> exact (Trace.refl s).of_eq rfl rfl rfl rfl

/-- The events of AcqByte (R141, R146): as AcqSerial's; at most 1 + T_FIRST + 160 (1 + T_NEXT) polls (R312). -/
theorem acqByte_trace (s : State) :
    ∃ ps, Trace s (acqByte c s) ([.crit true, .trig true] ++ ps ++ [.trig false, .crit false]) ∧
      (∀ e ∈ ps, e.isPoll = true) ∧ 1 ≤ pollCount ps ∧
      pollCount ps ≤ 1 + c.tFirst.toNat + byteRounds * (1 + c.tNext.toNat) := by
  obtain ⟨ps, h0, hp, h1, h2⟩ := startAcquisition_trace c s
  obtain ⟨qs, hq, hqp, hqc⟩ := byteLoop_trace c byteRounds (startAcquisition c s).startBytes
  refine ⟨ps ++ qs, ?_, ?_, ?_, ?_⟩
  · have hs : Trace (startAcquisition c s) (startAcquisition c s).startBytes [] :=
      (Trace.refl _).of_eq rfl rfl rfl rfl
    have h3 := (((h0.trans hs).trans hq).trans ((Trace.driveTrig _ false).trans (Trace.driveCrit _ false))).trans
      (State.closeBytes_trace _)
    simpa [acqByte, State.endAcquisition] using h3
  · intro e he
    rcases List.mem_append.1 he with he | he
    · exact hp e he
    · exact hqp e he
  · rw [pollCount_append]; omega
  · rw [pollCount_append]; omega

/-- What AcqByte leaves (R146): a framing error leaves the packet empty; otherwise PKTLEN is a whole number of bytes, at most
128, every slot 0 or 1, zero beyond PKTLEN. -/
theorem acqByte_packet (s : State) :
    (acqByte c s).pktlen.toNat ≤ capSlots ∧ (acqByte c s).pktlen.toNat % 8 = 0 ∧
      Memory.wf (acqByte c s).pkt = true ∧
      (∀ i, Memory.read (acqByte c s).pkt i &&& 1 = Memory.read (acqByte c s).pkt i) ∧
      (∀ i, (acqByte c s).pktlen.toNat ≤ i → Memory.read (acqByte c s).pkt i = 0) ∧
      ((acqByte c s).ferr = true → (acqByte c s).pktlen = 0 ∧ (acqByte c s).pkt = []) := by
  have h0 : Framing (startAcquisition c s).startBytes := by
    refine Framing.of_eq (s := waitEdge .clk c.firstDir c.tFirst ((s.fresh.driveCrit true).driveTrig true))
      (Framing.wait ?_ _ _ _) rfl rfl rfl rfl
    exact ⟨by simp, by simp, rfl, fun i => by simp, fun i _ => rfl, rfl, rfl⟩
  have h := byteLoop_keeps c (P := Framing) (fun _ ht => ht.wait _ _ _) (fun _ b ht hlt => ht.takeBit hlt b) byteRounds
    _ h0
  unfold acqByte State.closeBytes
  split
  · exact ⟨by simp, by simp, rfl, fun i => by simp, fun i _ => rfl, fun _ => ⟨rfl, rfl⟩⟩
  · refine ⟨h.len, h.whole, h.wf, h.masked, h.beyond, fun hf => ?_⟩
    have : (byteLoop c byteRounds (startAcquisition c s).startBytes).ferr = true := hf
    rw [h.ferr] at this
    exact absurd this (by simp)

/-! ### MODESW, Acquire -/

/-- The events of MODESW_SEQ's pulses (R150). -/
def modeswEvents (ds : List Nat) : List Event :=
  ds.flatMap fun d => [.trig true, .delay c.modeswPulseUs, .trig false, .delay d]

theorem modeswEvents_cons (d : Nat) (ds : List Nat) :
    modeswEvents c (d :: ds) = [.trig true, .delay c.modeswPulseUs, .trig false, .delay d] ++ modeswEvents c ds := rfl

theorem modeswLoop_eq (ds : List Nat) (s : State) :
    ∃ i, modeswLoop c ds s =
      { s with trig := if ds = [] then s.trig else false, evt := s.evt ++ modeswEvents c ds,
               hid := { s.hid with modeIdx := i } } := by
  induction ds generalizing s with
  | nil => exact ⟨s.hid.modeIdx, by simp [modeswLoop, modeswEvents]⟩
  | cons d ds ih =>
    obtain ⟨i, hi⟩ := ih { (((s.driveTrig true).pause c.modeswPulseUs).driveTrig false).pause d with
      hid := { s.hid with modeIdx := s.hid.modeIdx + 1 } }
    refine ⟨i, ?_⟩
    have : modeswLoop c (d :: ds) s = modeswLoop c ds
      { (((s.driveTrig true).pause c.modeswPulseUs).driveTrig false).pause d with
        hid := { s.hid with modeIdx := s.hid.modeIdx + 1 } } := rfl
    rw [this, hi, modeswEvents_cons]
    simp

/-- MODESW said once (R150): the pulses of the sequence between C(1) and C(0); TRIG ends 0 unless there is no pulse. -/
theorem modeSwitch_eq (s : State) :
    modeSwitch c s =
      { s with trig := if c.modeswSeq = [] then s.trig else false, crit := false,
               evt := s.evt ++ ([.crit true] ++ modeswEvents c c.modeswSeq ++ [.crit false]),
               hid := { s.hid with modeIdx := 0 } } := by
  obtain ⟨i, hi⟩ := modeswLoop_eq c c.modeswSeq (s.driveCrit true)
  unfold modeSwitch
  rw [hi]
  simp [State.driveCrit]

theorem modeswEvents_poll (ds : List Nat) : ∀ e ∈ modeswEvents c ds, e.isPoll = false := by
  intro e he
  obtain ⟨d, -, hd⟩ := List.mem_flatMap.1 he
  simp only [List.mem_cons, List.not_mem_nil, or_false] at hd
  rcases hd with rfl | rfl | rfl | rfl <;> rfl

theorem Trace.silent {s t : State} {es : List Event} (hp : ∀ e ∈ es, e.isPoll = false) (he : t.evt = s.evt ++ es)
    (hf : t.feed = s.feed) (hd : t.draws = s.draws) (hl : t.lastin = s.lastin) : Trace s t es := by
  have hc : pollCount es = 0 := pollCount_eq_zero hp
  have ha : es.filterMap Event.answer = [] := by
    rw [List.filterMap_eq_nil_iff]
    intro e hm
    have := hp e hm
    cases e <;> simp_all [Event.isPoll, Event.answer]
  exact ⟨he, by rw [ha]; exact hl, by rw [hc]; simpa using hf, by rw [hc]; simpa using hd, by rw [hc, ha]; rfl⟩

theorem modeSwitch_trace (s : State) :
    Trace s (modeSwitch c s) ([.crit true] ++ modeswEvents c c.modeswSeq ++ [.crit false]) := by
  rw [modeSwitch_eq]
  refine Trace.silent ?_ rfl rfl rfl rfl
  intro e he
  simp only [List.mem_append, List.mem_singleton] at he
  rcases he with (rfl | he) | rfl
  · rfl
  · exact modeswEvents_poll c _ e he
  · rfl

theorem modeSwitch_frame (s : State) : (modeSwitch c s).exceptAcquisition = s.exceptAcquisition := by
  rw [modeSwitch_eq]; rfl

/-- Acquire() leaves nothing changed outside what an acquisition changes (R151). -/
theorem acquire_frame (s : State) : (acquire c s).exceptAcquisition = s.exceptAcquisition := by
  unfold acquire
  split
  · rw [acqSerial_frame]; rfl
  · rw [acqSerial_frame]; rfl
  · rw [acqByte_frame]; rfl

/-- What every Acquire() leaves (R151): trigger and critical section released, hidden state dead, a packet of at most 128
slots in canonical form. -/
theorem acquire_leaves (s : State) (hh : s.hid = Hidden.dead) :
    (acquire c s).trig = false ∧ (acquire c s).crit = false ∧ (acquire c s).hid = Hidden.dead ∧
      (acquire c s).pktlen.toNat ≤ capSlots ∧ Memory.wf (acquire c s).pkt = true := by
  unfold acquire
  split
  · obtain ⟨h1, h2, -, -, -, h6⟩ := acqSerial_packet c 0b001 (coolDown c s) hh
    exact ⟨rfl, rfl, h6, h1, h2⟩
  · obtain ⟨h1, h2, -, -, -, h6⟩ := acqSerial_packet c 0b111 (coolDown c s) hh
    exact ⟨rfl, rfl, h6, h1, h2⟩
  · obtain ⟨h1, -, h2, -, -, -⟩ := acqByte_packet c (coolDown c s)
    exact ⟨acqByte_trig c _, acqByte_crit c _, acqByte_hid c _, h1, h2⟩

/-- The report of an acquisition adds no event and takes no answer (R144, R145, R147). -/
theorem Trace.reportAcquisition {s t : State} {es : List Event} (h : Trace s t es) :
    Trace s t.reportAcquisition es := h.of_eq rfl rfl rfl rfl

/-- The events of Acquire() (R151): D(COOLDOWN_US), then one bracketed run of polls. -/
theorem acquire_trace (s : State) :
    ∃ ps, Trace s (acquire c s)
        (.delay c.cooldownUs :: ([.crit true, .trig true] ++ ps ++ [.trig false, .crit false])) ∧
      (∀ e ∈ ps, e.isPoll = true) ∧ 1 ≤ pollCount ps := by
  unfold acquire
  split
  · obtain ⟨ps, h, hp, h1, -⟩ := acqSerial_trace c 0b001 (coolDown c s)
    exact ⟨ps, (Trace.coolDown c s).trans h, hp, h1⟩
  · obtain ⟨ps, h, hp, h1, -⟩ := acqSerial_trace c 0b111 (coolDown c s)
    exact ⟨ps, (Trace.coolDown c s).trans h, hp, h1⟩
  · obtain ⟨ps, h, hp, h1, -⟩ := acqByte_trace c (coolDown c s)
    exact ⟨ps, (Trace.coolDown c s).trans h, hp, h1⟩

end Sys2Proof.Machine
end

