-- ==== Sys2Proof/Laws/Configured.lean ====
section
/-! SUPPORT. The machine is the configured machine at its own configuration (00_scope.md rule R6), and what a step can do,
said once. -/

namespace Sys2Proof.Machine

/-- Every arm of `exec` is the operation at the machine's configuration. -/
theorem exec_eq (i : Instr) (s : State) : exec i s = .next (opIn cfg i s) := by cases i <;> rfl

@[simp] theorem execIn_eq (c : Cfg) (i : Instr) (s : State) : execIn c i s = .next (opIn c i s) := rfl

/-- A word leaves the state of its operation, or is refused (R95, R102). -/
def wordIn (c : Cfg) (w : Word) (s : State) : State :=
  match Sys2Proof.decode w with
  | .ok i => opIn c i s
  | .error _ => s.refuseIllegal

/-- The state a step with no reset leaves. -/
def moveIn (c : Cfg) (s : State) : State :=
  match s.seq with
  | .initLoop k => initRound c k s
  | .idle =>
    match s.offered with
    | none => s
    | some w => wordIn c w s.accept

theorem runWord_eq {c : Cfg} {run : Runner} (hr : ∀ i s, run i s = .next (opIn c i s)) (w : Word) (s : State) :
    runWord run w s = .next (wordIn c w s) := by
  unfold runWord wordIn
  cases Sys2Proof.decode w with
  | ok i => exact hr i s
  | error e => rfl

theorem runStep_eq {c : Cfg} {run : Runner} (hr : ∀ i s, run i s = .next (opIn c i s)) (s : State) :
    runStep c run s = .next (moveIn c s) := by
  unfold runStep moveIn
  cases s.seq with
  | initLoop k => rfl
  | idle =>
    cases s.offered with
    | none => rfl
    | some w => exact runWord_eq hr w s.accept

/-- What a step does, by the reset input (R80, R97, R302). -/
theorem stepWith_eq {c : Cfg} {run : Runner} (hr : ∀ i s, run i s = .next (opIn c i s)) (s : State) :
    stepWith c run s = .next
      (match s.rst with
        | .low => moveIn c s
        | .high => s.afterReset
        | .during n => s.cutReset n (moveIn c s)) := by
  unfold stepWith
  rw [runStep_eq hr]
  cases s.rst <;> rfl

/-- What a step of the machine does, said once. -/
theorem step_eq (s : State) :
    step s = .next
      (match s.rst with
        | .low => moveIn cfg s
        | .high => s.afterReset
        | .during n => s.cutReset n (moveIn cfg s)) :=
  stepWith_eq exec_eq s

theorem stepIn_eq (c : Cfg) (s : State) :
    stepIn c s = .next
      (match s.rst with
        | .low => moveIn c s
        | .high => s.afterReset
        | .during n => s.cutReset n (moveIn c s)) :=
  stepWith_eq (fun _ _ => rfl) s

/-- A step with no reset. -/
theorem step_low {s : State} (h : s.rst = .low) : step s = .next (moveIn cfg s) := by rw [step_eq s, h]

/-- A step with a reset leaves a reset state of some environment (R300, R302). -/
theorem step_reset {s : State} (h : s.rst ≠ .low) : ∃ u : State, step s = .next u.afterReset := by
  rw [step_eq]
  cases hr : s.rst with
  | low => exact absurd hr h
  | high => exact ⟨s, rfl⟩
  | during n => exact ⟨{ s.skipAnswers _ with cmds := _ }, rfl⟩

end Sys2Proof.Machine
end

