-- ==== Sys2Proof/Laws/Detection.lean ====
section
/-! SUPPORT. What the secondary read and the detection do, said once each (42_detection.md). -/

namespace Sys2Proof.Machine

variable (c : Cfg)

theorem exceptAcquisition_exceptDetection {s t : State} (h : t.exceptAcquisition = s.exceptAcquisition) :
    t.exceptDetection = s.exceptDetection := by
  unfold State.exceptDetection; rw [h]

/-- The trigger toggles of ReadId (R173) as a function of the slots stored: what TRIG becomes and the events. -/
theorem toggleTrig_eq (len : Nat) (s : State) :
    ∃ (l : Bool) (es : List Event), toggleTrig c len s = { s with trig := l, evt := s.evt ++ es } ∧
      (∀ e ∈ es, e.isPollOrTrig = true ∧ e.isPoll = false) := by
  unfold toggleTrig
  split <;> split
  · exact ⟨true, [.trig false, .trig true], by simp [State.driveTrig], by simp [Event.isPollOrTrig, Event.isPoll]⟩
  · exact ⟨false, [.trig false], rfl, by simp [Event.isPollOrTrig, Event.isPoll]⟩
  · exact ⟨true, [.trig true], rfl, by simp [Event.isPollOrTrig, Event.isPoll]⟩
  · exact ⟨s.trig, [], by simp, by simp⟩

theorem Hook.toggle (len : Nat) : Hook Event.isPollOrTrig (toggleTrig c len) where
  trace t := by
    obtain ⟨l, es, h, he⟩ := toggleTrig_eq c len t
    exact ⟨es, h ▸ Trace.silent (fun e hm => (he e hm).2) rfl rfl rfl rfl, he⟩
  frame t := by obtain ⟨l, es, h, -⟩ := toggleTrig_eq c len t; rw [h]; rfl
  pkt t := by obtain ⟨l, es, h, -⟩ := toggleTrig_eq c len t; rw [h]
  pktlen t := by obtain ⟨l, es, h, -⟩ := toggleTrig_eq c len t; rw [h]
  crit t := by obtain ⟨l, es, h, -⟩ := toggleTrig_eq c len t; rw [h]
  ferr t := by obtain ⟨l, es, h, -⟩ := toggleTrig_eq c len t; rw [h]
  hid t := by obtain ⟨l, es, h, -⟩ := toggleTrig_eq c len t; rw [h]

/-- ReadId before IDVAL is written. -/
abbrev readSlots (len : Nat) (s : State) : State :=
  (sampleLoop c 0b111 (toggleTrig c len) capSlots (startAcquisition c s)).endAcquisition

theorem readId_eq (len : Nat) (s : State) :
    readId c len s = { readSlots c len s with
      idval := c.idExtract (readSlots c len s).pkt (readSlots c len s).pktlen.toNat len } := rfl

/-- The frame of ReadId (R173, R174): what an acquisition changes, and IDVAL. -/
theorem readId_frame (len : Nat) (s : State) :
    { (readId c len s).exceptAcquisition with idval := 0 } = { s.exceptAcquisition with idval := 0 } := by
  have h : (sampleLoop c 0b111 (toggleTrig c len) capSlots (startAcquisition c s)).exceptAcquisition =
      s.exceptAcquisition := by
    rw [sampleLoop_frame c (Hook.toggle c len), startAcquisition_frame]
  show { (sampleLoop c 0b111 (toggleTrig c len) capSlots (startAcquisition c s)).exceptAcquisition with idval := 0 } = _
  rw [h]

/-- The identifier is extracted from the packet the read leaves (R173). -/
theorem readId_idval (len : Nat) (s : State) :
    (readId c len s).idval = c.idExtract (readId c len s).pkt (readId c len s).pktlen.toNat len := rfl

@[simp] theorem readId_trig (len : Nat) (s : State) : (readId c len s).trig = false := rfl
@[simp] theorem readId_crit (len : Nat) (s : State) : (readId c len s).crit = false := rfl

/-- The events of ReadId (R141, R173): as an acquisition's, with trigger changes among the polls. -/
theorem readId_trace (len : Nat) (s : State) :
    ∃ ps, Trace s (readId c len s) ([.crit true, .trig true] ++ ps ++ [.trig false, .crit false]) ∧
      (∀ e ∈ ps, e.isPollOrTrig = true) ∧ 1 ≤ pollCount ps ∧
      pollCount ps ≤ 1 + c.tFirst.toNat + capSlots * (1 + c.tNext.toNat) := by
  obtain ⟨ps, h0, hp, h1, h2⟩ := startAcquisition_trace c s
  have hQ : ∀ e, Event.isPoll e = true → Event.isPollOrTrig e = true := by
    intro e; cases e <;> simp [Event.isPoll, Event.isPollOrTrig]
  obtain ⟨qs, hq, hqp, hqc⟩ := sampleLoop_trace c hQ (keep := 0b111) (Hook.toggle c len) capSlots
    (startAcquisition c s)
  refine ⟨ps ++ qs, ?_, ?_, ?_, ?_⟩
  · have h3 := (h0.trans hq).trans ((Trace.driveTrig _ false).trans (Trace.driveCrit _ false))
    have h4 := h3.of_eq (t' := readId c len s) rfl rfl rfl rfl
    simpa using h4
  · intro e he
    rcases List.mem_append.1 he with he | he
    · exact hQ e (hp e he)
    · exact hqp e he
  · rw [pollCount_append]; omega
  · rw [pollCount_append]; omega

/-- What ReadId leaves in the packet (R173). -/
theorem readId_packet (len : Nat) (s : State) (hh : s.hid = Hidden.dead) :
    (readId c len s).pktlen.toNat ≤ capSlots ∧ Memory.wf (readId c len s).pkt = true ∧
      (∀ i, (readId c len s).pktlen.toNat ≤ i → Memory.read (readId c len s).pkt i = 0) ∧
      (readId c len s).ferr = false ∧ (readId c len s).hid = Hidden.dead := by
  have h := sampleLoop_sampling c (Hook.toggle c len) capSlots (startAcquisition_sampling c 0b111 s hh)
  exact ⟨h.len, h.wf, h.beyond, h.ferr, h.hid⟩

/-- Detect() before its answer: nothing, or the cooldown and the secondary read (R172). -/
theorem detectRead_cases (s : State) :
    detectRead c s = s ∨ detectRead c s = readId c s.pktlen.toNat (coolDown c s) := by
  unfold detectRead
  split
  · exact Or.inl rfl
  · exact Or.inl rfl
  · exact Or.inr rfl

theorem readId_exceptDetection (len : Nat) (s : State) : (readId c len s).exceptDetection = s.exceptDetection := by
  have h := readId_frame c len s
  show { ({ (readId c len s).exceptAcquisition with idval := 0 } : State) with model := .unknown } = _
  rw [h]
  rfl

/-- The frame of a detection (R172, R176): what an acquisition changes, IDVAL and MODEL. -/
theorem detectInto_frame (s : State) : (detectInto c s).exceptDetection = s.exceptDetection := by
  show (detectRead c s).exceptDetection = _
  rcases detectRead_cases c s with h | h
  · rw [h]
  · rw [h, readId_exceptDetection]; rfl

/-- The events of a detection, said once (R172). -/
theorem detectInto_trace (s : State) : ∃ es, Trace s (detectInto c s) es ∧ IsDetection c s.pktlen.toNat es := by
  have hr : ∀ es, Trace s (detectRead c s) es → Trace s (detectInto c s) es := fun es h => h.of_eq rfl rfl rfl rfl
  unfold detectRead at hr
  unfold IsDetection
  cases h : c.lenTable s.pktlen.toNat with
  | noModel => rw [h] at hr; exact ⟨[], hr _ (Trace.refl s), rfl⟩
  | one m => rw [h] at hr; exact ⟨[], hr _ (Trace.refl s), rfl⟩
  | ambiguous d a =>
    rw [h] at hr
    obtain ⟨ps, hp, hq, h1, -⟩ := readId_trace c s.pktlen.toNat (coolDown c s)
    exact ⟨_, hr _ ((Trace.coolDown c s).trans hp), ps, rfl, hq, h1⟩

/-- A property of the packet buffer, the lines and the hidden state that ReadId establishes, a detection keeps. -/
theorem detectInto_leaves (s : State) (hh : s.hid = Hidden.dead) (ht : s.trig = false) (hc : s.crit = false)
    (hl : s.pktlen.toNat ≤ capSlots) (hw : Memory.wf s.pkt = true) :
    (detectInto c s).trig = false ∧ (detectInto c s).crit = false ∧ (detectInto c s).hid = Hidden.dead ∧
      (detectInto c s).pktlen.toNat ≤ capSlots ∧ Memory.wf (detectInto c s).pkt = true := by
  show (detectRead c s).trig = false ∧ (detectRead c s).crit = false ∧ (detectRead c s).hid = Hidden.dead ∧
      (detectRead c s).pktlen.toNat ≤ capSlots ∧ Memory.wf (detectRead c s).pkt = true
  rcases detectRead_cases c s with h | h
  · rw [h]; exact ⟨ht, hc, hh, hl, hw⟩
  · rw [h]
    obtain ⟨h1, h2, -, -, h5⟩ := readId_packet c s.pktlen.toNat (coolDown c s) hh
    exact ⟨rfl, rfl, h5, h1, h2⟩

end Sys2Proof.Machine
end

