-- ==== Sys2Proof/Laws/Policy.lean ====
section
/-! SUPPORT. What the policy does, said once each: an attempt and a round of Init(), an update cycle (44_policy.md). -/

namespace Sys2Proof.Machine

variable (c : Cfg)

theorem runDecode_cases (m : Model) (s : State) :
    (∃ j, decodePacket c m s.pkt s.pktlen.toNat = .ok j ∧ runDecode c m s = s.commit j ∧ decodeKind c m s = .noError) ∨
      (∃ e, decodePacket c m s.pkt s.pktlen.toNat = .error e ∧ runDecode c m s = s ∧ decodeKind c m s = e ∧
        e ≠ .noError ∧ e ≠ .illegalCommand ∧ e ≠ .framingError ∧ e ≠ .acquisitionTimeout) := by
  unfold runDecode decodeKind
  cases h : decodePacket c m s.pkt s.pktlen.toNat with
  | ok j => exact Or.inl ⟨j, rfl, rfl, rfl⟩
  | error e =>
    refine Or.inr ⟨e, rfl, rfl, rfl, ?_⟩
    unfold decodePacket at h
    split at h
    · cases h; simp
    · split at h
      · cases h; simp
      · unfold decodeBits at h
        split at h
        · cases h
        · cases h; simp

/-- The kinds an acquisition returns (R278). -/
theorem acqKind_cases (s : State) :
    acqKind s = .framingError ∧ s.ferr = true ∨ acqKind s = .acquisitionTimeout ∧ s.ferr = false ∧ s.pktlen = 0 ∨
      acqKind s = .noError ∧ s.ferr = false ∧ s.pktlen ≠ 0 := by
  unfold acqKind
  split
  · exact Or.inl ⟨rfl, ‹_›⟩
  · rename_i h
    split
    · exact Or.inr (Or.inl ⟨rfl, by simpa using h, ‹_›⟩)
    · exact Or.inr (Or.inr ⟨rfl, by simpa using h, ‹_›⟩)

/-- An attempt ends at the loop head with MODEL Unknown, or returns to the caller with MODEL known (R242). -/
theorem initAttempt_cases (k : InitCaller) (s : State) :
    (detectInto c (acquire c s)).model = .unknown ∧
        initAttempt c k s = { detectInto c (acquire c s) with seq := .initLoop k } ∨
      (detectInto c (acquire c s)).model ≠ .unknown ∧
        initAttempt c k s = (detectInto c (acquire c s)).leaveInit k := by
  unfold initAttempt initTest
  split
  · exact Or.inl ⟨‹_›, rfl⟩
  · exact Or.inr ⟨‹_›, rfl⟩

/-- An attempt of Init() leaves everything outside acquisition, IDVAL and MODEL (R242, R244). -/
theorem attempt_frame (s : State) : (detectInto c (acquire c s)).exceptDetection = s.exceptDetection := by
  rw [detectInto_frame]; exact exceptAcquisition_exceptDetection (acquire_frame c s)

/-- The events of an attempt of Init(), said once (R242). -/
theorem attempt_trace (s : State) :
    ∃ es, Trace s (detectInto c (acquire c s)) es ∧ IsAttempt c (acquire c s).pktlen.toNat es := by
  obtain ⟨ps, h, hp, h1⟩ := acquire_trace c s
  obtain ⟨es, he, hd⟩ := detectInto_trace c (acquire c s)
  exact ⟨_, h.trans he, ps, es, rfl, hp, h1, hd⟩

/-- The loop test and the return to the caller add no event and poll nothing (R242). -/
theorem initAttempt_trace (k : InitCaller) (s : State) :
    ∃ es, Trace s (initAttempt c k s) es ∧ IsAttempt c (acquire c s).pktlen.toNat es := by
  obtain ⟨es, h, ha⟩ := attempt_trace c s
  refine ⟨es, ?_, ha⟩
  have hc := initAttempt_cases c k s
  generalize detectInto c (acquire c s) = x at *
  rcases hc with ⟨-, e⟩ | ⟨-, e⟩ <;> rw [e]
  · exact h.of_eq rfl rfl rfl rfl
  · cases k <;> exact h.of_eq rfl rfl rfl rfl

theorem attempt_leaves (s : State) (hh : s.hid = Hidden.dead) :
    (detectInto c (acquire c s)).trig = false ∧ (detectInto c (acquire c s)).crit = false ∧
      (detectInto c (acquire c s)).hid = Hidden.dead ∧ (detectInto c (acquire c s)).pktlen.toNat ≤ capSlots ∧
      Memory.wf (detectInto c (acquire c s)).pkt = true := by
  obtain ⟨h1, h2, h3, h4, h5⟩ := acquire_leaves c s hh
  exact detectInto_leaves c _ h3 h1 h2 h4 h5

/-- The mode switch of a round, or nothing (R242). -/
theorem initSwitch_cases (s : State) :
    s.pktlen.toNat < c.modeswBelow ∧ initSwitch c s = modeSwitch c (coolDown c s) ∨
      c.modeswBelow ≤ s.pktlen.toNat ∧ initSwitch c s = s := by
  unfold initSwitch
  split
  · exact Or.inl ⟨‹_›, rfl⟩
  · exact Or.inr ⟨by omega, rfl⟩

theorem initSwitch_frame (s : State) : (initSwitch c s).exceptAcquisition = s.exceptAcquisition := by
  rcases initSwitch_cases c s with ⟨-, h⟩ | ⟨-, h⟩
  · rw [h, modeSwitch_frame]; rfl
  · rw [h]

/-- The events before a round's attempt, said once (R242): the mode switch's exactly below MODESW_BELOW slots. -/
theorem initSwitch_trace (s : State) :
    ∃ es, Trace s (initSwitch c s) es ∧
      (s.pktlen.toNat < c.modeswBelow →
        es = .delay c.cooldownUs :: ([.crit true] ++ modeswEvents c c.modeswSeq ++ [.crit false])) ∧
      (c.modeswBelow ≤ s.pktlen.toNat → es = []) := by
  rcases initSwitch_cases c s with ⟨hl, h⟩ | ⟨hl, h⟩
  · exact ⟨_, h ▸ (Trace.coolDown c s).trans (modeSwitch_trace c _), fun _ => rfl, fun g => absurd g (by omega)⟩
  · exact ⟨[], by rw [h]; exact Trace.refl s, fun g => absurd g (by omega), fun _ => rfl⟩

theorem initSwitch_hid (s : State) (hh : s.hid = Hidden.dead) : (initSwitch c s).hid = Hidden.dead := by
  rcases initSwitch_cases c s with ⟨-, h⟩ | ⟨-, h⟩
  · rw [h, modeSwitch_eq]
    show ({ s.hid with modeIdx := 0 } : Hidden) = _
    rw [hh]
  · rw [h, hh]

/-- The update cycle's decode commits or leaves the state (R245, R34). -/
theorem cycleDecode_cases (s : State) :
    (∃ j, acqKind s = .noError ∧ decodePacket c s.model s.pkt s.pktlen.toNat = .ok j ∧ cycleDecode c s = s.commit j ∧
        cycleKind c s = .noError) ∨
      (cycleDecode c s = s ∧ cycleKind c s ≠ .noError ∧ cycleKind c s ≠ .illegalCommand) := by
  unfold cycleDecode cycleKind
  rcases acqKind_cases s with ⟨h, -⟩ | ⟨h, -⟩ | ⟨h, -⟩
  · rw [h]; exact Or.inr ⟨by simp, by simp, by simp⟩
  · rw [h]; exact Or.inr ⟨by simp, by simp, by simp⟩
  · rw [if_pos h, if_pos h]
    rcases runDecode_cases c s.model s with ⟨j, h1, h2, h3⟩ | ⟨e, -, h2, h3, h4, h5, -⟩
    · exact Or.inl ⟨j, h, h1, h2, h3⟩
    · exact Or.inr ⟨h2, by rw [h3]; exact h4, by rw [h3]; exact h5⟩

/-- The accounting of a cycle (R245, R248). -/
theorem account_ok (s : State) : s.account .noError = { s with lasterr := .noError, errcnt := 0, ok := true } := rfl

theorem account_fail {e : ErrKind} (h : e ≠ .noError) (s : State) :
    s.account e = { s with lasterr := e, errcnt := s.errcnt + 1, ok := false } := by
  unfold State.account; rw [if_neg h]; rfl

/-- One update cycle said once (R245): a success commits the decoded state and clears ERRCNT; a failure counts and leaves
the joystick state. -/
theorem updateCycle_cases (s : State) :
    (∃ j, decodePacket c s.model (acquire c s.beginUpdate).pkt (acquire c s.beginUpdate).pktlen.toNat = .ok j ∧
        acqKind (acquire c s.beginUpdate) = .noError ∧
        updateCycle c s = { (acquire c s.beginUpdate).commit j with lasterr := .noError, errcnt := 0, ok := true }) ∨
      (∃ e, e ≠ .noError ∧ e ≠ .illegalCommand ∧ cycleKind c (acquire c s.beginUpdate) = e ∧
        updateCycle c s = { acquire c s.beginUpdate with lasterr := e, errcnt := s.errcnt + 1, ok := false }) := by
  have hf := acquire_frame c s.beginUpdate
  have hm : (acquire c s.beginUpdate).model = s.model := by have h := congrArg State.model hf; exact h
  have he : (acquire c s.beginUpdate).errcnt = s.errcnt := by have h := congrArg State.errcnt hf; exact h
  unfold updateCycle
  rcases cycleDecode_cases c (acquire c s.beginUpdate) with ⟨j, h1, h2, h3, h4⟩ | ⟨h1, h2, h3⟩
  · refine Or.inl ⟨j, hm ▸ h2, h1, ?_⟩
    simp only [h3, h4, account_ok]
  · refine Or.inr ⟨_, h2, h3, rfl, ?_⟩
    simp only [h1, account_fail h2, he]

/-- A detection leaves the joystick state, ERRCNT, the report, RESULT, SEQ and the reset input (the frame, field by field). -/
theorem exceptDetection_fields {s t : State} (h : t.exceptDetection = s.exceptDetection) :
    t.joystick = s.joystick ∧ t.errcnt = s.errcnt ∧ t.ok = s.ok ∧ t.rst = s.rst ∧ t.lasterr = s.lasterr ∧
      t.redet = s.redet ∧ t.ill = s.ill ∧ t.seq = s.seq ∧ t.result = s.result := by
  have ha : t.axis = s.axis := by have a := congrArg State.axis h; exact a
  have hh : t.hat = s.hat := by have a := congrArg State.hat h; exact a
  have hb : t.buttons = s.buttons := by have a := congrArg State.buttons h; exact a
  have hv : t.valid = s.valid := by have a := congrArg State.valid h; exact a
  refine ⟨by unfold State.joystick; rw [ha, hh, hb, hv], ?_, ?_, ?_, ?_, ?_, ?_, ?_, ?_⟩
  · have a := congrArg State.errcnt h; exact a
  · have a := congrArg State.ok h; exact a
  · have a := congrArg State.rst h; exact a
  · have a := congrArg State.lasterr h; exact a
  · have a := congrArg State.redet h; exact a
  · have a := congrArg State.ill h; exact a
  · have a := congrArg State.seq h; exact a
  · have a := congrArg State.result h; exact a

/-- An acquisition leaves those fields too. -/
theorem exceptAcquisition_fields {s t : State} (h : t.exceptAcquisition = s.exceptAcquisition) :
    t.joystick = s.joystick ∧ t.errcnt = s.errcnt ∧ t.ok = s.ok ∧ t.rst = s.rst ∧ t.lasterr = s.lasterr ∧
      t.redet = s.redet ∧ t.ill = s.ill ∧ t.seq = s.seq ∧ t.result = s.result :=
  exceptDetection_fields (exceptAcquisition_exceptDetection h)

/-- An attempt of Init() leaves the joystick state, ERRCNT and the reset input, whoever called it (R242, R244). -/
theorem initAttempt_keeps (k : InitCaller) (s : State) :
    (initAttempt c k s).joystick = s.joystick ∧ (initAttempt c k s).errcnt = s.errcnt ∧
      (initAttempt c k s).rst = s.rst := by
  obtain ⟨hj, he, -, hr, -⟩ := exceptDetection_fields (attempt_frame c s)
  have hc := initAttempt_cases c k s
  generalize detectInto c (acquire c s) = x at *
  rcases hc with ⟨-, e⟩ | ⟨-, e⟩ <;> rw [e]
  · exact ⟨hj, he, hr⟩
  · cases k <;> exact ⟨hj, he, hr⟩

@[simp] theorem leaveInit_exceptInit (k : InitCaller) (s : State) : (s.leaveInit k).exceptInit = s.exceptInit := by
  cases k <;> rfl
@[simp] theorem loopInit_exceptInit (k : InitCaller) (s : State) : (s.loopInit k).exceptInit = s.exceptInit := rfl
@[simp] theorem enterInit_exceptInit (s : State) : s.enterInit.exceptInit = s.exceptInit := rfl
@[simp] theorem beginUpdate_exceptInit (s : State) : s.beginUpdate.exceptInit = s.exceptInit := rfl
@[simp] theorem setResult_exceptInit (v : BitVec 16) (s : State) : (s.setResult v).exceptInit = s.exceptInit := rfl
@[simp] theorem setResult_exceptCycle (v : BitVec 16) (s : State) : (s.setResult v).exceptCycle = s.exceptCycle := rfl

/-- The frame of an attempt of Init(), whoever called it (R242, R244). -/
theorem initAttempt_exceptInit (k : InitCaller) (s : State) : (initAttempt c k s).exceptInit = s.exceptInit := by
  have hf : (detectInto c (acquire c s)).exceptInit = s.exceptInit := by
    unfold State.exceptInit; rw [attempt_frame]
  unfold initAttempt initTest
  split
  · rw [loopInit_exceptInit, hf]
  · rw [leaveInit_exceptInit, hf]

/-- An attempt ends with both outputs low (R141). -/
theorem initAttempt_outputs (k : InitCaller) (s : State) (hh : s.hid = Hidden.dead) :
    (initAttempt c k s).trig = false ∧ (initAttempt c k s).crit = false := by
  obtain ⟨ht, hc, -⟩ := attempt_leaves c s hh
  have h := initAttempt_cases c k s
  generalize detectInto c (acquire c s) = x at *
  rcases h with ⟨-, e⟩ | ⟨-, e⟩ <;> rw [e]
  · exact ⟨ht, hc⟩
  · cases k <;> exact ⟨ht, hc⟩

/-- What an update cycle leaves besides what `updateCycle_cases` says (R245): its frame, both outputs low, IDVAL; a
success holds the joystick state decoded from the packet it leaves. -/
theorem updateCycle_leaves (s : State) (hh : s.hid = Hidden.dead) :
    (updateCycle c s).exceptCycle = s.exceptCycle ∧ (updateCycle c s).trig = false ∧ (updateCycle c s).crit = false ∧
      (updateCycle c s).hid = Hidden.dead ∧ (updateCycle c s).idval = s.idval ∧
      ((updateCycle c s).ok = true →
        ∃ j, decodePacket c s.model (updateCycle c s).pkt (updateCycle c s).pktlen.toNat = .ok j ∧
          (updateCycle c s).axis = j.axis ∧ (updateCycle c s).hat = j.hat ∧ (updateCycle c s).buttons = j.buttons) ∧
      ((updateCycle c s).ok = false → (updateCycle c s).exceptInit = s.exceptInit) := by
  obtain ⟨h1, h2, h3, -⟩ := acquire_leaves c s.beginUpdate hh
  have hf := acquire_frame c s.beginUpdate
  have hcc := updateCycle_cases c s
  generalize acquire c s.beginUpdate = x at *
  have hi : x.idval = s.idval := by have a := congrArg State.idval hf; exact a
  have hx : x.exceptAcquisition.exceptOutcome.exceptCount.exceptJoystick = s.exceptCycle := by rw [hf]; rfl
  have hy : x.exceptDetection.exceptOutcome.exceptCount = s.exceptInit := by
    rw [exceptAcquisition_exceptDetection hf]; rfl
  rcases hcc with ⟨j, g, -, e⟩ | ⟨k, -, -, -, e⟩ <;> rw [e]
  · exact ⟨hx, h1, h2, h3, hi, fun _ => ⟨j, g, rfl, rfl, rfl⟩, fun h => by (cases h)⟩
  · exact ⟨hx, h1, h2, h3, hi, fun h => by (cases h), fun _ => hy⟩

end Sys2Proof.Machine
end

