-- ==== Sys2Proof/Laws/Blind.lean ====
section
/-! SUPPORT. Every procedure commutes with a change of what it neither reads nor counts: the earlier event history and the
words that wait at the port (10_state.md rule R47, 30_encoding.md rule R97). -/

namespace Sys2Proof.Machine

/-- The state with the events `h` put before its history and with other words waiting at the port. -/
def State.relabel (h : List Event) (ws : List Word) (s : State) : State := { s with evt := h ++ s.evt, cmds := ws }

/-- A procedure that commutes with every relabelling. -/
def Blind (f : State → State) : Prop := ∀ h ws s, f (s.relabel h ws) = (f s).relabel h ws

section
variable (h : List Event) (ws : List Word) (s : State)

@[simp] theorem State.relabel_hid : (s.relabel h ws).hid = s.hid := rfl
@[simp] theorem State.relabel_tmo : (s.relabel h ws).tmo = s.tmo := rfl
@[simp] theorem State.relabel_lastin : (s.relabel h ws).lastin = s.lastin := rfl
@[simp] theorem State.relabel_pkt : (s.relabel h ws).pkt = s.pkt := rfl
@[simp] theorem State.relabel_pktlen : (s.relabel h ws).pktlen = s.pktlen := rfl
@[simp] theorem State.relabel_model : (s.relabel h ws).model = s.model := rfl
@[simp] theorem State.relabel_idval : (s.relabel h ws).idval = s.idval := rfl
@[simp] theorem State.relabel_ok : (s.relabel h ws).ok = s.ok := rfl
@[simp] theorem State.relabel_ferr : (s.relabel h ws).ferr = s.ferr := rfl
@[simp] theorem State.relabel_lasterr : (s.relabel h ws).lasterr = s.lasterr := rfl
@[simp] theorem State.relabel_errcnt : (s.relabel h ws).errcnt = s.errcnt := rfl

end

theorem Blind.id : Blind id := fun _ _ _ => rfl

theorem Blind.comp {f g : State → State} (hf : Blind f) (hg : Blind g) : Blind fun s => f (g s) :=
  fun h ws s => (congrArg f (hg h ws s)).trans (hf h ws (g s))

theorem Blind.poll : Blind State.poll := by
  intro h ws s
  unfold State.poll State.takeAnswer State.nextAnswer State.relabel
  cases s.feed <;> simp

theorem Blind.driveTrig (l : Bool) : Blind (State.driveTrig l) := fun h ws s => by
  simp [State.driveTrig, State.relabel]
theorem Blind.driveCrit (l : Bool) : Blind (State.driveCrit l) := fun h ws s => by
  simp [State.driveCrit, State.relabel]
theorem Blind.pause (u : Nat) : Blind (State.pause u) := fun h ws s => by
  simp [State.pause, State.log, State.relabel]
theorem Blind.setLast (b : Bool) : Blind (State.setLast b) := fun _ _ _ => rfl
theorem Blind.setTmo (v : Timeout) : Blind (State.setTmo v) := fun _ _ _ => rfl

theorem Blind.waitEdgeLoop (l : Line) (d : Dir) (n : Nat) : Blind (waitEdgeLoop l d n) := by
  intro h ws s
  induction n generalizing s with
  | zero => rfl
  | succ n ih =>
    simp only [Machine.waitEdgeLoop, Blind.poll h ws s, State.relabel_lastin, State.relabel_hid, State.relabel_tmo]
    split
    · rfl
    · exact ih ((s.poll.setLast (lineLevel l s.poll.lastin)).setTmo (s.tmo - 1))

theorem Blind.waitLevelLoop (l : Line) (b : Bool) (n : Nat) : Blind (waitLevelLoop l b n) := by
  intro h ws s
  induction n generalizing s with
  | zero => rfl
  | succ n ih =>
    simp only [Machine.waitLevelLoop, Blind.poll h ws s, State.relabel_lastin, State.relabel_tmo]
    split
    · rfl
    · exact ih (s.poll.setTmo (s.tmo - 1))

theorem Blind.waitEdge (l : Line) (d : Dir) (n : Timeout) : Blind (waitEdge l d n) := by
  intro h ws s
  unfold Machine.waitEdge
  simp only [Blind.poll h ws s, State.relabel_lastin]
  rw [Blind.setLast, Blind.setTmo, Blind.waitEdgeLoop, Blind.setLast]

theorem Blind.waitLevel (l : Line) (b : Bool) (n : Timeout) : Blind (waitLevel l b n) := by
  intro h ws s
  unfold Machine.waitLevel
  rw [Blind.setTmo, Blind.waitLevelLoop]

theorem Blind.sampleLoop (c : Cfg) (keep : Slot) {after : State → State} (ha : Blind after) (n : Nat) :
    Blind (sampleLoop c keep after n) := by
  intro h ws s
  induction n generalizing s with
  | zero => rfl
  | succ n ih =>
    simp only [Machine.sampleLoop, State.relabel_tmo, State.relabel_pktlen, Blind.waitEdge _ _ _ h ws s,
      State.relabel_lastin]
    split
    · rfl
    · split
      · rfl
      · rw [← ih]; congr 1
        exact ha h ws ((Machine.waitEdge .clk c.sampleDir c.tNext s).appendSlot _)

theorem Blind.startAcquisition (c : Cfg) : Blind (startAcquisition c) := by
  intro h ws s
  unfold Machine.startAcquisition
  rw [← Blind.waitEdge, ← Blind.driveTrig, ← Blind.driveCrit]; rfl

theorem Blind.endAcquisition : Blind State.endAcquisition := by
  intro h ws s
  unfold State.endAcquisition
  rw [Blind.driveTrig, Blind.driveCrit]

theorem Blind.acqSerial (c : Cfg) (keep : Slot) : Blind (acqSerial c keep) := by
  intro h ws s
  unfold Machine.acqSerial
  rw [Blind.startAcquisition, Blind.sampleLoop c keep Blind.id, Blind.endAcquisition]

theorem Blind.takeBit (b : Bool) : Blind (State.takeBit b) := by
  have hc : ∀ base sh k n, Blind (State.commitBits base sh k n) := by
    intro base sh k n h ws
    induction n generalizing k with
    | zero => intro s; rfl
    | succ n ih => intro s; exact ih (k + 1) (s.writeSlot (base + k) ((BitVec.ofBool (sh.getLsbD k)).setWidth 3))
  intro h ws s
  unfold State.takeBit
  simp only [State.relabel_hid, State.relabel_pktlen, hc _ _ _ _ h ws s]
  split
  · split <;> rfl
  · split
    · rfl
    · split <;> rfl

theorem Blind.byteLoop (c : Cfg) (n : Nat) : Blind (byteLoop c n) := by
  intro h ws s
  induction n generalizing s with
  | zero => rfl
  | succ n ih =>
    simp only [Machine.byteLoop, State.relabel_tmo, State.relabel_hid, State.relabel_pktlen,
      Blind.waitEdge _ _ _ h ws s, State.relabel_lastin, Blind.takeBit _ h ws _]
    split
    · rfl
    · split
      · rfl
      · exact ih _

theorem Blind.acqByte (c : Cfg) : Blind (acqByte c) := by
  have hs : Blind State.startBytes := fun _ _ _ => rfl
  have hc : Blind State.closeBytes := by
    intro h ws s
    show (if s.hid.ferr then _ else _) = State.relabel h ws (if s.hid.ferr then _ else _)
    split <;> rfl
  intro h ws s
  unfold Machine.acqByte
  rw [Blind.startAcquisition, hs, Blind.byteLoop, Blind.endAcquisition, hc]

theorem Blind.modeSwitch (c : Cfg) : Blind (modeSwitch c) := by
  intro h ws s
  rw [modeSwitch_eq, modeSwitch_eq]
  simp [State.relabel]

theorem Blind.coolDown (c : Cfg) : Blind (coolDown c) := Blind.pause _

theorem Blind.acquire (c : Cfg) : Blind (acquire c) := by
  intro h ws s
  unfold Machine.acquire
  rw [Blind.coolDown]
  split
  · exact Blind.acqSerial c _ h ws _
  · exact Blind.acqSerial c _ h ws _
  · exact Blind.acqByte c h ws _

theorem Blind.toggleTrig (c : Cfg) (len : Nat) : Blind (toggleTrig c len) := by
  intro h ws s
  unfold Machine.toggleTrig
  have h1 : (if s.pktlen.toNat = c.idPos1 len then (s.relabel h ws).driveTrig false else s.relabel h ws) =
      (if s.pktlen.toNat = c.idPos1 len then s.driveTrig false else s).relabel h ws := by
    split
    · exact Blind.driveTrig false h ws s
    · rfl
  show (if s.pktlen.toNat = c.idPos2 len then
      State.driveTrig true (if s.pktlen.toNat = c.idPos1 len then (s.relabel h ws).driveTrig false else s.relabel h ws)
    else if s.pktlen.toNat = c.idPos1 len then (s.relabel h ws).driveTrig false else s.relabel h ws) = _
  rw [h1]
  split
  · exact Blind.driveTrig true h ws _
  · rfl

theorem Blind.readId (c : Cfg) (len : Nat) : Blind (readId c len) := by
  intro h ws s
  unfold Machine.readId
  rw [Blind.startAcquisition, Blind.sampleLoop c _ (Blind.toggleTrig c len), Blind.endAcquisition]
  rfl

theorem Blind.detectInto (c : Cfg) : Blind (detectInto c) := by
  have hr : Blind (detectRead c) := by
    intro h ws s
    unfold detectRead
    simp only [State.relabel_pktlen, Blind.coolDown c h ws s, Blind.readId c _ h ws _]
    split <;> rfl
  intro h ws s
  unfold Machine.detectInto
  simp only [hr h ws s, State.relabel_pktlen, State.relabel_idval]
  rfl

theorem Blind.runDecode (c : Cfg) (m : Model) : Blind (runDecode c m) := by
  intro h ws s
  unfold Machine.runDecode
  simp only [State.relabel_pkt, State.relabel_pktlen]
  split <;> rfl

theorem Blind.initAttempt (c : Cfg) (k : InitCaller) : Blind (initAttempt c k) := by
  have ht : Blind (initTest k) := by
    intro h ws s
    by_cases hm : s.model = .unknown
    · unfold initTest; rw [if_pos hm, if_pos (show (s.relabel h ws).model = _ from hm)]; rfl
    · unfold initTest; rw [if_neg hm, if_neg (show ¬ (s.relabel h ws).model = _ from hm)]; cases k <;> rfl
  exact ht.comp ((Blind.detectInto c).comp (Blind.acquire c))

theorem Blind.initRound (c : Cfg) (k : InitCaller) : Blind (initRound c k) := by
  have hs : Blind (initSwitch c) := by
    intro h ws s
    unfold initSwitch
    simp only [State.relabel_pktlen, Blind.coolDown c h ws s, Blind.modeSwitch c h ws _]
    split <;> rfl
  exact (Blind.initAttempt c k).comp hs

theorem Blind.startInit (c : Cfg) (k : InitCaller) : Blind (startInit c k) :=
  (Blind.initAttempt c k).comp (g := State.enterInit) fun _ _ _ => rfl

theorem Blind.updateCycle (c : Cfg) : Blind (updateCycle c) := by
  have ha : ∀ e, Blind (State.account e) := by
    intro e h ws s; unfold State.account; split <;> rfl
  intro h ws s
  have hb : (s.relabel h ws).beginUpdate = s.beginUpdate.relabel h ws := rfl
  have hd : ∀ t : State, cycleDecode c (t.relabel h ws) = (cycleDecode c t).relabel h ws := by
    intro t
    unfold cycleDecode
    have : acqKind (t.relabel h ws) = acqKind t := rfl
    rw [this]
    split
    · exact Blind.runDecode c _ h ws t
    · rfl
  unfold Machine.updateCycle
  simp only [hb, Blind.acquire c h ws _, hd]
  exact ha _ h ws _

theorem Blind.runUpdate (c : Cfg) : Blind (runUpdate c) := by
  intro h ws s
  unfold Machine.runUpdate
  have hb : (s.relabel h ws).beginUpdate = s.beginUpdate.relabel h ws := rfl
  simp only [State.relabel_model, hb, Blind.startInit c .updateUnknown h ws s.beginUpdate,
    Blind.startInit c .updateEscalated h ws (Machine.updateCycle c s), Blind.updateCycle c h ws s]
  have he : escalates c ((Machine.updateCycle c s).relabel h ws) = escalates c (Machine.updateCycle c s) := rfl
  rw [he]
  split
  · rfl
  · split <;> rfl

theorem Blind.report {f : State → State} (hf : Blind f) (v : State → BitVec 16) (e : State → ErrKind)
    (hv : ∀ h ws s, v (s.relabel h ws) = v s) (he : ∀ h ws s, e (s.relabel h ws) = e s) :
    Blind fun s => ((f s).setResult (v (f s))).complete (e (f s)) := by
  intro h ws s
  simp only [hf h ws s, hv, he]
  rfl

theorem Blind.decodeWith (c : Cfg) (m : Model) : Blind (decodeWith c m) := by
  intro h ws s
  unfold Machine.decodeWith
  rw [Blind.runDecode]
  rfl

/-- Every operation runs blind to the earlier history and to the waiting words, under any configuration. -/
theorem opIn_blind (c : Cfg) (i : Instr) : Blind (opIn c i) := by
  cases i with
  | nop => exact fun _ _ _ => rfl
  | rdlvl l =>
    exact Blind.report Blind.poll (fun s => bit16 (lineLevel l s.lastin)) (fun _ => .noError)
      (fun _ _ _ => rfl) (fun _ _ _ => rfl)
  | settrig l => exact Blind.comp (f := State.complete _) (fun _ _ _ => rfl) (Blind.driveTrig l)
  | pulse u =>
    exact Blind.comp (f := State.complete _) (fun _ _ _ => rfl)
      ((Blind.driveTrig false).comp ((Blind.pause u.toNat).comp (Blind.driveTrig true)))
  | waitedge l d n =>
    exact Blind.report (Blind.waitEdge l d n) State.tmo waitKind (fun _ _ _ => rfl) (fun _ _ _ => rfl)
  | waitlvl l b n =>
    exact Blind.report (Blind.waitLevel l b n) State.tmo waitKind (fun _ _ _ => rfl) (fun _ _ _ => rfl)
  | acqs =>
    exact Blind.report (Blind.acqSerial c _) (fun s => s.pktlen.setWidth 16) acqKind
      (fun _ _ _ => rfl) (fun _ _ _ => rfl)
  | acqt =>
    exact Blind.report (Blind.acqSerial c _) (fun s => s.pktlen.setWidth 16) acqKind
      (fun _ _ _ => rfl) (fun _ _ _ => rfl)
  | acqb =>
    exact Blind.report (Blind.acqByte c) (fun s => s.pktlen.setWidth 16) acqKind
      (fun _ _ _ => rfl) (fun _ _ _ => rfl)
  | modesw => exact Blind.comp (f := State.complete _) (fun _ _ _ => rfl) (Blind.modeSwitch c)
  | cooldown => exact Blind.comp (f := State.complete _) (fun _ _ _ => rfl) (Blind.coolDown c)
  | readid len =>
    exact Blind.report (Blind.readId c len.toNat) State.idval (fun _ => .noError) (fun _ _ _ => rfl) (fun _ _ _ => rfl)
  | detect =>
    exact Blind.report (Blind.detectInto c) (fun s => (modelCode s.model).setWidth 16) detectKind
      (fun _ _ _ => rfl) (fun _ _ _ => rfl)
  | init => exact Blind.startInit c _
  | update => exact Blind.runUpdate c
  | decode =>
    intro h ws s
    exact Blind.decodeWith c s.model h ws s
  | decGp => exact Blind.decodeWith c _
  | dec3dp => exact Blind.decodeWith c _
  | decPp => exact Blind.decodeWith c _
  | decFfp => exact Blind.decodeWith c _
  | decFfw => exact Blind.decodeWith c _
  | rdreg a => exact fun _ _ _ => rfl
  | hatnib n => exact fun _ _ _ => rfl
  | wrslot i v => exact fun _ _ _ => rfl
  | setlen n => exact fun _ _ _ => rfl

/-- Every operation of the machine runs blind to the earlier history and to the waiting words. -/
theorem exec_blind (i : Instr) (h : List Event) (ws : List Word) (s : State) :
    ∃ t, exec i s = .next t ∧ exec i (s.relabel h ws) = .next (t.relabel h ws) :=
  ⟨_, exec_eq i s, by rw [exec_eq, opIn_blind]⟩

end Sys2Proof.Machine
end

