-- ==== Sys2Proof/Laws/Encoding.lean ====
section
/-! SUPPORT. The fields of a command word put together from OP, SUB and IMM (30_encoding.md rule R81). -/

namespace Sys2Proof

theorem mkWord_toNat (op sub : BitVec 4) (imm : BitVec 16) :
    (mkWord op sub imm).toNat = op.toNat * 2 ^ 28 + sub.toNat * 2 ^ 24 + imm.toNat := by
  unfold mkWord
  have h1 := op.isLt
  have h2 := sub.isLt
  have h3 := imm.isLt
  have h0 : (0 : BitVec 8).toNat = 0 := rfl
  rw [BitVec.toNat_append, BitVec.toNat_append, BitVec.toNat_append, h0, Nat.or_zero]
  rw [← Nat.shiftLeft_add_eq_or_of_lt h3, ← Nat.shiftLeft_add_eq_or_of_lt h2]
  simp only [Nat.shiftLeft_eq]
  omega

@[simp] theorem op_mkWord (op sub : BitVec 4) (imm : BitVec 16) : Word.op (mkWord op sub imm) = op := by
  apply BitVec.eq_of_toNat_eq
  have h1 := op.isLt; have h2 := sub.isLt; have h3 := imm.isLt
  rw [Word.op, BitVec.extractLsb'_toNat, mkWord_toNat, Nat.shiftRight_eq_div_pow]
  omega

@[simp] theorem sub_mkWord (op sub : BitVec 4) (imm : BitVec 16) : Word.sub (mkWord op sub imm) = sub := by
  apply BitVec.eq_of_toNat_eq
  have h1 := op.isLt; have h2 := sub.isLt; have h3 := imm.isLt
  rw [Word.sub, BitVec.extractLsb'_toNat, mkWord_toNat, Nat.shiftRight_eq_div_pow]
  omega

@[simp] theorem rsv_mkWord (op sub : BitVec 4) (imm : BitVec 16) : Word.rsv (mkWord op sub imm) = 0 := by
  apply BitVec.eq_of_toNat_eq
  have h1 := op.isLt; have h2 := sub.isLt; have h3 := imm.isLt
  rw [Word.rsv, BitVec.extractLsb'_toNat, mkWord_toNat, Nat.shiftRight_eq_div_pow]
  show _ = 0
  omega

@[simp] theorem imm_mkWord (op sub : BitVec 4) (imm : BitVec 16) : Word.imm (mkWord op sub imm) = imm := by
  apply BitVec.eq_of_toNat_eq
  have h1 := op.isLt; have h2 := sub.isLt; have h3 := imm.isLt
  rw [Word.imm, BitVec.extractLsb'_toNat, mkWord_toNat, Nat.shiftRight_eq_div_pow]
  omega

/-- A word is its fields when RSV is 0. -/
theorem mkWord_fields (w : Word) (h : Word.rsv w = 0) : mkWord (Word.op w) (Word.sub w) (Word.imm w) = w := by
  apply BitVec.eq_of_toNat_eq
  have hw := w.isLt
  have hr := congrArg BitVec.toNat h
  rw [mkWord_toNat]
  rw [Word.rsv, BitVec.extractLsb'_toNat, Nat.shiftRight_eq_div_pow] at hr
  rw [Word.op, Word.sub, Word.imm, BitVec.extractLsb'_toNat, BitVec.extractLsb'_toNat, BitVec.extractLsb'_toNat,
    Nat.shiftRight_eq_div_pow, Nat.shiftRight_eq_div_pow, Nat.shiftRight_eq_div_pow]
  replace hr : w.toNat / 2 ^ 16 % 2 ^ 8 = 0 := hr
  omega

@[simp] theorem Line.ofCode_code (l : Line) : Line.ofCode l.code = l := by cases l <;> rfl

@[simp] theorem Dir.ofCode_code (d : Dir) : Dir.ofCode d.code = some d := by cases d <;> rfl

end Sys2Proof
end

