-- ==== Sys2Proof/Laws/PerInstr.lean ====
section
/-! SUPPORT. Lemmas stated once per constructor of Instr. Family RowBits: the encoded word has the OP of the instruction's
row and RSV = 0 (30_encoding.md rules R83, R96). -/

namespace Sys2Proof.Laws

/-- The OP field of the instruction's row in rule R83. -/
def rowOp (i : Instr) : BitVec 4 :=
  match i with
  | .nop => 0x0
  | .rdlvl _ => 0x1
  | .settrig _ => 0x2
  | .pulse _ => 0x3
  | .waitedge _ _ _ => 0x4
  | .waitlvl _ _ _ => 0x5
  | .acqs | .acqt | .acqb => 0x6
  | .modesw => 0x7
  | .cooldown => 0x8
  | .readid _ => 0x9
  | .detect => 0xA
  | .decode | .decGp | .dec3dp | .decPp | .decFfp | .decFfw => 0xB
  | .init => 0xC
  | .update => 0xD
  | .rdreg _ => 0xE
  | .hatnib _ | .wrslot _ _ | .setlen _ => 0xF

/-- The word an instruction encodes to has its row's OP and no reserved bit set. -/
def RowBits.Statement (i : Instr) : Prop := Word.op (encode i) = rowOp i ∧ Word.rsv (encode i) = 0

theorem RowBits.nop : RowBits.Statement .nop := ⟨op_mkWord _ _ _, rsv_mkWord _ _ _⟩
theorem RowBits.rdlvl (l : Line) : RowBits.Statement (.rdlvl l) := ⟨op_mkWord _ _ _, rsv_mkWord _ _ _⟩
theorem RowBits.settrig (b : Bool) : RowBits.Statement (.settrig b) := ⟨op_mkWord _ _ _, rsv_mkWord _ _ _⟩
theorem RowBits.pulse (u : BitVec 16) : RowBits.Statement (.pulse u) := ⟨op_mkWord _ _ _, rsv_mkWord _ _ _⟩
theorem RowBits.waitedge (l : Line) (d : Dir) (t : Timeout) : RowBits.Statement (.waitedge l d t) := ⟨op_mkWord _ _ _, rsv_mkWord _ _ _⟩
theorem RowBits.waitlvl (l : Line) (b : Bool) (t : Timeout) : RowBits.Statement (.waitlvl l b t) := ⟨op_mkWord _ _ _, rsv_mkWord _ _ _⟩
theorem RowBits.acqs : RowBits.Statement .acqs := ⟨op_mkWord _ _ _, rsv_mkWord _ _ _⟩
theorem RowBits.acqt : RowBits.Statement .acqt := ⟨op_mkWord _ _ _, rsv_mkWord _ _ _⟩
theorem RowBits.acqb : RowBits.Statement .acqb := ⟨op_mkWord _ _ _, rsv_mkWord _ _ _⟩
theorem RowBits.modesw : RowBits.Statement .modesw := ⟨op_mkWord _ _ _, rsv_mkWord _ _ _⟩
theorem RowBits.cooldown : RowBits.Statement .cooldown := ⟨op_mkWord _ _ _, rsv_mkWord _ _ _⟩
theorem RowBits.readid (n : BitVec 8) : RowBits.Statement (.readid n) := ⟨op_mkWord _ _ _, rsv_mkWord _ _ _⟩
theorem RowBits.detect : RowBits.Statement .detect := ⟨op_mkWord _ _ _, rsv_mkWord _ _ _⟩
theorem RowBits.decode : RowBits.Statement .decode := ⟨op_mkWord _ _ _, rsv_mkWord _ _ _⟩
theorem RowBits.decGp : RowBits.Statement .decGp := ⟨op_mkWord _ _ _, rsv_mkWord _ _ _⟩
theorem RowBits.dec3dp : RowBits.Statement .dec3dp := ⟨op_mkWord _ _ _, rsv_mkWord _ _ _⟩
theorem RowBits.decPp : RowBits.Statement .decPp := ⟨op_mkWord _ _ _, rsv_mkWord _ _ _⟩
theorem RowBits.decFfp : RowBits.Statement .decFfp := ⟨op_mkWord _ _ _, rsv_mkWord _ _ _⟩
theorem RowBits.decFfw : RowBits.Statement .decFfw := ⟨op_mkWord _ _ _, rsv_mkWord _ _ _⟩
theorem RowBits.init : RowBits.Statement .init := ⟨op_mkWord _ _ _, rsv_mkWord _ _ _⟩
theorem RowBits.update : RowBits.Statement .update := ⟨op_mkWord _ _ _, rsv_mkWord _ _ _⟩
theorem RowBits.rdreg (a : BitVec 8) : RowBits.Statement (.rdreg a) := ⟨op_mkWord _ _ _, rsv_mkWord _ _ _⟩
theorem RowBits.hatnib (n : BitVec 4) : RowBits.Statement (.hatnib n) := ⟨op_mkWord _ _ _, rsv_mkWord _ _ _⟩
theorem RowBits.wrslot (i : BitVec 7) (v : Slot) : RowBits.Statement (.wrslot i v) := ⟨op_mkWord _ _ _, rsv_mkWord _ _ _⟩
theorem RowBits.setlen (n : BitVec 8) : RowBits.Statement (.setlen n) := ⟨op_mkWord _ _ _, rsv_mkWord _ _ _⟩

end Sys2Proof.Laws
end

