-- ==== Sys2Proof/Tests/Slice0.lean ====
section
/-! SUPPORT. Tests: words written out from 30_encoding.md rules R83 and R100, small steps with the expected results of
95_test_vectors.md, and for each statement with hypotheses a state and operands that meet them. -/

namespace Sys2Proof.Tests

open Sys2Proof Sys2Proof.Machine

/-! ### Helpers -/

/-- The reset state with a device that gives these answers. -/
def fed (vs : List Lines) : State := { State.reset with feed := vs }

/-- The state after an outcome. -/
def after (o : Host.Outcome State Fault Refusal) : State :=
  match o with
  | .next t => t
  | .fault f => nomatch f
  | .refused _ => State.reset

/-- A command word from its four fields (R81). -/
def fields (op sub : BitVec 4) (imm : BitVec 16) : Word := op ++ sub ++ (0x00 : BitVec 8) ++ imm

/-- A packet placed in the buffer slot by slot. -/
def packetOf (slots : List Slot) (i : Nat) : Packet :=
  match slots with
  | [] => []
  | v :: rest => Memory.write (packetOf rest (i + 1)) i v

/-- The reset state holding a packet. -/
def holding (slots : List Slot) : State :=
  { State.reset with pkt := packetOf slots 0, pktlen := BitVec.ofNat 8 slots.length }

/-- The bits of a value, one bit a slot. -/
def bitSlots (v : BitVec 64) : List Slot := (List.range 64).map fun i => (BitVec.ofBool (v.getLsbD i)).setWidth 3

/-- The trace of V-ACQ-1 and V-ACQ-2. -/
def acqTrace : List Lines := [8, 8, 7, 7, 15, 15, 6, 6, 14, 14, 5, 5, 13, 13, 2, 2, 10, 10, 10, 10, 10, 10]

/-- The slots of the GamePad scenario (95 S1). -/
def padSlots : List Slot := [1, 0, 0, 1, 0, 0, 0, 0, 0, 0, 0, 0, 0, 0, 0]

/-- The slots PP16 (95 section 2.3). -/
def pp16 : List Slot := [6, 6, 7, 7, 7, 7, 1, 0, 0, 4, 7, 7, 0, 4, 3, 4]

/-- The slots of V-DEC-13. -/
def wheelSlots : List Slot := [0, 0, 4, 6, 7, 1, 0, 4, 7, 3, 4]

/-! ### Decoding: every row of R83, its fields written out -/

theorem test_decode_nop : decode 0b00000000000000000000000000000000 = .ok .nop := by decide
theorem test_decode_rdlvl : decode 0b00010011000000000000000000000000 = .ok (.rdlvl .clk) := by decide
theorem test_decode_settrig : decode 0b00100000000000000000000000000001 = .ok (.settrig true) := by decide
theorem test_decode_pulse : decode (fields 0x3 0x0 0x000A) = .ok (.pulse 10) := by decide
theorem test_decode_waitedge : decode 0b01000111000000000000000001100100 = .ok (.waitedge .clk .rising 100) := by decide
theorem test_decode_waitedge_falling : decode (fields 0x4 0b1000 4) = .ok (.waitedge .d0 .falling 4) := by decide
theorem test_decode_waitlvl : decode (fields 0x5 0b0100 50) = .ok (.waitlvl .d0 true 50) := by decide
theorem test_decode_acqs : decode 0b01100000000000000000000000000000 = .ok .acqs := by decide
theorem test_decode_acqt : decode (fields 0x6 1 0) = .ok .acqt := by decide
theorem test_decode_acqb : decode (fields 0x6 2 0) = .ok .acqb := by decide
theorem test_decode_modesw : decode (fields 0x7 0 0) = .ok .modesw := by decide
theorem test_decode_cooldown : decode (fields 0x8 0 0) = .ok .cooldown := by decide
theorem test_decode_readid : decode 0b10010000000000000000000000010000 = .ok (.readid 16) := by decide
theorem test_decode_detect : decode (fields 0xA 0 0) = .ok .detect := by decide
theorem test_decode_decode : decode 0b10110000000000000000000000000000 = .ok .decode := by decide
theorem test_decode_decGp : decode (fields 0xB 1 0) = .ok .decGp := by decide
theorem test_decode_dec3dp : decode (fields 0xB 2 0) = .ok .dec3dp := by decide
theorem test_decode_decPp : decode (fields 0xB 3 0) = .ok .decPp := by decide
theorem test_decode_decFfp : decode (fields 0xB 4 0) = .ok .decFfp := by decide
theorem test_decode_decFfw : decode (fields 0xB 5 0) = .ok .decFfw := by decide
theorem test_decode_init : decode 0b11000000000000000000000000000000 = .ok .init := by decide
theorem test_decode_update : decode (fields 0xD 0 0) = .ok .update := by decide
theorem test_decode_rdreg : decode (fields 0xE 0 0x0010) = .ok (.rdreg 0x10) := by decide
theorem test_decode_hatnib : decode (fields 0xF 0 0b0101) = .ok (.hatnib 5) := by decide
theorem test_decode_wrslot : decode 0b11110001000000000000010100000111 = .ok (.wrslot 5 7) := by decide
theorem test_decode_setlen : decode (fields 0xF 2 128) = .ok (.setlen 128) := by decide

/-- The illegal words of program P6 (95), one bit off a legal word each: RSV, direction 3, SETLEN 129, SUB 6 of OP 0xB. -/
theorem test_illegal_words :
    ([0x00010000, 0x4C000005, 0xF2000081, 0xB6000000, 0x58000001, 0x63000000, 0xF1008000, 0xF1000008] : List Word).all
      (fun w => (decode w).toOption.isNone) = true := by decide

/-- Bits above the row's are 0, the word is numbered as the table numbers it. -/
theorem test_decodeTableWord : decodeTableWord 32 0x47000064 = some (.waitedge .clk .rising 100) := by decide

/-- WellFormed refuses an ill-formed term: SETLEN's n above 128 (R103). -/
theorem test_wellFormed_refuses : ¬ (Instr.setlen 129).WellFormed ∧ (Instr.setlen 128).WellFormed := by decide

/-! ### The step -/

/-- A word placed for fetching runs as the first command after reset (R80). -/
theorem test_step_runs_word : (after (step (State.reset.withFetchWord 32 0x20000001))).trig = true := by decide

/-- P6 line 1: an illegal word gives STATUS 0x0004 and LASTERR 7. -/
theorem test_step_illegal :
    (let t := after (step (State.reset.withFetchWord 32 0x00010000));
      (statusWord t.busy t, t.lasterr, t.cmds)) = (0x0004, .illegalCommand, []) := by decide

/-- A word offered while Init() loops is held (R97). -/
theorem test_step_busy_holds :
    (let s := { fed [8, 8] with seq := .initLoop .cmdInit, cmds := [0x20000001], pktlen := 20 };
      (s.cmdReady, s.busy)) = (false, true) := by decide

/-- The reset input ends an Init() loop before its round (R302). -/
theorem test_step_reset_pin :
    (let t := after (step { State.reset with seq := .initLoop .cmdInit, rst := .high, trig := true, errcnt := 3 });
      (t.seq, t.trig, t.errcnt, t.rst)) = (.idle, false, 0, .low) := by decide

/-- The reset input in the middle of ACQT (R302): after C(1) T(1) and three polls nothing of the packet is left, the word is
gone and the device is left where it was. -/
theorem test_step_reset_mid_packet :
    (let t := after (stepIn cfgTest { fed acqTrace with cmds := [0x61000000, 0], rst := .during 5 });
      (t.trig, t.crit, t.pktlen, t.evt, t.cmds)) = (false, false, 0, [], [0]) ∧
    (after (stepIn cfgTest { fed acqTrace with cmds := [0x61000000, 0], rst := .during 5 })).feed = acqTrace.drop 3 := by
  set_option maxRecDepth 10000 in decide

/-- The machine runs under another configuration: V-ACQ-2 as a command word under CfgTest (R6, R10). -/
theorem test_stepIn_cfgTest :
    (after (stepIn cfgTest { fed acqTrace with cmds := [0x61000000] })).pkt = [(0, 7), (1, 6), (2, 5), (3, 2)] := by
  set_option maxRecDepth 10000 in decide

/-! ### The bit channel (95 section 2.1) -/

/-- NOP: STATUS 0x0002 (P6 line 7). -/
theorem test_nop : (let t := after (exec .nop { State.reset with ill := true }); (statusWord t.busy t, t.lasterr)) =
    (0x0002, .noError) := by decide

/-- RDLVL CLK, D0 and D1 with answer A. -/
theorem test_rdlvl : [Line.clk, .d0, .d1].map (fun l => (after (exec (.rdlvl l) (fed [0xA]))).result) = [1, 0, 1] := by
  decide

/-- SETTRIG 1: EVT + T(1), STATUS 0x0102 (P5 line 1). -/
theorem test_settrig : (let t := after (exec (.settrig true) State.reset); (statusWord t.busy t, t.evt)) =
    (0x0102, [.trig true]) := by decide

/-- PULSE 10: T(1) D(10) T(0). -/
theorem test_pulse : (after (exec (.pulse 10) State.reset)).evt = [.trig true, .delay 10, .trig false] := by decide

/-- What the vectors of section 2.1 list: RESULT, answers left, LASTIN, OK, LASTERR. -/
def waitRow (t : State) : BitVec 16 × Nat × Lines × Bool × ErrKind := (t.result, t.feed.length, t.lastin, t.ok, t.lasterr)

/-- V-WE-2: an edge in the unwanted direction costs one unit. -/
theorem test_waitedge_rising :
    waitRow (after (exec (.waitedge .clk .rising 5) (fed [8, 8, 8, 0, 8, 8]))) = (2, 1, 8, true, .noError) := by decide

/-- V-WE-7: the edge one poll too late. -/
theorem test_waitedge_late :
    waitRow (after (exec (.waitedge .clk .rising 3) (fed [0, 0, 0, 0, 8]))) = (0, 1, 0, false, .acquisitionTimeout) := by
  decide

/-- V-WL-5 (three polls, one unit left) and V-WL-3 (three polls, none). -/
theorem test_waitlvl_last :
    waitRow (after (exec (.waitlvl .clk true 3) (fed [0, 0, 8]))) = (1, 0, 8, true, .noError) := by decide
theorem test_waitlvl_timeout :
    waitRow (after (exec (.waitlvl .clk true 3) (fed [0, 0, 0]))) = (0, 0, 0, false, .acquisitionTimeout) := by decide

/-! ### Acquisition (95 section 2.2, under CfgTest) -/

/-- V-ACQ-1: the simple family masks D1 and D2 off. -/
theorem test_acqs :
    (let t := (acqSerial cfgTest 0b001 (fed acqTrace)).reportAcquisition; (t.pkt, t.result, t.feed, t.ok)) =
      ([(0, 1), (2, 1)], 4, [], true) := by decide

/-- V-ACQ-2, and V-ACQ-4: the first transition, then silence. -/
theorem test_acqt :
    (let t := (acqSerial cfgTest 0b111 (fed acqTrace)).reportAcquisition; (t.pkt, t.result, t.feed, t.ok)) =
      ([(0, 7), (1, 6), (2, 5), (3, 2)], 4, [], true) := by decide
theorem test_acqt_silence :
    (let t := (acqSerial cfgTest 0b111 (fed [8, 0, 0, 0, 0, 0, 0, 1])).reportAcquisition;
      (t.pktlen, t.feed, t.ok, t.lasterr)) = (0, [1], false, .acquisitionTimeout) := by decide

/-- V-ACQB-1: one byte 0xA5. -/
theorem test_acqb :
    (let t := (acqByte cfgTest (fed [8, 8, 0, 0, 8, 8, 1, 1, 9, 9, 1, 1, 9, 9, 0, 0, 8, 8, 1, 1, 9, 9, 0, 0, 8, 8, 0, 0,
        8, 8, 1, 1, 9, 9, 0, 0, 8, 8, 1, 1, 9, 9, 0, 0, 8, 8, 8, 8])).reportAcquisition;
      (t.pkt, t.result, t.feed, t.ok, t.ferr)) = ([(0, 1), (2, 1), (5, 1), (7, 1)], 8, [], true, false) := by
  set_option maxRecDepth 10000 in decide

/-- V-ACQB-3: start bit 0. -/
theorem test_acqb_start_bit :
    (let t := (acqByte cfgTest (fed [8, 8, 0, 0, 8, 8, 0, 0])).reportAcquisition;
      (t.pktlen, t.feed.length, t.lasterr, t.ferr, t.trig, t.crit)) = (0, 1, .framingError, true, false, false) := by decide

/-- MODESW and COOLDOWN (95 section 2.2). -/
theorem test_modesw : (modeSwitch cfgTest State.reset).evt =
    [.crit true, .trig true, .delay 10, .trig false, .delay 140, .trig true, .delay 10, .trig false, .delay 865,
      .trig true, .delay 10, .trig false, .delay 440, .crit false] := by decide
theorem test_cooldown : (after (execIn cfgTest .cooldown State.reset)).evt = [.delay cfgTest.cooldownUs] := by decide

/-! ### Detection (95 section 2.3) -/

/-- V-DET-1: fourteen slots beyond the sixteen; the toggles after 17 and 33 polls. -/
theorem test_readid :
    (let t := readId cfgTest 16 (fed (packetWave (pp16 ++ List.replicate 14 5) 4));
      (t.pktlen, t.idval, t.feed, (t.evt.drop 2)[17]?, (t.evt.drop 2)[34]?, t.evt.length)) =
      (30, 14, [], some (.trig false), some (.trig true), 132) := by
  set_option maxRecDepth 100000 in decide

/-- V-DET-6: fewer slots than the length classified. -/
theorem test_readid_short :
    (let t := readId cfgTest 16 (fed (packetWave (pp16.take 10) 4)); (t.pktlen, t.idval)) = (10, 0) := by
  set_option maxRecDepth 100000 in decide

/-- The length table of 95 section 2.3. -/
theorem test_detect :
    ([15, 22, 64, 11, 33, 14] : List (BitVec 8)).map
        (fun n => (after (exec .detect { State.reset with pktlen := n })).model) =
      [.gamePad, .threeDPro, .threeDPro, .forceFeedbackWheel, .forceFeedbackWheel, .unknown] := by decide

/-- V-DET-3 from the held packet on: identifier 14 gives ForceFeedbackPro. -/
theorem test_detect_ambiguous :
    (let t := detectInto cfgTest { fed (packetWave (pp16 ++ List.replicate 14 5) 4) with pktlen := 16 };
      (t.model, t.evt.head?)) = (.forceFeedbackPro, some (.delay 3000)) := by
  set_option maxRecDepth 100000 in decide

/-! ### Decoders (95 section 2.4) -/

/-- What the vectors of section 2.4 list: the first four axes, HAT, BUTTONS, OK, LASTERR. -/
def decodeRow (t : State) : List (BitVec 10) × BitVec 4 × BitVec 16 × Bool × ErrKind :=
  (t.axis.toList.take 4, t.hat, t.buttons, t.ok, t.lasterr)

/-- V-DEC-1 and V-DEC-2. -/
theorem test_decGp : decodeRow (after (exec .decGp (holding padSlots))) =
    ([0, 1023, 0, 0], 0, 0x03FF, true, .noError) := by decide
theorem test_decGp_parity :
    decodeRow (after (exec .decGp (holding [1, 0, 0, 1, 0, 0, 0, 0, 0, 0, 0, 0, 0, 0, 1]))) =
      ([0, 0, 0, 0], 0, 0, false, .integrityError) := by decide

/-- V-DEC-11 and V-DEC-10. -/
theorem test_dec3dp :
    decodeRow (after (exec .dec3dp (holding [0, 7, 6, 6, 7, 6, 7, 3, 0, 0, 0, 2, 1, 0, 0, 0, 0, 0, 4, 4, 5, 0]))) =
      ([1023, 0, 512, 512], 5, 0x0082, true, .noError) := by decide
theorem test_dec3dp_nibbles :
    decodeRow (after (exec .dec3dp (holding (bitSlots 0x58000014007F7DB8)))) =
      ([0, 0, 0, 0], 0, 0, false, .integrityError) := by
  set_option maxRecDepth 100000 in decide

/-- V-DEC-8 and V-DEC-5 (raw hat 12). -/
theorem test_decPp : decodeRow (after (exec .decPp (holding pp16))) =
    ([1023, 0, 519, 1023], 3, 0x0009, true, .noError) := by
  set_option maxRecDepth 10000 in decide
theorem test_decPp_raw_hat :
    decodeRow (after (exec .decPp (holding [7, 7, 7, 0, 0, 0, 7, 7, 7, 1, 0, 0, 7, 7, 4, 5]))) =
      ([512, 511, 1023, 0], 0, 0, true, .noError) := by
  set_option maxRecDepth 10000 in decide

/-- V-DEC-8b. -/
theorem test_decFfp : decodeRow (after (exec .decFfp (holding pp16))) =
    ([1023, 0, 519, 1023], 3, 0x0009, true, .noError) := by
  set_option maxRecDepth 10000 in decide

/-- V-DEC-13 and V-DEC-14b. -/
theorem test_decFfw : decodeRow (after (exec .decFfw (holding wheelSlots))) =
    ([256, 1023, 0, 0], 0, 0x0081, true, .noError) := by decide
theorem test_decFfw_length : (after (exec .decFfw (holding (List.replicate 12 0)))).lasterr = .lengthMismatch := by
  decide

/-- V-DEC-15 and V-DEC-16. -/
theorem test_decode_unknown : (after (exec .decode (holding padSlots))).lasterr = .lengthMismatch := by decide
theorem test_decode_model : decodeRow (after (exec .decode { holding padSlots with model := .gamePad })) =
    ([0, 1023, 0, 0], 0, 0x03FF, true, .noError) := by decide

/-- 95 S7. -/
theorem test_hatnib : (List.range 16).map (fun n => (after (exec (.hatnib (BitVec.ofNat 4 n)) State.reset)).result) =
    [0, 0, 0, 7, 0, 6, 0, 0, 0, 0, 0, 0, 0, 0, 0, 0] := by decide

/-! ### Policy (95 section 2.5, under CfgTest) -/

/-- V-POL-1: INIT finds the GamePad at the first attempt. -/
theorem test_init :
    (let t := startInit cfgTest .cmdInit (fed (packetWave padSlots 4));
      (t.model, t.result, t.seq, t.evt.length, t.valid)) = (.gamePad, 1, .idle, 71, false) := by
  set_option maxRecDepth 100000 in decide

/-- V-POL-4: four slots, a mode switch, then the GamePad; the second round is the loop's. -/
theorem test_init_round :
    (let t := startInit cfgTest .cmdInit (fed (packetWave [1, 2, 3, 4] 4 ++ packetWave padSlots 4));
      let u := initRound cfgTest .cmdInit t;
      (t.seq, t.pktlen, u.seq, u.model, (u.evt.drop t.evt.length).take 6)) =
      (.initLoop .cmdInit, 4, .idle, .gamePad, [.delay 3000, .crit true, .trig true, .delay 10, .trig false, .delay 140]) := by
  set_option maxRecDepth 100000 in decide

/-- V-POL-7: a good cycle clears ERRCNT. -/
theorem test_update :
    (let t := runUpdate cfgTest { fed (packetWave padSlots 4) with model := .gamePad, errcnt := 2 };
      (t.axis[1], t.buttons, t.errcnt, t.result, statusWord t.busy t)) = (1023, 0x03FF, 0, 1, 0x0022) := by
  set_option maxRecDepth 100000 in decide

/-- P4 command 8: the sixth failure re-detects; MODEL 3, STATUS 0x0028 (VALID was 1), LASTERR 3. -/
theorem test_update_escalates :
    (let t := runUpdate cfgTest { fed (packetWave [1, 0, 0, 1, 0, 0, 0, 0, 0, 0, 0, 0, 0, 0, 1] 4 ++ packetWave pp16 4 ++
        packetWave pp16 4) with model := .gamePad, errcnt := 5, valid := true };
      (t.model, t.errcnt, statusWord t.busy t, t.lasterr, t.result, t.feed)) =
      (.precisionPro, 0, 0x0028, .integrityError, 0, []) := by
  set_option maxRecDepth 100000 in decide

/-! ### Host access (95 section 2.5 and program P1) -/

/-- V-POL-10: the descriptor register of every model. -/
theorem test_rdreg_desc :
    [Model.gamePad, .threeDPro, .precisionPro, .forceFeedbackPro, .forceFeedbackWheel, .unknown].map
        (fun m => (after (exec (.rdreg 0x08) { State.reset with model := m })).result) =
      [0x0142, 0x0504, 0x0524, 0x0524, 0x0103, 0x0000] := by decide

/-- RDREG of STATUS, a slot and a reserved address (P6 line 2; R63, R68). -/
theorem test_rdreg_map :
    ([0x00, 0x82, 0x3F] : List (BitVec 8)).map
        (fun a => (after (exec (.rdreg a) { holding padSlots with ill := true, pkt := [(2, 5)] })).result) =
      [0x0004, 5, 0] := by decide

/-- P1: WRSLOT and SETLEN place a packet. -/
theorem test_wrslot : (after (exec (.wrslot 1 6) { State.reset with pkt := [(0, 6)] })).pkt = [(0, 6), (1, 6)] := by decide
theorem test_setlen :
    (let t := after (exec (.setlen 1) { State.reset with pkt := [(0, 6), (1, 6)], result := 9 });
      (t.pkt, t.pktlen, t.result)) = ([(0, 6)], 1, 9) := by decide

/-! ### States and operands that meet the statements' hypotheses -/

theorem witness_DecodeOfEncodeIsIdentity : (Instr.setlen 128).WellFormed ∧ (Instr.setlen 0).WellFormed := by decide

theorem witness_LegalWordIsItsOperationsEncoding : decode 0xF2000080 = .ok (.setlen 128) := by decide

theorem witness_IllegalWordsAreExactlyTheListed : (∃ e, decode 0xF2000081 = .error e) ∧ listedIllegal 0xF2000081 :=
  ⟨⟨_, rfl⟩, by unfold listedIllegal; decide⟩

theorem witness_StepRunsDecodedCommand :
    let s := { State.reset with cmds := [0x20000001, 0] }
    s.rst = .low ∧ s.seq = .idle ∧ s.offered = some 0x20000001 ∧ decode 0x20000001 = .ok (.settrig true) := by decide

theorem witness_IllegalWordChangesOnlyTheReport :
    let s := { State.reset with cmds := [0x00010000] }
    s.rst = .low ∧ s.seq = .idle ∧ s.offered = some 0x00010000 ∧ listedIllegal 0x00010000 := by
  unfold listedIllegal; decide

theorem witness_IdleMachineKeepsItsState : State.reset.rst = .low ∧ State.reset.seq = .idle ∧ State.reset.cmds = [] := by
  decide

/-- A machine in the loop of Init() with a word waiting. -/
def looping : State := { State.reset with seq := .initLoop .cmdInit, cmds := [0x20000001], pktlen := 5 }

/-- The same with a long packet. -/
def loopingLong : State := { looping with pktlen := 11 }

theorem witness_BusyMachineHoldsTheCommand : looping.rst = .low ∧ looping.seq = .initLoop .cmdInit := by decide

theorem witness_ResetLeavesTheStatedValues : (∃ s r : State, s.rst ≠ .low ∧ step s = .next r) ∧
    (∃ s r : State, s.rst = .during 2 ∧ s.rst ≠ .low ∧ step s = .next r) :=
  ⟨⟨{ looping with rst := .high }, _, by decide, rfl⟩, ⟨{ looping with rst := .during 2 }, _, rfl, by decide, rfl⟩⟩

/-- A cut before the one event of SETTRIG, at it and after it. -/
theorem witness_ResetPinEndsEveryOperation : ({ looping with rst := .high } : State).rst ≠ .low ∧
    ∀ n, ∃ s u : State, s.rst = .during n ∧ step { s with rst := .low } = .next u ∧ Trace s u [.trig true] :=
  ⟨by decide, fun n => ⟨{ State.reset with cmds := [0x20000001], rst := .during n }, _, rfl, rfl, rfl, rfl, rfl, rfl, rfl⟩⟩

theorem looping_inv (n : BitVec 8) (h : n.toNat ≤ capSlots) : GlobalInv { looping with pktlen := n } where
  pktlen_le := h
  pkt_wf := rfl
  hat_le := Nat.zero_le _
  crit_low := rfl
  errcnt_le := Nat.zero_le _
  hidden_dead := rfl
  looping := by intro k _; exact ⟨rfl, rfl, rfl⟩
  escalated := by intro h; cases h
  ill_iff := by intro h; cases h
  ok_clean := by intro h; cases h

theorem witness_EveryStepKeepsTheInvariant : ∃ t, GlobalInv looping ∧ step looping = .next t :=
  ⟨_, looping_inv 5 (by decide), rfl⟩

/-- First edge at the last unit of the budget, at the first, and no edge in budgets 3 and 0. -/
theorem witness_WaitedgeReportsTheFirstEdge :
    (let s := fed [8, 8, 8, 0]; s.hid = Hidden.dead ∧ 2 < (3 : Timeout).toNat ∧ s.edgeAt .clk .any 2 ∧
      ∀ i < 2, ¬ s.edgeAt .clk .any i) ∧
    (let s := fed [8, 0]; s.hid = Hidden.dead ∧ 0 < (1 : Timeout).toNat ∧ s.edgeAt .clk .falling 0 ∧
      ∀ i < 0, ¬ s.edgeAt .clk .falling i) ∧
    (let s := fed [8, 8, 8, 8, 0]; s.hid = Hidden.dead ∧ ∀ j < (3 : Timeout).toNat, ¬ s.edgeAt .clk .any j) ∧
    (let s := fed []; s.hid = Hidden.dead ∧ ∀ j < (0 : Timeout).toNat, ¬ s.edgeAt .clk .any j) := by decide

theorem witness_WaitlvlReportsTheFirstLevel :
    (let s := fed [0, 0, 8]; 2 < (3 : Timeout).toNat ∧ lineLevel .clk (s.answer 2) = true ∧
      ∀ i < 2, lineLevel .clk (s.answer i) ≠ true) ∧
    (let s := fed [8]; 0 < (1 : Timeout).toNat ∧ lineLevel .clk (s.answer 0) = true ∧
      ∀ i < 0, lineLevel .clk (s.answer i) ≠ true) ∧
    (let s := fed [0, 0, 0, 8]; ∀ j < (3 : Timeout).toNat, lineLevel .clk (s.answer j) ≠ true) ∧
    (let s := fed []; ∀ j < (0 : Timeout).toNat, lineLevel .clk (s.answer j) ≠ true) := by decide

/-- The reset state's hidden state is dead, and the three acquisition statements ask for no more. -/
theorem witness_SerialAcquisitionLeavesAPacket : (fed [8, 8, 0]).hid = Hidden.dead ∧
    ((Instr.acqs, (0b001 : Slot)) = (.acqs, 0b001)) ∧ ((Instr.acqt, (0b111 : Slot)) = (.acqt, 0b111)) := by decide

theorem witness_ByteAcquisitionLeavesWholeBytes :
    (fed [8, 8, 0]).hid = Hidden.dead ∧ (fed [8, 8, 0, 0, 8, 8, 0]).hid = Hidden.dead := by decide

/-- One slot, fifteen, the last length with a further wait and the full buffer, by either operation. -/
theorem witness_AcqtCapturesTheStandardWaveform :
    (((Instr.acqs, (0b001 : Slot)) = (.acqs, 0b001)) ∧ ((Instr.acqt, (0b111 : Slot)) = (.acqt, 0b111))) ∧
    ([padSlots, [5], List.replicate 127 3, List.replicate 128 3] : List (List Slot)).all (fun slots =>
      let s := fed (takenWave slots cfg.tNext.toNat ++ [1, 2])
      s.hid = Hidden.dead ∧ 1 ≤ slots.length ∧ slots.length ≤ 128 ∧
        s.feed = takenWave slots cfg.tNext.toNat ++ [1, 2]) = true := by
  simp [fed, padSlots, State.reset]

theorem witness_AcqbCapturesFramedBytes :
    ([[0xA5], List.replicate 15 0x3C, List.replicate 16 0x3C] : List (List (BitVec 8))).all (fun bytes =>
      let s := fed (takenBytes bytes cfg.tNext.toNat ++ [1, 2])
      s.hid = Hidden.dead ∧ 1 ≤ bytes.length ∧ bytes.length ≤ 16 ∧
        s.feed = takenBytes bytes cfg.tNext.toNat ++ [1, 2]) = true := by
  simp [fed, State.reset]

/-- A start bit of 0 at once, and a stop bit of 1 after fifteen bytes. -/
theorem witness_FramingViolationEmptiesThePacket :
    (let s := fed (brokenWave [] [false] ++ [3])
     s.hid = Hidden.dead ∧ ([] : List (BitVec 8)).length ≤ 15 ∧ violatesFrame [false] ∧
       s.feed = brokenWave [] [false] ++ [3]) ∧
    (let bad := true :: (List.range 8).map (0xA5 : BitVec 8).getLsbD ++ [true]
     let s := fed (brokenWave (List.replicate 15 0x3C) bad ++ [3])
     s.hid = Hidden.dead ∧ (List.replicate 15 (0x3C : BitVec 8)).length ≤ 15 ∧ violatesFrame bad ∧
       s.feed = brokenWave (List.replicate 15 0x3C) bad ++ [3]) :=
  ⟨⟨rfl, by decide, Or.inl rfl, rfl⟩, ⟨rfl, by decide, Or.inr ⟨0xA5, rfl⟩, rfl⟩⟩

theorem witness_ModeswSendsThePulseSequence : State.reset.hid = Hidden.dead := by decide

theorem witness_SettrigDrivesTheTrigger : State.reset.hid = Hidden.dead ∧ leavesTrigLow .modesw = true ∧
    (after (exec (.settrig true) State.reset)).trig = true ∧
    (after (exec .nop { State.reset with trig := true })).trig = true := by decide

theorem witness_ReadidReturnsTheExtraLength : (fed [8, 8, 0]).hid = Hidden.dead ∧
    ([[5], pp16, List.replicate 128 3] : List (List Slot)).all (fun slots =>
      let s := fed (takenWave slots cfg.tNext.toNat ++ [1, 2])
      s.hid = Hidden.dead ∧ 1 ≤ slots.length ∧ slots.length ≤ 128 ∧
        s.feed = takenWave slots cfg.tNext.toNat ++ [1, 2]) = true := by
  simp [fed, pp16, State.reset]

/-- A known length of each model, the lengths next to them, and 0 and 128. -/
theorem witness_DetectClassifiesByLength :
    ([(15, .gamePad), (22, .threeDPro), (64, .threeDPro), (11, .forceFeedbackWheel), (33, .forceFeedbackWheel),
        (14, .unknown), (17, .unknown), (47, .unknown), (0, .unknown), (128, .unknown)] : List (BitVec 8 × Model)).all
      (fun x => let s := { State.reset with pktlen := x.1 }
        s.pktlen ≠ 16 ∧ s.pktlen ≠ 48 ∧
          x.2 = (if s.pktlen = 15 then .gamePad else if s.pktlen = 22 ∨ s.pktlen = 64 then .threeDPro
            else if s.pktlen = 11 ∨ s.pktlen = 33 then .forceFeedbackWheel else .unknown)) = true := by decide

theorem witness_DetectResolvesAmbiguousLengths :
    ([16, 48] : List (BitVec 8)).all (fun n => let s := { State.reset with pktlen := n }
      s.hid = Hidden.dead ∧ (s.pktlen = 16 ∨ s.pktlen = 48)) = true := by decide

theorem witness_DecGpExtractsTheGamePadFields :
    (let s := holding padSlots; s.pktlen = 15 ∧ xorParity (lowBits 15 (assemble s.pkt 1 15)) 15 = false) ∧
    (let s := holding [1, 0, 0, 1, 0, 0, 0, 0, 0, 0, 0, 0, 0, 0, 1];
      s.pktlen = 15 ∧ xorParity (lowBits 15 (assemble s.pkt 1 15)) 15 = true) ∧
    (holding (padSlots.take 14)).pktlen ≠ 15 := by decide

/-- V-DEC-11 (three bits a slot), V-DEC-12a (one), V-DEC-9 (sync), V-DEC-10 (nibble sum), V-DEC-12c (length). -/
theorem witness_Dec3dpExtractsTheThreeDProFields :
    (let s := holding [0, 7, 6, 6, 7, 6, 7, 3, 0, 0, 0, 2, 1, 0, 0, 0, 0, 0, 4, 4, 5, 0]
     let V := lowBits 64 (assemble s.pkt 3 s.pktlen.toNat)
     bitsFor 64 22 s 3 ∧ V &&& 0x8080808080808080 = 0x80 ∧ nibbleSum V = 0) ∧
    (let s := holding (bitSlots 0x0800000000000080)
     let V := lowBits 64 (assemble s.pkt 1 s.pktlen.toNat)
     bitsFor 64 22 s 1 ∧ V &&& 0x8080808080808080 = 0x80 ∧ nibbleSum V = 0) ∧
    (let s := holding (bitSlots 0x59000014007FFDB8)
     let V := lowBits 64 (assemble s.pkt 1 s.pktlen.toNat)
     bitsFor 64 22 s 1 ∧ ¬ (V &&& 0x8080808080808080 = 0x80 ∧ nibbleSum V = 0)) ∧
    (let s := holding (bitSlots 0x58000014007F7DB8)
     let V := lowBits 64 (assemble s.pkt 1 s.pktlen.toNat)
     bitsFor 64 22 s 1 ∧ ¬ (V &&& 0x8080808080808080 = 0x80 ∧ nibbleSum V = 0)) ∧
    (let s := holding (List.replicate 63 0); s.pktlen ≠ 64 ∧ s.pktlen ≠ 22) := by
  unfold bitsFor; set_option maxRecDepth 100000 in decide

theorem witness_DecPpAndFfpExtractTheirFields :
    (let s := holding pp16; bitsFor 48 16 s 3 ∧ onesBelow (lowBits 48 (assemble s.pkt 3 s.pktlen.toNat)) 48 % 2 = 0) ∧
    (let s := { State.reset with pktlen := 48 }
     bitsFor 48 16 s 1 ∧ onesBelow (lowBits 48 (assemble s.pkt 1 s.pktlen.toNat)) 48 % 2 = 0) ∧
    (let s := holding (pp16.take 15 ++ [0])
     bitsFor 48 16 s 3 ∧ onesBelow (lowBits 48 (assemble s.pkt 3 s.pktlen.toNat)) 48 % 2 = 1) ∧
    (let s := holding (List.replicate 17 0); s.pktlen ≠ 48 ∧ s.pktlen ≠ 16) := by
  unfold bitsFor; set_option maxRecDepth 100000 in decide

theorem witness_DecFfwExtractsTheWheelFields :
    (let s := holding wheelSlots
     bitsFor 33 11 s 3 ∧ onesBelow (lowBits 33 (assemble s.pkt 3 s.pktlen.toNat)) 33 % 2 = 0) ∧
    (let s := { State.reset with pktlen := 33 }
     bitsFor 33 11 s 1 ∧ onesBelow (lowBits 33 (assemble s.pkt 1 s.pktlen.toNat)) 33 % 2 = 0) ∧
    (let s := holding [1, 0, 4, 6, 7, 1, 0, 4, 7, 3, 4]
     bitsFor 33 11 s 3 ∧ onesBelow (lowBits 33 (assemble s.pkt 3 s.pktlen.toNat)) 33 % 2 = 1) ∧
    (let s := holding (List.replicate 12 0); s.pktlen ≠ 33 ∧ s.pktlen ≠ 11) := by
  unfold bitsFor; set_option maxRecDepth 100000 in decide

theorem witness_DecodeFollowsTheCachedModel : State.reset.model = .unknown ∧
    (({ State.reset with model := .forceFeedbackPro } : State).model, Instr.decFfp) ∈
      [(Model.gamePad, Instr.decGp), (.threeDPro, .dec3dp), (.precisionPro, .decPp), (.forceFeedbackPro, .decFfp),
        (.forceFeedbackWheel, .decFfw)] := by decide

/-- A decode that succeeds and one that fails. -/
theorem witness_DecodeCommitsOrLeavesTheJoystick :
    (Instr.decGp, Model.gamePad) ∈ [(Instr.decode, State.reset.model), (.decGp, .gamePad), (.dec3dp, .threeDPro),
      (.decPp, .precisionPro), (.decFfp, .forceFeedbackPro), (.decFfw, .forceFeedbackWheel)] ∧
    (∃ j, decodePacket cfg .gamePad (holding padSlots).pkt (holding padSlots).pktlen.toNat = .ok j) ∧
    decodePacket cfg .gamePad State.reset.pkt State.reset.pktlen.toNat = .error .lengthMismatch :=
  ⟨by decide, ⟨_, rfl⟩, rfl⟩

theorem witness_ScaleIsTheLinearRescale : (1 ≤ 1 ∧ 1 ≤ 1023 ∧ 0 ≤ 1) ∧ (1 ≤ 1023 ∧ 1023 ≤ 1023) := by decide

/-- Assemble at its ends: the last bit of 64, in slot 21 with three bits a slot (R192), and in slot 63 with one. -/
theorem test_assemble :
    (assemble (packetOf (List.replicate 21 0 ++ [7]) 0) 3 22 = 0x8000000000000000) ∧
    (assemble (packetOf (List.replicate 63 6 ++ [7]) 0) 1 64 = 0x8000000000000000) ∧
    (assemble (packetOf [1, 2, 4, 7] 0) 3 3 = 0b100010001) ∧ (assemble (packetOf [1, 2, 5, 7] 0) 1 3 = 0b101) := by
  set_option maxRecDepth 100000 in decide

/-- Both widths of a slot with the first and the last bit; the least valid packet of every model, by length. -/
theorem witness_ValidPacketsDecodeWithinRange :
    (((1 : Nat) = 1 ∨ (1 : Nat) = 3) ∧ ((3 : Nat) = 1 ∨ (3 : Nat) = 3) ∧ 0 < 64 ∧ 63 < 64) ∧
    ([(.gamePad, 15, 1, 0), (.threeDPro, 64, 1, 0x0800000000000080), (.precisionPro, 16, 3, 0),
        (.forceFeedbackPro, 48, 1, 0), (.forceFeedbackWheel, 11, 3, 0)] : List (Model × Nat × Nat × BitVec 64)).all
      (fun x => let pkt := packetOf (bitSlots x.2.2.2) 0
        let V := lowBits (cfg.layout x.1).width (assemble pkt x.2.2.1 x.2.1)
        x.1 ≠ .unknown ∧ bitsPerSlot (cfg.layout x.1) x.2.1 = some x.2.2.1 ∧ integrity cfg x.1 V = true) = true := by
  set_option maxRecDepth 100000 in decide

/-- The first and the last bit of a valid value of each kind of check. -/
theorem witness_SingleBitFlipIsDetected :
    ([(.gamePad, 9, 0), (.gamePad, 9, 14), (.threeDPro, 0x0800000000000080, 63), (.threeDPro, 0x0800000000000080, 0),
        (.forceFeedbackWheel, 0, 32)] : List (Model × BitVec 64 × Nat)).all
      (fun x => x.1 ≠ .unknown ∧ x.2.2 < (cfg.layout x.1).width ∧ integrity cfg x.1 x.2.1 = true) = true := by
  set_option maxRecDepth 100000 in decide

/-- An unambiguous length; an ambiguous one with the shortest and the longest second packet. -/
theorem witness_InitDetectsAtTheFirstAttempt :
    (let s := fed (packetWave padSlots cfg.tNext.toNat ++ [7])
     s.hid = Hidden.dead ∧ s.seq = .idle ∧ (padSlots.length, .gamePad) ∈ unambiguousLengths ∧
       s.feed = packetWave padSlots cfg.tNext.toNat ++ [7]) ∧
    (∀ second ∈ [[5], List.replicate 128 (5 : Slot)],
      let s := fed (packetWave pp16 cfg.tNext.toNat ++ (takenWave second cfg.tNext.toNat ++ [7]))
      s.hid = Hidden.dead ∧ s.seq = .idle ∧ (pp16.length = 16 ∨ pp16.length = 48) ∧ 1 ≤ second.length ∧
        second.length ≤ 128 ∧ s.feed = packetWave pp16 cfg.tNext.toNat ++ (takenWave second cfg.tNext.toNat ++ [7])) :=
  ⟨⟨rfl, rfl, by decide, rfl⟩, fun second h => by
    have hl : 1 ≤ second.length ∧ second.length ≤ 128 := by
      simp only [List.mem_cons, List.not_mem_nil, or_false] at h
      rcases h with rfl | rfl <;> simp
    exact ⟨rfl, rfl, by decide, hl.1, hl.2, rfl⟩⟩

/-- A short and a long last packet, at the boundary 11, and a silence of no and of three rounds. -/
theorem witness_InitLoopRetriesWithoutBound :
    (GlobalInv { looping with pktlen := 10 } ∧ ({ looping with pktlen := 10 } : State).pktlen.toNat < cfg.modeswBelow) ∧
      (GlobalInv loopingLong ∧ cfg.modeswBelow ≤ loopingLong.pktlen.toNat) ∧
      looping.rst = .low ∧ looping.seq = .initLoop .cmdInit ∧
      loopingLong.rst = .low ∧ loopingLong.seq = .initLoop .cmdInit ∧
      (∀ n ∈ [0, 3], ({ looping with feed := List.replicate (n * (1 + cfg.tFirst.toNat)) 8 ++ [7] } : State).feed =
        List.replicate (n * (1 + cfg.tFirst.toNat)) 8 ++ [7]) :=
  ⟨⟨looping_inv 10 (by decide), by decide⟩, ⟨looping_inv 11 (by decide), by decide⟩, rfl, rfl, rfl, rfl, fun _ _ => rfl⟩

theorem witness_UpdateWithUnknownModelDetects :
    let s := fed (packetWave padSlots cfg.tNext.toNat ++ [7])
    s.hid = Hidden.dead ∧ s.seq = .idle ∧ s.model = .unknown ∧ (padSlots.length, .gamePad) ∈ unambiguousLengths ∧
      s.feed = packetWave padSlots cfg.tNext.toNat ++ [7] :=
  ⟨rfl, rfl, rfl, by decide, rfl⟩

/-- A machine with a known model, one failure short of the escalation. -/
def worn : State := { State.reset with model := .gamePad, errcnt := 5, lasterr := .lengthMismatch }

theorem worn_inv : GlobalInv worn where
  pktlen_le := by decide
  pkt_wf := by decide
  hat_le := by decide
  crit_low := rfl
  errcnt_le := by decide
  hidden_dead := rfl
  looping := by intro k h; cases h
  escalated := by intro h; cases h
  ill_iff := by intro _; decide
  ok_clean := by intro _; decide

theorem witness_UpdateSucceedsCountsOrEscalates : ∃ a, GlobalInv worn ∧ worn.seq = .idle ∧ worn.model ≠ .unknown ∧
    a = acquire cfg worn.beginUpdate :=
  ⟨_, worn_inv, rfl, by decide, rfl⟩

theorem witness_UpdateDecodesTheGamePadScenario :
    ∃ (s : State) (rest : List Lines), s.hid = Hidden.dead ∧ s.seq = .idle ∧ s.model = .gamePad ∧
      s.feed = packetWave [1, 0, 0, 1, 0, 0, 0, 0, 0, 0, 0, 0, 0, 0, 0] cfg.tNext.toNat ++ rest :=
  ⟨{ worn with feed := packetWave padSlots cfg.tNext.toNat ++ [7] }, [7], rfl, rfl, rfl, rfl⟩

theorem witness_UpdateOnSilenceTimesOut :
    ∃ (s : State) (v : Lines) (rest : List Lines), s.hid = Hidden.dead ∧ s.seq = .idle ∧ s.model ≠ .unknown ∧
      s.errcnt.toNat < 5 ∧ s.feed = List.replicate (1 + cfg.tFirst.toNat) v ++ rest :=
  ⟨{ worn with errcnt := 4, feed := List.replicate (1 + cfg.tFirst.toNat) 8 ++ [7] }, 8, [7], rfl, rfl, by decide,
    by decide, rfl⟩

theorem witness_SixthFailureRedetects :
    ∃ (s : State) (v : Lines) (slots : List Slot) (rest : List Lines) (m : Model), s.hid = Hidden.dead ∧ s.seq = .idle ∧
      s.model ≠ .unknown ∧ s.errcnt.toNat = 5 ∧
      (slots.length, m) ∈ unambiguousLengths ∧
      s.feed = List.replicate (1 + cfg.tFirst.toNat) v ++ (packetWave slots cfg.tNext.toNat ++ rest) :=
  ⟨{ worn with feed := List.replicate (1 + cfg.tFirst.toNat) 8 ++ (packetWave wheelSlots cfg.tNext.toNat ++ [7]) }, 8,
    wheelSlots, [7], .forceFeedbackWheel, rfl, rfl, by decide, by decide, by decide, rfl⟩

theorem witness_RdregReadsTheRegisterMap :
    (State.reset.model, (0 : BitVec 16), (0x0000 : BitVec 16)) ∈
      [(Model.unknown, 0, 0x0000), (.gamePad, 1, 0x0142), (.threeDPro, 2, 0x0504), (.precisionPro, 3, 0x0524),
        (.forceFeedbackPro, 4, 0x0524), (.forceFeedbackWheel, 5, 0x0103)] ∧
    (({ State.reset with lasterr := .illegalCommand } : State).lasterr, (7 : BitVec 16)) ∈
      [(ErrKind.noError, 0), (.acquisitionTimeout, 1), (.framingError, 2), (.integrityError, 3), (.lengthMismatch, 4),
        (.illegalCommand, 7)] := by decide

theorem witness_ReadPortAgreesWithRdreg : State.reset.seq = .idle ∧ looping.seq ≠ .idle := by decide

theorem witness_WrslotWritesOneSlot : Memory.wf (packetOf pp16 0) = true := by decide

theorem witness_SetlenTruncatesThePacket :
    (128 : BitVec 8).toNat ≤ 128 ∧ (0 : BitVec 8).toNat ≤ 128 ∧ 128 < (129 : BitVec 8).toNat ∧
      128 < (255 : BitVec 8).toNat ∧ Memory.wf (packetOf pp16 0) = true := by decide

theorem witness_ModelChangesOnlyByDetection : worn.seq = .idle ∧ writesModel .nop = false := by decide

theorem witness_ErrcntChangesOnlyByPolicy : writesErrcnt .detect = false := by decide

/-- An operation that cannot decode, and a decode that reports OK 0. -/
theorem witness_JoystickChangesOnlyBySuccess :
    worn.seq = .idle ∧ canDecode .init = false ∧ (after (exec .decGp worn)).ok = false := by decide

theorem witness_ValidIsClearedOnlyByReset :
    ({ worn with valid := true } : State).rst = .low ∧ ({ worn with valid := true } : State).valid = true := by decide

theorem witness_EventHistoryRecordsEveryAnswer : looping.rst = .low := by decide

theorem witness_EventHistoryIsNeverRead : looping.rst = .low ∧ ({ looping with rst := .during 1 } : State).rst ≠ .low := by
  decide

theorem witness_OperationsCompleteWithinTheirPolls : Instr.acqb ≠ .init ∧ Instr.acqb ≠ .update ∧ worn.seq = .idle := by
  decide

end Sys2Proof.Tests
end

section
/-! ### PROOFS of family `00_scope.md`: the step as a whole

A step of a released machine is `moveIn` (`step_low`): a round of Init(), idling, or the word at the port. What it does to the
event history and the device's answers is put together here from the traces of the procedures. -/

namespace Sys2Proof.Machine

section
variable (c : Cfg)

/-! #### The move a released machine makes -/

/-- The move of an idle machine with a legal word at its port is the word's operation (R80, R102). -/
theorem moveIn_of_decode {s : State} {w : Word} {i : Instr} (hs : s.seq = .idle) (ho : s.offered = some w)
    (hd : Sys2Proof.decode w = .ok i) : moveIn c s = opIn c i s.accept := by
  simp only [moveIn, hs, ho, wordIn, hd]

theorem stepIn_low {s : State} (h : s.rst = .low) : stepIn c s = .next (moveIn c s) := by rw [stepIn_eq, h]

/-! #### The event history: what every operation, and so every step with no reset, records -/

/-- A change of fields no trace speaks of records nothing and takes no answer. -/
theorem Trace.quiet {s t : State} (he : t.evt = s.evt) (hf : t.feed = s.feed) (hd : t.draws = s.draws)
    (hl : t.lastin = s.lastin) : Trace s t [] := (Trace.refl s).of_eq he hf hd hl

/-- A decoder works on the packet alone: it polls nothing (R191). -/
theorem runDecode_trace (m : Model) (s : State) : Trace s (runDecode c m s) [] := by
  rcases runDecode_cases c m s with ⟨j, -, h, -⟩ | ⟨e, -, h, -⟩
  · rw [h]; exact Trace.quiet rfl rfl rfl rfl
  · rw [h]; exact Trace.refl s

theorem decodeWith_trace (m : Model) (s : State) : Trace s (decodeWith c m s) [] :=
  ((runDecode_trace c m s).setResult _).complete _

/-- Entering Init() clears ERRCNT, which no trace speaks of; the events are those of the first attempt (R242, R280). -/
theorem startInit_trace (k : InitCaller) (s : State) : ∃ es, Trace s (startInit c k s) es := by
  obtain ⟨es, h, -⟩ := initAttempt_trace c k s.enterInit
  exact ⟨es, h.of_eq_left rfl rfl rfl rfl⟩

theorem initRound_trace (k : InitCaller) (s : State) : ∃ es, Trace s (initRound c k s) es := by
  obtain ⟨es, h, -⟩ := initSwitch_trace c s
  obtain ⟨fs, g, -⟩ := initAttempt_trace c k (initSwitch c s)
  exact ⟨es ++ fs, h.trans g⟩

/-- Decoding and accounting add no event to those of the cycle's acquisition (R245). -/
theorem acquire_updateCycle_trace (s : State) : Trace (acquire c s.beginUpdate) (updateCycle c s) [] := by
  rcases updateCycle_cases c s with ⟨j, -, -, h⟩ | ⟨e, -, -, -, h⟩
  · rw [h]; exact Trace.quiet rfl rfl rfl rfl
  · rw [h]; exact Trace.quiet rfl rfl rfl rfl

theorem updateCycle_trace (s : State) : ∃ es, Trace s (updateCycle c s) es := by
  obtain ⟨ps, h, -⟩ := acquire_trace c s.beginUpdate
  exact ⟨_, (h.of_eq_left (s' := s) rfl rfl rfl rfl).trans (acquire_updateCycle_trace c s)⟩

/-- The three ways of UPDATE: Init() at once, a cycle that escalates into Init(), and a cycle alone (R245, R249). -/
theorem runUpdate_trace (s : State) : ∃ es, Trace s (runUpdate c s) es := by
  unfold runUpdate
  split
  · obtain ⟨es, h⟩ := startInit_trace c .updateUnknown s.beginUpdate
    exact ⟨es, h.of_eq_left rfl rfl rfl rfl⟩
  · obtain ⟨es, h⟩ := updateCycle_trace c s
    dsimp only
    split
    · obtain ⟨fs, g⟩ := startInit_trace c .updateEscalated (updateCycle c s)
      exact ⟨es ++ fs, h.trans g⟩
    · exact ⟨es, h.setResult _⟩

/-- Every operation records every answer it takes, under every configuration (R13, R47, R111). -/
theorem opIn_trace (i : Instr) (s : State) : ∃ es, Trace s (opIn c i s) es := by
  cases i with
  | nop => exact ⟨_, (Trace.refl s).complete _⟩
  | rdlvl line =>
    have hp : Trace s s.poll ((s.answers 1).map Event.poll) := State.polled_one s ▸ Trace.polled s 1
    exact ⟨_, (hp.setResult _).complete _⟩
  | settrig level => exact ⟨_, (Trace.driveTrig s level).complete _⟩
  | pulse us =>
    exact ⟨_, (((Trace.driveTrig s true).trans (Trace.pause _ us.toNat)).trans (Trace.driveTrig _ false)).complete _⟩
  | waitedge line dir tmo =>
    obtain ⟨es, h, -⟩ := waitEdge_trace line dir tmo s
    exact ⟨es, (h.setResult _).complete _⟩
  | waitlvl line level tmo =>
    obtain ⟨es, h, -⟩ := waitLevel_trace line level tmo s
    exact ⟨es, (h.setResult _).complete _⟩
  | acqs =>
    obtain ⟨ps, h, -⟩ := acqSerial_trace c 0b001 s
    exact ⟨_, h.reportAcquisition⟩
  | acqt =>
    obtain ⟨ps, h, -⟩ := acqSerial_trace c 0b111 s
    exact ⟨_, h.reportAcquisition⟩
  | acqb =>
    obtain ⟨ps, h, -⟩ := acqByte_trace c s
    exact ⟨_, h.reportAcquisition⟩
  | modesw => exact ⟨_, (modeSwitch_trace c s).complete _⟩
  | cooldown => exact ⟨_, (Trace.coolDown c s).complete _⟩
  | readid len =>
    obtain ⟨ps, h, -⟩ := readId_trace c len.toNat s
    exact ⟨_, (h.setResult _).complete _⟩
  | detect =>
    obtain ⟨es, h, -⟩ := detectInto_trace c s
    exact ⟨es, (h.setResult _).complete _⟩
  | decode => exact ⟨_, decodeWith_trace c s.model s⟩
  | decGp => exact ⟨_, decodeWith_trace c .gamePad s⟩
  | dec3dp => exact ⟨_, decodeWith_trace c .threeDPro s⟩
  | decPp => exact ⟨_, decodeWith_trace c .precisionPro s⟩
  | decFfp => exact ⟨_, decodeWith_trace c .forceFeedbackPro s⟩
  | decFfw => exact ⟨_, decodeWith_trace c .forceFeedbackWheel s⟩
  | init => exact startInit_trace c .cmdInit s
  | update => exact runUpdate_trace c s
  | rdreg addr => exact ⟨_, (Trace.refl s).setResult _⟩
  | hatnib nib => exact ⟨_, ((Trace.refl s).setResult _).complete _⟩
  | wrslot idx val => exact ⟨[], Trace.quiet rfl rfl rfl rfl⟩
  | setlen n => exact ⟨[], Trace.quiet rfl rfl rfl rfl⟩

/-- An illegal word is refused without an event (R95). -/
theorem wordIn_trace (w : Word) (s : State) : ∃ es, Trace s (wordIn c w s) es := by
  unfold wordIn
  split
  · exact opIn_trace c _ s
  · exact ⟨[], Trace.quiet rfl rfl rfl rfl⟩

/-- Consuming the word at the port records nothing, so a step's events are those of its round or of its word (R80). -/
theorem moveIn_trace (s : State) : ∃ es, Trace s (moveIn c s) es := by
  unfold moveIn
  split
  · exact initRound_trace c _ s
  · split
    · exact ⟨[], Trace.refl s⟩
    · rename_i w _
      obtain ⟨es, h⟩ := wordIn_trace c w s.accept
      exact ⟨es, h.of_eq_left rfl rfl rfl rfl⟩

end

/-! #### The statements -/

/-- Settles O57: `moveIn_trace`, the trace of every operation and of every round of Init(), at the machine's configuration. -/
theorem eventHistoryRecordsEveryAnswer : Obligations.EventHistoryRecordsEveryAnswer := by
  intro s hr
  obtain ⟨es, h⟩ := moveIn_trace cfg s
  exact ⟨_, es, step_low hr, h⟩

/-- Settles O5: both steps are the move of the machine, which is the operation of the word at its port. -/
theorem stepRunsDecodedCommand : Obligations.StepRunsDecodedCommand := by
  refine ⟨fun s w i hr hs ho hd => ⟨?_, fun c => ?_⟩, exec_eq, fun s => (step_eq s).trans (stepIn_eq cfg s).symm⟩
  · calc step s = .next (opIn cfg i s.accept) := by rw [step_low hr, moveIn_of_decode cfg hs ho hd]
      _ = exec i s.accept := (exec_eq i s.accept).symm
  · calc stepIn c s = .next (opIn c i s.accept) := by rw [stepIn_low c hr, moveIn_of_decode c hs ho hd]
      _ = execIn c i s.accept := (execIn_eq c i s.accept).symm

/-- Settles O8: `step_eq` gives the next state, whatever the reset input does. -/
theorem everyStepGivesANextState : Obligations.EveryStepGivesANextState := fun s => ⟨_, step_eq s⟩

end Sys2Proof.Machine
end

section
/-! ### PROOFS of family `10_state.md`: the state, its reset and its invariant

What an operation can do is said once (`opIn_does`), and which registers it writes follows from its cases. The global
invariant is kept by every move of the machine; a reset is a state of its own that meets it. -/

namespace Sys2Proof.Machine

/-! #### MODESW -/

theorem hid_modeIdx {s : State} (h : s.hid = Hidden.dead) : ({ s.hid with modeIdx := 0 } : Hidden) = s.hid := by rw [h]

/-- MODESW as a whole: the mode switch's events and the report (R150). -/
theorem opModesw_eq (c : Cfg) {s : State} (h : s.hid = Hidden.dead) :
    opModesw c s =
      { s with
        trig := if c.modeswSeq = [] then s.trig else false, crit := false
        evt := s.evt ++ ([.crit true] ++ modeswEvents c c.modeswSeq ++ [.crit false])
        ok := true, ill := false, redet := false, lasterr := .noError } := by
  unfold opModesw
  rw [modeSwitch_eq, hid_modeIdx h]
  rfl

/-- The machine's MODESW_SEQ has a first pulse (log 21). -/
theorem cfg_modeswSeq_ne_nil : cfg.modeswSeq ≠ [] := List.cons_ne_nil _ _

/-- Settles O25: `opModesw_eq` for every configuration, and for the machine's own, whose sequence has a pulse. -/
theorem modeswSendsThePulseSequence : Obligations.ModeswSendsThePulseSequence := by
  refine ⟨rfl, fun s h => ?_, fun c s h => ?_⟩
  · rw [exec_eq]
    have hm := opModesw_eq cfg h
    rw [if_neg cfg_modeswSeq_ne_nil] at hm
    exact congrArg _ hm
  · exact congrArg _ (opModesw_eq c h)

/-! #### The decoders -/

/-- A packet that decodes gives what the model's extraction gives for some assembled value (R191). -/
theorem decodePacket_ok {c : Cfg} {m : Model} {p : Packet} {len : Nat} {j : Joystick}
    (h : decodePacket c m p len = .ok j) : ∃ v, j = extract c m v := by
  unfold decodePacket at h
  split at h
  · cases h
  · split at h
    · cases h
    · unfold decodeBits at h
      split at h
      · cases h; exact ⟨_, rfl⟩
      · cases h

theorem defaultHatRemap_le (h : BitVec 4) : (defaultHatRemap h).toNat ≤ 8 := by
  unfold defaultHatRemap
  split
  · assumption
  · simp

theorem hatValue_le (v : BitVec 64) (h : Option (List Piece)) : (hatValue cfg v h).toNat ≤ 8 := by
  cases h with
  | none => exact Nat.zero_le _
  | some ps => exact defaultHatRemap_le _

/-- A decoded HAT is within 0..8 (R31, R199). -/
theorem decodePacket_hat_le {m : Model} {p : Packet} {len : Nat} {j : Joystick}
    (h : decodePacket cfg m p len = .ok j) : j.hat.toNat ≤ 8 := by
  obtain ⟨v, rfl⟩ := decodePacket_ok h
  exact hatValue_le v _

/-- A decoder completes with the decoded joystick state committed, or fails and leaves it (R191, R201, R202). -/
theorem decodeWith_cases (c : Cfg) (m : Model) (s : State) :
    (∃ j, decodePacket c m s.pkt s.pktlen.toNat = .ok j ∧
        decodeWith c m s = ((s.commit j).setResult 1).complete .noError) ∨
      (∃ e, decodePacket c m s.pkt s.pktlen.toNat = .error e ∧ (e = .integrityError ∨ e = .lengthMismatch) ∧
        decodeWith c m s = (s.setResult 0).complete e) := by
  unfold decodeWith
  rcases runDecode_cases c m s with ⟨j, hj, hr, hk⟩ | ⟨e, he, hr, hk, h1, h2, h3, h4⟩
  · exact Or.inl ⟨j, hj, by rw [hr, hk]; rfl⟩
  · refine Or.inr ⟨e, he, ?_, ?_⟩
    · cases e <;> simp_all
    · rw [hr, hk, decide_eq_false h1]; rfl

/-- Settles O35: each decoder runs `decodeWith` for its model, which commits or leaves the joystick state. -/
theorem decodeCommitsOrLeavesTheJoystick : Obligations.DecodeCommitsOrLeavesTheJoystick := by
  intro i m s him
  have hx : exec i s = .next (decodeWith cfg m s) := by
    simp only [List.mem_cons, List.not_mem_nil, or_false, Prod.mk.injEq] at him
    rcases him with ⟨rfl, rfl⟩ | ⟨rfl, rfl⟩ | ⟨rfl, rfl⟩ | ⟨rfl, rfl⟩ | ⟨rfl, rfl⟩ | ⟨rfl, rfl⟩ <;> rfl
  rw [hx]
  rcases decodeWith_cases cfg m s with ⟨j, hj, hd⟩ | ⟨e, he, hk, hd⟩
  · refine ⟨fun j' h => ?_, fun e h => by (rw [hj] at h; cases h)⟩
    rw [hj] at h
    cases h
    exact ⟨decodePacket_hat_le hj, congrArg _ hd⟩
  · refine ⟨fun j h => by (rw [he] at h; cases h), fun e' h => ?_⟩
    rw [he] at h
    cases h
    refine ⟨hk, congrArg _ (hd.trans ?_)⟩
    rcases hk with rfl | rfl <;> rfl

/-! #### RDREG -/

theorem rdregWord_eq_encode (addr : BitVec 8) : 0xE0000000 ||| addr.setWidth 32 = encode (.rdreg addr) := by
  apply BitVec.eq_of_getLsbD_eq
  intro i hi
  simp only [encode, mkWord, BitVec.getLsbD_or, BitVec.getLsbD_setWidth, BitVec.getLsbD_append]
  interval_cases i <;> simp

/-- The word of RDREG has SUB 0 and eight zeros above its operand, so it decodes to RDREG (R82, R83). -/
theorem decode_rdreg (addr : BitVec 8) : decode (encode (.rdreg addr)) = .ok (.rdreg addr) := by
  have hi : ((0 : BitVec 8) ++ addr).extractLsb' 8 8 = 0 := BitVec.extractLsb'_append_eq_left
  have lo : ((0 : BitVec 8) ++ addr).extractLsb' 0 8 = addr := BitVec.extractLsb'_append_eq_right
  simp only [encode, decode, rsv_mkWord, op_mkWord, sub_mkWord, imm_mkWord, if_pos]
  show decodeSub0 0 (decodeImm8 ((0 : BitVec 8) ++ addr) .rdreg) = _
  simp only [decodeSub0, decodeImm8, hi, lo, if_pos]

theorem exec_rdreg (addr : BitVec 8) (s : State) :
    exec (.rdreg addr) s = .next { s with result := regFile cfg false s addr } := rfl

/-- LINES at 0x07 (R63): bit 0 TRIG, bit 1 CRIT. -/
theorem linesWord_eq (trig crit : Bool) :
    (BitVec.ofBool crit ++ BitVec.ofBool trig).setWidth 16 =
      (if trig then 1 else 0) ||| (if crit then 2 else 0 : BitVec 16) := by
  cases trig <;> cases crit <;> rfl

theorem bit16_eq (b : Bool) : bit16 b = if b then 1 else 0 := by cases b <;> rfl

/-- DESC of the default DESC_TABLE as a number (R35, R63). -/
theorem descWord_eq (m : Model) :
    descWord (cfg.desc m) = BitVec.ofNat 16 ((cfg.desc m).naxes + 32 * (cfg.desc m).nbuttons +
      1024 * (if (cfg.desc m).hashat then 1 else 0)) := by
  cases m <;> rfl

section
variable (c : Cfg) (b : Bool) (s : State) {addr : BitVec 8}

theorem regFile_low (h : addr.toNat < 0x10) : regFile c b s addr = lowRegister c b s addr.toNat := if_pos h

theorem regFile_axis (h : 0x10 ≤ addr.toNat ∧ addr.toNat < 0x20) :
    regFile c b s addr = (s.axis[addr.toNat - 0x10]'(by omega)).setWidth 16 := by
  unfold regFile
  rw [if_neg (by omega), if_pos h.2, List.getD_eq_getElem _ _ (by simp; omega)]
  simp

theorem regFile_reserved (h : 0x20 ≤ addr.toNat) (h' : addr.toNat < 0x80) : regFile c b s addr = 0 := by
  unfold regFile
  rw [if_neg (by omega), if_neg (by omega), if_pos h']

theorem regFile_slot (h : 0x80 ≤ addr.toNat) :
    regFile c b s addr = (Memory.read s.pkt (addr.toNat - 0x80)).setWidth 16 := by
  unfold regFile
  rw [if_neg (by omega), if_neg (by omega), if_neg (by omega)]
  rfl

end

/-- The codes of MODEL in the order of R29, and the words of the default DESC_TABLE (R36). -/
theorem modelCode_descWord_of_mem {m : Model} {code desc : BitVec 16}
    (h : (m, code, desc) ∈ [(Model.unknown, (0 : BitVec 16), (0x0000 : BitVec 16)), (.gamePad, 1, 0x0142),
      (.threeDPro, 2, 0x0504), (.precisionPro, 3, 0x0524), (.forceFeedbackPro, 4, 0x0524),
      (.forceFeedbackWheel, 5, 0x0103)]) :
    (modelCode m).setWidth 16 = code ∧ descWord (cfg.desc m) = desc := by
  revert code desc
  cases m <;> simp <;> decide

/-- The codes of LASTERR (R38, R272). -/
theorem errCode_of_mem {e : ErrKind} {code : BitVec 16}
    (h : (e, code) ∈ [(ErrKind.noError, (0 : BitVec 16)), (.acquisitionTimeout, 1), (.framingError, 2),
      (.integrityError, 3), (.lengthMismatch, 4), (.illegalCommand, 7)]) : (errCode e).setWidth 16 = code := by
  revert code
  cases e <;> simp <;> decide

/-- Settles O48: RDREG writes `regFile`, which is the register map by the four ranges of addresses. -/
theorem rdregReadsTheRegisterMap : Obligations.RdregReadsTheRegisterMap := by
  refine ⟨fun addr s => ⟨?_, ?_⟩, fun s code desc h => ?_, fun s code h => ?_⟩
  · rw [rdregWord_eq_encode, decode_rdreg]
  · rw [exec_rdreg, ← linesWord_eq, ← descWord_eq, ← bit16_eq]
    by_cases hlow : addr.toNat < 0x10
    · rw [regFile_low cfg false s hlow]
      obtain ⟨k, hk, rfl⟩ : ∃ k, k < 16 ∧ addr = BitVec.ofNat 8 k := ⟨_, hlow, by simp⟩
      interval_cases k <;> rfl
    · have hne : ∀ k : BitVec 8, k.toNat < 0x10 → addr ≠ k := by rintro k hk rfl; exact hlow hk
      repeat rw [if_neg (hne _ (by decide))]
      by_cases hax : addr.toNat < 0x20
      · rw [dif_pos ⟨by omega, hax⟩, regFile_axis cfg false s ⟨by omega, hax⟩]
      · rw [dif_neg (by omega)]
        by_cases hslot : 0x80 ≤ addr.toNat
        · rw [if_pos hslot, regFile_slot cfg false s hslot]
        · rw [if_neg hslot, regFile_reserved cfg false s (by omega) (by omega)]
  · obtain ⟨rfl, rfl⟩ := modelCode_descWord_of_mem h
    exact ⟨rfl, rfl⟩
  · obtain rfl := errCode_of_mem h
    rfl

/-- Settles O49: the word RDREG reads at 0x00 is `statusWord` with BUSY 0, a row of single bits. -/
theorem statusBitsStandInTheirPlaces : Obligations.StatusBitsStandInTheirPlaces := by
  intro s
  refine ⟨_, exec_rdreg 0x00 s, fun i => ?_⟩
  show (statusWord false s).getLsbD i = _
  by_cases hi : i < 16
  · simp only [statusWord, BitVec.getLsbD_append]
    interval_cases i <;> simp
  · rw [BitVec.getLsbD_of_ge _ _ (by omega)]
    repeat rw [if_neg (by omega)]

section
variable (c : Cfg)

/-! #### The move and the step, case by case -/

theorem moveIn_loop {s : State} {k : InitCaller} (h : s.seq = .initLoop k) : moveIn c s = initRound c k s := by
  simp only [moveIn, h]

theorem moveIn_idle {s : State} (h : s.seq = .idle) (hc : s.cmds = []) : moveIn c s = s := by
  simp only [moveIn, h, State.offered, hc]

theorem moveIn_word {s : State} {w : Word} {ws : List Word} (h : s.seq = .idle) (hc : s.cmds = w :: ws) :
    moveIn c s = wordIn c w s.accept := by
  simp only [moveIn, h, State.offered, hc]

end

theorem ResetPin.cases_of_ne_low {r : ResetPin} (h : r ≠ .low) : r = .high ∨ ∃ n, r = .during n := by
  cases r with
  | low => exact absurd rfl h
  | high => exact Or.inl rfl
  | during n => exact Or.inr ⟨n, rfl⟩

theorem step_high {s : State} (h : s.rst = .high) : step s = .next s.afterReset := by rw [step_eq, h]

theorem step_during {s : State} {n : Nat} (h : s.rst = .during n) :
    step s = .next (s.cutReset n (moveIn cfg s)) := by rw [step_eq, h]

/-! #### The event history is never read -/

/-- A procedure run from `s` appends events to the history, the same ones whatever the history was, and leaves all else
the same. -/
def Appends (f : State → State) (s : State) : Prop :=
  ∃ es, (f s).evt = s.evt ++ es ∧ ∀ h, f { s with evt := h } = { f s with evt := h ++ es }

/-- A procedure blind to the history appends to it: run it once from an empty history, and every other run is that one
relabelled. -/
theorem Blind.appends {f : State → State} (hf : Blind f) (s : State) : Appends f s := by
  have run : ∀ h, f { s with evt := h } = (f { s with evt := [] }).relabel h s.cmds := fun h => by
    rw [← hf]; simp [State.relabel]
  have hs : f s = (f { s with evt := [] }).relabel s.evt s.cmds := run s.evt
  exact ⟨(f { s with evt := [] }).evt, by rw [hs]; rfl, fun h => by rw [run h, hs]; rfl⟩

theorem wordIn_blind (c : Cfg) (w : Word) : Blind (wordIn c w) := by
  intro h ws s
  unfold wordIn
  split
  · exact opIn_blind c _ h ws s
  · rfl

/-- The move of a released machine appends to the history and reads nothing of it, the rounds of Init() included (R47). -/
theorem moveIn_appends (c : Cfg) (s : State) : Appends (moveIn c) s := by
  cases hs : s.seq with
  | initLoop k =>
    obtain ⟨es, he, hh⟩ := (Blind.initRound c k).appends s
    rw [← moveIn_loop c hs] at he hh
    exact ⟨es, he, fun h => (moveIn_loop c (s := { s with evt := h }) hs).trans (hh h)⟩
  | idle =>
    cases hc : s.cmds with
    | nil =>
      refine ⟨[], ?_, fun h => ?_⟩
      · rw [moveIn_idle c hs hc, List.append_nil]
      · rw [moveIn_idle c hs hc, moveIn_idle c (s := { s with evt := h }) hs hc, List.append_nil]
    | cons w ws =>
      obtain ⟨es, he, hh⟩ := (wordIn_blind c w).appends s.accept
      rw [← moveIn_word c hs hc] at he hh
      exact ⟨es, he, fun h => (moveIn_word c (s := { s with evt := h }) hs hc).trans (hh h)⟩

/-- A reset cuts what the move would do after n of its own events: the history before it plays no part (R302). -/
theorem cutReset_history (c : Cfg) (n : Nat) (s : State) (h : List Event) :
    State.cutReset n { s with evt := h } (moveIn c { s with evt := h }) = s.cutReset n (moveIn c s) := by
  obtain ⟨es, he, hh⟩ := moveIn_appends c s
  unfold State.cutReset
  rw [hh h, he, List.drop_left, List.drop_left]
  rfl

/-- Settles O58: every procedure is `Blind`, so it appends (`Blind.appends`), and so does a step (`moveIn_appends`); a reset
uses of the history only what the step it cuts appended (`cutReset_history`). -/
theorem eventHistoryIsNeverRead : Obligations.EventHistoryIsNeverRead := by
  refine ⟨fun i s => ?_, fun s hr => ?_, fun s hr h => ?_⟩
  · obtain ⟨es, he, hh⟩ := (opIn_blind cfg i).appends s
    exact ⟨_, es, exec_eq i s, he, fun h => (exec_eq i _).trans (congrArg _ (hh h))⟩
  · obtain ⟨es, he, hh⟩ := moveIn_appends cfg s
    exact ⟨_, es, step_low hr, he, fun h => (step_low (s := { s with evt := h }) hr).trans (congrArg _ (hh h))⟩
  · rcases ResetPin.cases_of_ne_low hr with hp | ⟨n, hp⟩
    · exact (step_high (s := { s with evt := h }) hp).trans (step_high hp).symm
    · rw [step_during (s := { s with evt := h }) hp, step_during hp, cutReset_history]

section
variable (c : Cfg)

/-! #### The frame of an operation -/

/-- The state without what an acquisition, IDVAL and the outcome may change: what every operation keeps but those that
write MODEL, ERRCNT or the joystick state. -/
def State.exceptRead (s : State) : State := ({ s.exceptAcquisition with idval := 0 } : State).exceptOutcome

theorem exceptRead_of_exceptAcquisition {s t : State} (h : t.exceptAcquisition = s.exceptAcquisition) :
    t.exceptRead = s.exceptRead := by
  unfold State.exceptRead; rw [h]

theorem exceptRead_of_exceptWait {s t : State} (h : t.exceptWait = s.exceptWait) : t.exceptRead = s.exceptRead :=
  exceptRead_of_exceptAcquisition (exceptWait_exceptAcquisition h)

/-- RESULT is not among what `exceptRead` keeps. -/
theorem setResult_exceptRead {s t : State} (h : t.exceptRead = s.exceptRead) (v : BitVec 16) :
    (t.setResult v).exceptRead = s.exceptRead := h

theorem State.poll_exceptRead (s : State) : s.poll.exceptRead = s.exceptRead := by rw [← State.polled_one]; rfl

theorem readId_exceptRead (len : Nat) (s : State) : (readId c len s).exceptRead = s.exceptRead := by
  unfold State.exceptRead; rw [readId_frame]

/-- The fields of `exceptRead` that the statements speak of, field by field. -/
theorem exceptRead_fields {s t : State} (h : t.exceptRead = s.exceptRead) :
    t.joystick = s.joystick ∧ t.errcnt = s.errcnt ∧ t.seq = s.seq ∧ t.model = s.model := by
  have ha : t.axis = s.axis := by have a := congrArg State.axis h; exact a
  have hh : t.hat = s.hat := by have a := congrArg State.hat h; exact a
  have hb : t.buttons = s.buttons := by have a := congrArg State.buttons h; exact a
  have hv : t.valid = s.valid := by have a := congrArg State.valid h; exact a
  refine ⟨by unfold State.joystick; rw [ha, hh, hb, hv], ?_, ?_, ?_⟩
  · have a := congrArg State.errcnt h; exact a
  · have a := congrArg State.seq h; exact a
  · have a := congrArg State.model h; exact a

theorem waitKind_ne_illegal (s : State) : waitKind s ≠ .illegalCommand := by
  unfold waitKind; split <;> simp

theorem acqKind_ne_illegal (s : State) : acqKind s ≠ .illegalCommand := by
  rcases acqKind_cases s with ⟨h, -⟩ | ⟨h, -⟩ | ⟨h, -⟩ <;> simp [h]

theorem detectKind_ne_illegal (s : State) : detectKind s ≠ .illegalCommand := by
  unfold detectKind; split <;> simp

/-- What an operation can do, said once: read a register; complete with a report and keep all that `exceptRead` keeps;
detect; decode; or run Init(), alone or after an update cycle. -/
inductive Does (s : State) : Instr → State → Prop
  | reads (addr : BitVec 8) : Does s (.rdreg addr) (s.setResult (regFile c false s addr))
  | completes {i : Instr} {u : State} {e : ErrKind} (hm : writesModel i = false) (hd : canDecode i = false)
      (he : e ≠ .illegalCommand) (hf : u.exceptRead = s.exceptRead) : Does s i (u.complete e)
  | detects : Does s .detect (((detectInto c s).setResult ((modelCode (detectInto c s).model).setWidth 16)).complete
      (detectKind (detectInto c s)))
  | decodes {i : Instr} (m : Model) (hm : writesModel i = false) (hd : canDecode i = true) :
      Does s i (decodeWith c m s)
  | inits : Does s .init (startInit c .cmdInit s)
  | updates : Does s .update (runUpdate c s)

theorem opIn_does (i : Instr) (s : State) : Does c s i (opIn c i s) := by
  cases i with
  | nop => exact .completes rfl rfl nofun rfl
  | rdlvl line => exact .completes rfl rfl nofun (setResult_exceptRead (State.poll_exceptRead s) _)
  | settrig level => exact .completes rfl rfl nofun rfl
  | pulse us => exact .completes rfl rfl nofun rfl
  | waitedge line dir tmo =>
    exact .completes rfl rfl (waitKind_ne_illegal _)
      (setResult_exceptRead (exceptRead_of_exceptWait (waitEdge_except line dir tmo s)) _)
  | waitlvl line level tmo =>
    exact .completes rfl rfl (waitKind_ne_illegal _)
      (setResult_exceptRead (exceptRead_of_exceptWait (waitLevel_except line tmo level s)) _)
  | acqs =>
    exact .completes rfl rfl (acqKind_ne_illegal _)
      (setResult_exceptRead (exceptRead_of_exceptAcquisition (acqSerial_frame c _ s)) _)
  | acqt =>
    exact .completes rfl rfl (acqKind_ne_illegal _)
      (setResult_exceptRead (exceptRead_of_exceptAcquisition (acqSerial_frame c _ s)) _)
  | acqb =>
    exact .completes rfl rfl (acqKind_ne_illegal _)
      (setResult_exceptRead (exceptRead_of_exceptAcquisition (acqByte_frame c s)) _)
  | modesw => exact .completes rfl rfl nofun (exceptRead_of_exceptAcquisition (modeSwitch_frame c s))
  | cooldown => exact .completes rfl rfl nofun rfl
  | readid len => exact .completes rfl rfl nofun (setResult_exceptRead (readId_exceptRead c len.toNat s) _)
  | detect => exact .detects
  | decode => exact .decodes s.model rfl rfl
  | decGp => exact .decodes .gamePad rfl rfl
  | dec3dp => exact .decodes .threeDPro rfl rfl
  | decPp => exact .decodes .precisionPro rfl rfl
  | decFfp => exact .decodes .forceFeedbackPro rfl rfl
  | decFfw => exact .decodes .forceFeedbackWheel rfl rfl
  | init => exact .inits
  | update => exact .updates
  | rdreg addr => exact .reads addr
  | hatnib nib => exact .completes rfl rfl nofun rfl
  | wrslot idx val => exact .completes rfl rfl nofun rfl
  | setlen n => exact .completes rfl rfl nofun rfl

/-! #### UPDATE by its three ways -/

/-- UPDATE runs Init() at once, or a cycle alone, or a cycle that escalates into Init() (R245, R249). -/
theorem runUpdate_cases (s : State) :
    (s.model = .unknown ∧ runUpdate c s = startInit c .updateUnknown s.beginUpdate) ∨
      (s.model ≠ .unknown ∧ escalates c (updateCycle c s) = false ∧
        runUpdate c s = (updateCycle c s).setResult (bit16 (updateCycle c s).ok)) ∨
      (s.model ≠ .unknown ∧ escalates c (updateCycle c s) = true ∧
        runUpdate c s = startInit c .updateEscalated (updateCycle c s)) := by
  unfold runUpdate
  by_cases hm : s.model = .unknown
  · exact Or.inl ⟨hm, if_pos hm⟩
  · rw [if_neg hm]
    cases he : escalates c (updateCycle c s) with
    | false => exact Or.inr (Or.inl ⟨hm, rfl, if_neg (by simp [he])⟩)
    | true => exact Or.inr (Or.inr ⟨hm, rfl, if_pos he⟩)

/-- A cycle whose escalation test holds has failed (R249). -/
theorem lasterr_of_escalates {s : State} (h : escalates c s = true) :
    s.lasterr ≠ .noError ∧ c.errThreshold < s.errcnt.toNat := by
  simpa [escalates] using h

/-- Init() keeps the joystick state and ends with ERRCNT 0 (R242). -/
theorem startInit_keeps (k : InitCaller) (s : State) :
    (startInit c k s).joystick = s.joystick ∧ (startInit c k s).errcnt = 0 := by
  obtain ⟨hj, he, -⟩ := initAttempt_keeps c k s.enterInit
  exact ⟨hj, he⟩

/-- A round of Init() keeps the joystick state, the mode switch included (R242). -/
theorem initRound_joystick (k : InitCaller) (s : State) : (initRound c k s).joystick = s.joystick := by
  obtain ⟨hj, -⟩ := initAttempt_keeps c k (initSwitch c s)
  obtain ⟨hs, -⟩ := exceptAcquisition_fields (initSwitch_frame c s)
  exact hj.trans hs

/-- An update cycle reports OK and sets VALID, or fails and keeps the joystick state; MODEL is kept in both (R34, R245). -/
theorem updateCycle_joystick (s : State) :
    (updateCycle c s).ok = true ∧ (updateCycle c s).lasterr = .noError ∧ (updateCycle c s).valid = true ∨
      (updateCycle c s).ok = false ∧ (updateCycle c s).lasterr ≠ .noError ∧ (updateCycle c s).joystick = s.joystick := by
  rcases updateCycle_cases c s with ⟨j, -, -, h⟩ | ⟨e, hne, -, -, h⟩
  · rw [h]; exact Or.inl ⟨rfl, rfl, rfl⟩
  · obtain ⟨hj, -⟩ := exceptAcquisition_fields (acquire_frame c s.beginUpdate)
    rw [h]; exact Or.inr ⟨rfl, hne, hj⟩

theorem updateCycle_model (s : State) : (updateCycle c s).model = s.model := by
  have hm : (acquire c s.beginUpdate).model = s.model := by
    have h := congrArg State.model (acquire_frame c s.beginUpdate); exact h
  rcases updateCycle_cases c s with ⟨j, -, -, h⟩ | ⟨e, -, -, -, h⟩ <;> rw [h]
  · exact hm
  · exact hm

/-- Init() called by UPDATE, idle again, has set REDET (R245, R249). -/
theorem startInit_redet {k : InitCaller} (hk : k ≠ .cmdInit) {s : State} (hs : (startInit c k s).seq = .idle) :
    (startInit c k s).redet = true := by
  unfold startInit at *
  rcases initAttempt_cases c k s.enterInit with ⟨-, h⟩ | ⟨-, h⟩
  · rw [h] at hs; cases hs
  · rw [h]
    cases k with
    | cmdInit => exact absurd rfl hk
    | updateUnknown => rfl
    | updateEscalated => rfl

/-- An UPDATE that ends idle without re-detection has not touched MODEL (R29, R246). -/
theorem runUpdate_model {s : State} (hs : (runUpdate c s).seq = .idle) (hr : (runUpdate c s).redet = false) :
    (runUpdate c s).model = s.model := by
  rcases runUpdate_cases c s with ⟨-, h⟩ | ⟨-, -, h⟩ | ⟨-, -, h⟩ <;> rw [h] at hs hr ⊢
  · rw [startInit_redet c (k := .updateUnknown) nofun hs] at hr; cases hr
  · exact updateCycle_model c s
  · rw [startInit_redet c (k := .updateEscalated) nofun hs] at hr; cases hr

/-- The joystick state after UPDATE (R34): kept, or written by a successful decode, which sets VALID and reports OK. -/
theorem runUpdate_joystick (s : State) :
    (runUpdate c s).joystick = s.joystick ∨ (runUpdate c s).ok = true ∧ (runUpdate c s).valid = true := by
  rcases runUpdate_cases c s with ⟨-, h⟩ | ⟨-, -, h⟩ | ⟨-, he, h⟩ <;> rw [h]
  · exact Or.inl (startInit_keeps c _ _).1
  · rcases updateCycle_joystick c s with ⟨ho, -, hv⟩ | ⟨-, -, hj⟩
    · exact Or.inr ⟨ho, hv⟩
    · exact Or.inl hj
  · obtain ⟨hne, -⟩ := lasterr_of_escalates c he
    rcases updateCycle_joystick c s with ⟨-, hl, -⟩ | ⟨-, -, hj⟩
    · exact absurd hl hne
    · exact Or.inl ((startInit_keeps c _ _).1.trans hj)

/-! #### Which operations write MODEL, ERRCNT and the joystick state -/

theorem detectInto_keeps (s : State) :
    (detectInto c s).joystick = s.joystick ∧ (detectInto c s).errcnt = s.errcnt ∧ (detectInto c s).seq = s.seq := by
  obtain ⟨hj, he, -, -, -, -, -, hs, -⟩ := exceptDetection_fields (detectInto_frame c s)
  exact ⟨hj, he, hs⟩

theorem opIn_model {i : Instr} (h : writesModel i = false) (s : State) : (opIn c i s).model = s.model := by
  have hdo := opIn_does c i s
  generalize opIn c i s = t at hdo ⊢
  cases hdo with
  | reads addr => rfl
  | completes _ _ _ hf =>
    obtain ⟨-, -, -, hm⟩ := exceptRead_fields hf
    exact hm
  | decodes m =>
    rcases decodeWith_cases c m s with ⟨j, -, hw⟩ | ⟨e, -, -, hw⟩ <;> rw [hw] <;> rfl
  | detects | inits | updates => cases h

theorem opIn_errcnt {i : Instr} (h : writesErrcnt i = false) (s : State) : (opIn c i s).errcnt = s.errcnt := by
  have hdo := opIn_does c i s
  generalize opIn c i s = t at hdo ⊢
  cases hdo with
  | reads addr => rfl
  | completes _ _ _ hf =>
    obtain ⟨-, he, -⟩ := exceptRead_fields hf
    exact he
  | detects =>
    obtain ⟨-, he, -⟩ := detectInto_keeps c s
    exact he
  | decodes m =>
    rcases decodeWith_cases c m s with ⟨j, -, hw⟩ | ⟨e, -, -, hw⟩ <;> rw [hw] <;> rfl
  | inits | updates => cases h

/-- The joystick state after any operation (R30 to R34): kept, or written by a successful decode, which sets VALID and
reports OK. -/
theorem opIn_joystick (i : Instr) (s : State) :
    (opIn c i s).joystick = s.joystick ∨
      canDecode i = true ∧ (opIn c i s).ok = true ∧ (opIn c i s).valid = true := by
  have hdo := opIn_does c i s
  generalize opIn c i s = t at hdo ⊢
  cases hdo with
  | reads addr => exact Or.inl rfl
  | completes _ _ _ hf => exact Or.inl (exceptRead_fields hf).1
  | detects => exact Or.inl (detectInto_keeps c s).1
  | decodes m _ hd =>
    rcases decodeWith_cases c m s with ⟨j, -, hw⟩ | ⟨e, -, -, hw⟩ <;> rw [hw]
    · exact Or.inr ⟨hd, rfl, rfl⟩
    · exact Or.inl rfl
  | inits => exact Or.inl (startInit_keeps c .cmdInit s).1
  | updates => exact (runUpdate_joystick c s).imp_right fun h => ⟨rfl, h⟩

theorem valid_of_joystick {s t : State} (h : t.joystick = s.joystick) : t.valid = s.valid :=
  congrArg (fun q => q.2.2.2) h

/-- No operation clears VALID (R33). -/
theorem opIn_valid (i : Instr) {s : State} (h : s.valid = true) : (opIn c i s).valid = true := by
  rcases opIn_joystick c i s with hj | ⟨-, -, hv⟩
  · exact (valid_of_joystick hj).trans h
  · exact hv

/-- No word clears VALID, a refused one included (R33, R95). -/
theorem wordIn_valid (w : Word) {s : State} (h : s.valid = true) : (wordIn c w s).valid = true := by
  unfold wordIn
  split
  · exact opIn_valid c _ h
  · exact h

/-- No step of a released machine clears VALID (R33). -/
theorem moveIn_valid {s : State} (h : s.valid = true) : (moveIn c s).valid = true := by
  unfold moveIn
  split
  · exact (valid_of_joystick (initRound_joystick c _ s)).trans h
  · split
    · exact h
    · exact wordIn_valid c _ (s := s.accept) h

end

/-- Settles O53: `opIn_model` for the operations that do not write MODEL, `runUpdate_model` for UPDATE. -/
theorem modelChangesOnlyByDetection : Obligations.ModelChangesOnlyByDetection := by
  intro i s _
  refine ⟨_, exec_eq i s, fun h => opIn_model cfg h s, ?_⟩
  rintro rfl hs hr
  exact runUpdate_model cfg hs hr

/-- Settles O54: by the cases of `opIn_does`, gathered in `opIn_errcnt`. -/
theorem errcntChangesOnlyByPolicy : Obligations.ErrcntChangesOnlyByPolicy :=
  fun i s => ⟨_, exec_eq i s, fun h => opIn_errcnt cfg h s⟩

/-- Settles O55: where the joystick state changes, `opIn_joystick` has the operation decode and OK set. -/
theorem joystickChangesOnlyBySuccess : Obligations.JoystickChangesOnlyBySuccess := by
  intro i s _
  refine ⟨_, exec_eq i s, fun h => ?_, fun h => ?_⟩ <;>
    rcases opIn_joystick cfg i s with hj | ⟨hd, ho, -⟩
  · exact hj
  · rw [h] at hd; cases hd
  · exact hj
  · rw [h] at ho; cases ho

/-- Settles O56: the move of a released machine keeps VALID, the rounds of Init() included (`moveIn_valid`). -/
theorem validIsClearedOnlyByReset : Obligations.ValidIsClearedOnlyByReset :=
  fun _ hr hv => ⟨_, step_low hr, moveIn_valid cfg hv⟩

/-! #### The reset -/

theorem globalInv_reset : GlobalInv State.reset where
  pktlen_le := Nat.zero_le _
  pkt_wf := reset_pkt_wf
  hat_le := Nat.zero_le _
  crit_low := rfl
  errcnt_le := Nat.zero_le _
  hidden_dead := rfl
  looping := nofun
  escalated := nofun
  ill_iff _ := by decide
  ok_clean _ := nofun

/-- A reset by the pin meets the invariant whatever ran (R49, R300); HAT is a free value within 0..8 (log 7). -/
theorem globalInv_afterReset (s : State) : GlobalInv s.afterReset where
  pktlen_le := globalInv_reset.pktlen_le
  pkt_wf := globalInv_reset.pkt_wf
  hat_le := by
    have h := (Config.resetHat s.draws).isLt
    rw [State.afterReset_hat, BitVec.toNat_ofNat]
    omega
  crit_low := rfl
  errcnt_le := globalInv_reset.errcnt_le
  hidden_dead := rfl
  looping := nofun
  escalated := nofun
  ill_iff := globalInv_reset.ill_iff
  ok_clean := globalInv_reset.ok_clean

/-- Settles O12: clause by clause, the reset state being a literal. -/
theorem resetMeetsTheInvariant : Obligations.ResetMeetsTheInvariant := globalInv_reset

/-- Settles O10: the reset state has the values of R50, and a step with the pin asserted leaves them too (`step_reset`). -/
theorem resetLeavesTheStatedValues : Obligations.ResetLeavesTheStatedValues := by
  rintro r (rfl | ⟨s, hr, hs⟩)
  · exact ⟨rfl, rfl, fun _ => rfl, rfl, rfl, rfl, rfl, rfl, rfl, rfl, rfl, rfl, rfl, rfl⟩
  · obtain ⟨u, hu⟩ := step_reset hr
    rw [hu] at hs
    cases hs
    have hw : statusWord u.afterReset.busy u.afterReset = statusWord State.reset.busy State.reset := rfl
    exact ⟨rfl, rfl, fun _ => rfl, rfl, rfl, rfl, rfl, rfl, hw, rfl, rfl, rfl, rfl, rfl⟩

/-! #### What a decoded word can ask for -/

theorem decodeSetlen_le {imm : BitVec 16} {n : BitVec 8} (h : decodeSetlen imm = .ok (.setlen n)) :
    n.toNat ≤ capSlots := by
  unfold decodeSetlen at h
  split at h
  · split at h
    · cases h; assumption
    · cases h
  · cases h

/-- SETLEN stands in the row group of OP 0xF alone (R83). -/
theorem decodeGroup_setlen {op sub : BitVec 4} {imm : BitVec 16} {n : BitVec 8}
    (h : decodeGroup op sub imm = .ok (.setlen n)) : decodeSetlen imm = .ok (.setlen n) := by
  unfold decodeGroup at h
  simp only [decodeSub0, decodePlain, decodeImm8, decodeRdlvl, decodeSettrig, decodeWaitedge, decodeWaitlvl, decodeAcq,
    decodeDec, decodeMisc, decodeHatnib, decodeWrslot] at h
  repeat' split at h
  all_goals try cases h
  exact h

theorem decode_wellFormed {w : Word} {i : Instr} (h : decode w = .ok i) : i.WellFormed := by
  cases i with
  | setlen n =>
    unfold decode at h
    split at h
    · exact decodeSetlen_le (decodeGroup_setlen h)
    · cases h
  | _ => trivial

section
variable (c : Cfg)

/-! #### The packet, CRIT and the hidden state after an operation -/

/-- The clauses of the invariant on what an acquisition works with (R24, R27, R46, R60). -/
structure Tidy (s : State) : Prop where
  pktlen_le : s.pktlen.toNat ≤ capSlots
  pkt_wf : Memory.wf s.pkt = true
  crit_low : s.crit = false
  hidden_dead : s.hid = Hidden.dead

/-- The report and RESULT play no part. -/
theorem Tidy.reported {s : State} (h : Tidy s) (v : BitVec 16) (e : ErrKind) : Tidy ((s.setResult v).complete e) :=
  ⟨h.pktlen_le, h.pkt_wf, h.crit_low, h.hidden_dead⟩

theorem Tidy.of_eq {s t : State} (h : Tidy s) (hl : t.pktlen = s.pktlen) (hp : t.pkt = s.pkt) (hc : t.crit = s.crit)
    (hh : t.hid = s.hid) : Tidy t :=
  ⟨hl ▸ h.pktlen_le, hp ▸ h.pkt_wf, hc ▸ h.crit_low, hh ▸ h.hidden_dead⟩

theorem Tidy.acqSerial {s : State} (h : Tidy s) (keep : Slot) : Tidy (acqSerial c keep s) := by
  obtain ⟨hl, hw, -, -, -, hh⟩ := acqSerial_packet c keep s h.hidden_dead
  exact ⟨hl, hw, rfl, hh⟩

theorem acqByte_tidy (s : State) : Tidy (acqByte c s) := by
  obtain ⟨hl, -, hw, -⟩ := acqByte_packet c s
  exact ⟨hl, hw, acqByte_crit c s, acqByte_hid c s⟩

theorem Tidy.acquire {s : State} (h : Tidy s) : Tidy (acquire c s) := by
  obtain ⟨-, hc, hh, hl, hw⟩ := acquire_leaves c s h.hidden_dead
  exact ⟨hl, hw, hc, hh⟩

theorem Tidy.readId {s : State} (h : Tidy s) (len : Nat) : Tidy (readId c len s) := by
  obtain ⟨hl, hw, -, -, hh⟩ := readId_packet c len s h.hidden_dead
  exact ⟨hl, hw, rfl, hh⟩

theorem Tidy.detectInto {s : State} (h : Tidy s) : Tidy (detectInto c s) := by
  show Tidy { detectRead c s with model := _ }
  rcases detectRead_cases c s with hr | hr <;> rw [hr]
  · exact h.of_eq rfl rfl rfl rfl
  · exact ((h.of_eq (t := coolDown c s) rfl rfl rfl rfl).readId c _).of_eq rfl rfl rfl rfl

theorem Tidy.modeSwitch {s : State} (h : Tidy s) : Tidy (modeSwitch c s) := by
  rw [modeSwitch_eq]
  exact ⟨h.pktlen_le, h.pkt_wf, rfl, (hid_modeIdx h.hidden_dead).trans h.hidden_dead⟩

theorem Tidy.initSwitch {s : State} (h : Tidy s) : Tidy (initSwitch c s) := by
  rcases initSwitch_cases c s with ⟨-, e⟩ | ⟨-, e⟩ <;> rw [e]
  · exact (h.of_eq (t := coolDown c s) rfl rfl rfl rfl).modeSwitch c
  · exact h

theorem Tidy.initAttempt {s : State} (h : Tidy s) (k : InitCaller) : Tidy (initAttempt c k s) := by
  have hx := (h.acquire c).detectInto c
  rcases initAttempt_cases c k s with ⟨-, e⟩ | ⟨-, e⟩ <;> rw [e]
  · exact hx.of_eq rfl rfl rfl rfl
  · cases k <;> exact hx.of_eq rfl rfl rfl rfl

theorem Tidy.startInit {s : State} (h : Tidy s) (k : InitCaller) : Tidy (startInit c k s) :=
  (h.of_eq (t := s.enterInit) rfl rfl rfl rfl).initAttempt c k

theorem Tidy.decodeWith {s : State} (h : Tidy s) (m : Model) : Tidy (decodeWith c m s) := by
  rcases decodeWith_cases c m s with ⟨j, -, e⟩ | ⟨k, -, -, e⟩ <;> rw [e] <;> exact h.of_eq rfl rfl rfl rfl

theorem Tidy.updateCycle {s : State} (h : Tidy s) : Tidy (updateCycle c s) := by
  have ha : Tidy (Machine.acquire c s.beginUpdate) :=
    (h.of_eq (t := s.beginUpdate) rfl rfl rfl rfl).acquire c
  rcases updateCycle_cases c s with ⟨j, -, -, e⟩ | ⟨k, -, -, -, e⟩ <;> rw [e] <;> exact ha.of_eq rfl rfl rfl rfl

theorem Tidy.runUpdate {s : State} (h : Tidy s) : Tidy (runUpdate c s) := by
  rcases runUpdate_cases c s with ⟨-, e⟩ | ⟨-, -, e⟩ | ⟨-, -, e⟩ <;> rw [e]
  · exact (h.of_eq (t := s.beginUpdate) rfl rfl rfl rfl).startInit c _
  · exact (h.updateCycle c).of_eq rfl rfl rfl rfl
  · exact (h.updateCycle c).startInit c _

theorem opIn_tidy {i : Instr} (hi : i.WellFormed) {s : State} (h : Tidy s) : Tidy (opIn c i s) := by
  cases i with
  | nop => exact h.of_eq rfl rfl rfl rfl
  | rdlvl line =>
    exact h.of_eq (State.poll_pktlen s) (State.poll_pkt s) (State.poll_crit s) (State.poll_hid s)
  | settrig level => exact h.of_eq rfl rfl rfl rfl
  | pulse us => exact h.of_eq rfl rfl rfl rfl
  | waitedge line dir tmo =>
    refine h.of_eq (waitEdge_pktlen line dir tmo s) (waitEdge_pkt line dir tmo s) (waitEdge_crit line dir tmo s)
      ((waitEdge_hid line dir tmo s).trans ?_)
    rw [h.hidden_dead]
  | waitlvl line level tmo =>
    exact h.of_eq (waitLevel_pktlen line tmo level s) (waitLevel_pkt line tmo level s)
      (waitLevel_crit line tmo level s) (waitLevel_hid line tmo level s)
  | acqs => exact (h.acqSerial c _).reported _ _
  | acqt => exact (h.acqSerial c _).reported _ _
  | acqb => exact (acqByte_tidy c s).reported _ _
  | modesw => exact (h.modeSwitch c).of_eq rfl rfl rfl rfl
  | cooldown => exact h.of_eq rfl rfl rfl rfl
  | readid len => exact (h.readId c _).reported _ _
  | detect => exact (h.detectInto c).reported _ _
  | decode => exact h.decodeWith c _
  | decGp => exact h.decodeWith c _
  | dec3dp => exact h.decodeWith c _
  | decPp => exact h.decodeWith c _
  | decFfp => exact h.decodeWith c _
  | decFfw => exact h.decodeWith c _
  | init => exact h.startInit c _
  | update => exact h.runUpdate c
  | rdreg addr => exact h.of_eq rfl rfl rfl rfl
  | hatnib nib => exact h.of_eq rfl rfl rfl rfl
  | wrslot idx val => exact ⟨h.pktlen_le, Memory.wf_write h.pkt_wf idx.isLt val, h.crit_low, h.hidden_dead⟩
  | setlen n => exact ⟨hi, Memory.wf_below h.pkt_wf _, h.crit_low, h.hidden_dead⟩

end

/-! #### The invariant -/

theorem hat_of_joystick {s t : State} (h : t.joystick = s.joystick) : t.hat = s.hat := congrArg (fun q => q.2.1) h

/-- When idle, the clauses of the invariant on the loop head of Init() say nothing. -/
theorem Tidy.globalInv {s : State} (h : Tidy s) (hs : s.seq = .idle) (hhat : s.hat.toNat ≤ 8)
    (herr : s.errcnt.toNat ≤ cfg.errThreshold) (hill : s.ill = true ↔ s.lasterr = .illegalCommand)
    (hok : s.ok = true → s.lasterr = .noError) : GlobalInv s where
  pktlen_le := h.pktlen_le
  pkt_wf := h.pkt_wf
  hat_le := hhat
  crit_low := h.crit_low
  errcnt_le := herr
  hidden_dead := h.hidden_dead
  looping k hk := by rw [hs] at hk; cases hk
  escalated hk := by rw [hs] at hk; cases hk
  ill_iff _ := hill
  ok_clean _ := hok

theorem GlobalInv.tidy {s : State} (h : GlobalInv s) : Tidy s := ⟨h.pktlen_le, h.pkt_wf, h.crit_low, h.hidden_dead⟩

/-- The report with which an operation completes agrees with itself (R39, R271). -/
theorem globalInv_complete {u : State} {e : ErrKind} (h : Tidy (u.complete e)) (hs : u.seq = .idle)
    (hhat : u.hat.toNat ≤ 8) (herr : u.errcnt.toNat ≤ cfg.errThreshold) (he : e ≠ .illegalCommand) :
    GlobalInv (u.complete e) :=
  h.globalInv hs hhat herr (by simp [he]) (by simp)

/-- What an attempt of Init() asks of the state it starts from: ERRCNT cleared, and in an escalation the failed cycle's
report (R242, R249). -/
structure EntersInit (k : InitCaller) (s : State) : Prop where
  tidy : Tidy s
  hat_le : s.hat.toNat ≤ 8
  errcnt_zero : s.errcnt = 0
  escalated : k = .updateEscalated → s.ok = false ∧ s.lasterr ≠ .noError ∧ s.lasterr ≠ .illegalCommand

theorem EntersInit.initAttempt {k : InitCaller} {s : State} (h : EntersInit k s) : GlobalInv (initAttempt cfg k s) := by
  have ht := h.tidy.initAttempt cfg k
  obtain ⟨htrig, -⟩ := attempt_leaves cfg s h.tidy.hidden_dead
  obtain ⟨hj, he, hok, -, hl, -⟩ := exceptDetection_fields (attempt_frame cfg s)
  have hhat := hat_of_joystick hj ▸ h.hat_le
  have herr := he.trans h.errcnt_zero
  have hesc := h.escalated
  rw [← hok, ← hl] at hesc
  have hcases := initAttempt_cases cfg k s
  generalize detectInto cfg (acquire cfg s) = x at *
  rcases hcases with ⟨hm, e⟩ | ⟨hm, e⟩ <;> rw [e] at ht ⊢
  · exact {
      pktlen_le := ht.pktlen_le
      pkt_wf := ht.pkt_wf
      hat_le := hhat
      crit_low := ht.crit_low
      errcnt_le := herr ▸ Nat.zero_le _
      hidden_dead := ht.hidden_dead
      looping := fun _ _ => ⟨hm, herr, htrig⟩
      escalated := fun hk => hesc (Seq.initLoop.inj hk)
      ill_iff := nofun
      ok_clean := nofun }
  · have hle : x.errcnt.toNat ≤ cfg.errThreshold := by rw [herr]; exact Nat.zero_le _
    cases k with
    | cmdInit => exact ht.globalInv rfl hhat hle (by simp [State.leaveInit]) (by simp [State.leaveInit])
    | updateUnknown => exact ht.globalInv rfl hhat hle (by simp [State.leaveInit]) (by simp [State.leaveInit])
    | updateEscalated =>
      obtain ⟨hok, -, hni⟩ := hesc rfl
      exact ht.globalInv rfl hhat hle (by simp [State.leaveInit, hni]) (by simp [State.leaveInit, hok])

theorem errcnt_le_of_not_escalates (c : Cfg) {s : State} (h : escalates c s = false) (hl : s.lasterr ≠ .noError) :
    s.errcnt.toNat ≤ c.errThreshold := by
  simpa [escalates, hl] using h

/-- A failed cycle below the threshold counts one more; one whose escalation test holds has ERRCNT cleared by Init(). -/
theorem runUpdate_inv {s : State} (hs : s.seq = .idle) (h : GlobalInv s) : GlobalInv (runUpdate cfg s) := by
  have ht := h.tidy.runUpdate cfg
  have hu := h.tidy.updateCycle cfg
  obtain ⟨hj, -, -, -, -, -, hill, hseq, -⟩ := exceptAcquisition_fields (acquire_frame cfg s.beginUpdate)
  have hhat : (acquire cfg s.beginUpdate).hat.toNat ≤ 8 := by rw [hat_of_joystick hj]; exact h.hat_le
  rcases runUpdate_cases cfg s with ⟨-, e⟩ | ⟨-, hesc, e⟩ | ⟨-, hesc, e⟩ <;> rw [e] at ht ⊢
  · exact EntersInit.initAttempt (s := s.beginUpdate.enterInit)
      ⟨h.tidy.of_eq rfl rfl rfl rfl, h.hat_le, rfl, nofun⟩
  · rcases updateCycle_cases cfg s with ⟨j, hd, -, hc⟩ | ⟨k, hk, hki, -, hc⟩
    · rw [hc] at ht ⊢
      exact ht.globalInv (hseq.trans hs) (decodePacket_hat_le hd) (Nat.zero_le _)
        (by simp [hill]) (by simp)
    · have hle := errcnt_le_of_not_escalates cfg hesc (by rw [hc]; exact hk)
      rw [hc] at ht hle ⊢
      exact ht.globalInv (hseq.trans hs) hhat hle (by simp [hill, hki]) nofun
  · obtain ⟨hne, hgt⟩ := lasterr_of_escalates cfg hesc
    rcases updateCycle_cases cfg s with ⟨j, -, -, hc⟩ | ⟨k, hk, hki, -, hc⟩
    · rw [hc] at hne
      exact absurd rfl hne
    · rw [hc] at hu ⊢
      exact EntersInit.initAttempt ⟨hu.of_eq rfl rfl rfl rfl, hhat, rfl, fun _ => ⟨rfl, hk, hki⟩⟩

/-- Every operation of an idle machine keeps the invariant. -/
theorem opIn_inv {i : Instr} (hi : i.WellFormed) {s : State} (hs : s.seq = .idle) (h : GlobalInv s) :
    GlobalInv (opIn cfg i s) := by
  have ht := opIn_tidy cfg hi h.tidy
  have hdo := opIn_does cfg i s
  generalize opIn cfg i s = t at ht hdo ⊢
  cases hdo with
  | reads addr => exact ht.globalInv hs h.hat_le h.errcnt_le (h.ill_iff hs) (h.ok_clean hs)
  | completes _ _ he hf =>
    obtain ⟨hj, herr, hseq, -⟩ := exceptRead_fields hf
    exact globalInv_complete ht (hseq.trans hs) (hat_of_joystick hj ▸ h.hat_le) (herr ▸ h.errcnt_le) he
  | detects =>
    obtain ⟨hj, herr, hseq⟩ := detectInto_keeps cfg s
    exact globalInv_complete ht (hseq.trans hs) (hat_of_joystick hj ▸ h.hat_le) (herr ▸ h.errcnt_le)
      (detectKind_ne_illegal _)
  | decodes m =>
    rcases decodeWith_cases cfg m s with ⟨j, hd, e⟩ | ⟨k, -, hk, e⟩ <;> rw [e] at ht ⊢
    · exact globalInv_complete ht hs (decodePacket_hat_le hd) h.errcnt_le nofun
    · exact globalInv_complete ht hs h.hat_le h.errcnt_le (by rcases hk with rfl | rfl <;> nofun)
  | inits =>
    exact EntersInit.initAttempt (s := s.enterInit) ⟨h.tidy.of_eq rfl rfl rfl rfl, h.hat_le, rfl, nofun⟩
  | updates => exact runUpdate_inv hs h

/-- A refused word reports IllegalCommand with ILL (R95). -/
theorem refuseIllegal_inv {s : State} (hs : s.seq = .idle) (h : GlobalInv s) : GlobalInv s.refuseIllegal :=
  Tidy.globalInv (h.tidy.of_eq rfl rfl rfl rfl) hs h.hat_le h.errcnt_le (by simp) (by simp)

theorem GlobalInv.accept {s : State} (h : GlobalInv s) : GlobalInv s.accept :=
  ⟨h.pktlen_le, h.pkt_wf, h.hat_le, h.crit_low, h.errcnt_le, h.hidden_dead, h.looping, h.escalated, h.ill_iff,
    h.ok_clean⟩

theorem wordIn_inv (w : Word) {s : State} (hs : s.seq = .idle) (h : GlobalInv s) : GlobalInv (wordIn cfg w s) := by
  unfold wordIn
  split
  · exact opIn_inv (decode_wellFormed ‹_›) hs h
  · exact refuseIllegal_inv hs h

/-- A round of Init() starts its attempt with ERRCNT still 0 and the failed cycle's report still standing (R242, R245). -/
theorem initRound_inv {k : InitCaller} {s : State} (hs : s.seq = .initLoop k) (h : GlobalInv s) :
    GlobalInv (initRound cfg k s) := by
  obtain ⟨-, herr, -⟩ := h.looping k hs
  obtain ⟨hj, he, hok, -, hl, -⟩ := exceptAcquisition_fields (initSwitch_frame cfg s)
  refine EntersInit.initAttempt ⟨h.tidy.initSwitch cfg, hat_of_joystick hj ▸ h.hat_le, he.trans herr, ?_⟩
  rintro rfl
  rw [hok, hl]
  exact h.escalated hs

theorem moveIn_inv {s : State} (h : GlobalInv s) : GlobalInv (moveIn cfg s) := by
  cases hs : s.seq with
  | initLoop k => rw [moveIn_loop cfg hs]; exact initRound_inv hs h
  | idle =>
    cases hc : s.cmds with
    | nil => rw [moveIn_idle cfg hs hc]; exact h
    | cons w ws =>
      rw [moveIn_word cfg hs hc]
      exact wordIn_inv w hs h.accept

/-- Settles O13: a released machine's move keeps every clause (`moveIn_inv`), and a reset leaves a state that meets them. -/
theorem everyStepKeepsTheInvariant : Obligations.EveryStepKeepsTheInvariant := by
  intro s t h hst
  by_cases hr : s.rst = .low
  · rw [step_low hr] at hst
    cases hst
    exact moveIn_inv h
  · obtain ⟨u, hu⟩ := step_reset hr
    rw [hu] at hst
    cases hst
    exact globalInv_afterReset u

/-! #### No operation reads the reset input

`Blind` (Laws/Blind.lean) relabels the history and the port; the pin is another field, and a reset that cuts an operation is
compared with the operation under a released pin, so the same is said here of the pin. -/

/-- The state with the reset input driven otherwise. -/
def State.wire (r : ResetPin) (s : State) : State := { s with rst := r }

/-- A procedure that neither reads nor writes the reset input: it commutes with every other level of the pin. -/
def PinFree (f : State → State) : Prop := ∀ r s, f (s.wire r) = (f s).wire r

section
variable (r : ResetPin) (s : State)

@[simp] theorem State.wire_lastin : (s.wire r).lastin = s.lastin := rfl
@[simp] theorem State.wire_pkt : (s.wire r).pkt = s.pkt := rfl
@[simp] theorem State.wire_pktlen : (s.wire r).pktlen = s.pktlen := rfl
@[simp] theorem State.wire_model : (s.wire r).model = s.model := rfl
@[simp] theorem State.wire_ok : (s.wire r).ok = s.ok := rfl
@[simp] theorem State.wire_idval : (s.wire r).idval = s.idval := rfl
@[simp] theorem State.wire_tmo : (s.wire r).tmo = s.tmo := rfl
@[simp] theorem State.wire_hid : (s.wire r).hid = s.hid := rfl

end

section
variable (c : Cfg)

theorem PinFree.comp {f g : State → State} (hf : PinFree f) (hg : PinFree g) : PinFree fun s => f (g s) :=
  fun r s => (congrArg f (hg r s)).trans (hf r (g s))

/-- A branch on what the pin does not change. -/
theorem PinFree.ite {p : State → Prop} [DecidablePred p] {f g : State → State} (hp : ∀ r s, p (s.wire r) ↔ p s)
    (hf : PinFree f) (hg : PinFree g) : PinFree fun s => if p s then f s else g s := by
  intro r s
  by_cases h : p s
  · simp only [if_pos h, if_pos ((hp r s).2 h), hf r s]
  · simp only [if_neg h, if_neg (mt (hp r s).1 h), hg r s]

theorem PinFree.poll : PinFree State.poll := by
  intro r s
  rw [← State.polled_one, ← State.polled_one]
  rfl

theorem PinFree.waitEdge (l : Line) (d : Dir) (n : Timeout) : PinFree (waitEdge l d n) := by
  have loop : ∀ n, PinFree (waitEdgeLoop l d n) := by
    intro n r s
    induction n generalizing s with
    | zero => rfl
    | succ n ih =>
      simp only [waitEdgeLoop, PinFree.poll r s, State.wire_lastin, State.wire_hid, State.wire_tmo]
      split
      · rfl
      · exact ih ((s.poll.setLast (lineLevel l s.poll.lastin)).setTmo (s.tmo - 1))
  intro r s
  simp only [Machine.waitEdge, PinFree.poll r s, State.wire_lastin]
  exact congrArg (State.setLast false) (loop n.toNat r ((s.poll.setLast (lineLevel l s.poll.lastin)).setTmo n))

theorem PinFree.waitLevel (l : Line) (b : Bool) (n : Timeout) : PinFree (waitLevel l b n) := by
  have loop : ∀ n, PinFree (waitLevelLoop l b n) := by
    intro n r s
    induction n generalizing s with
    | zero => rfl
    | succ n ih =>
      simp only [waitLevelLoop, PinFree.poll r s, State.wire_lastin, State.wire_tmo]
      split
      · rfl
      · exact ih (s.poll.setTmo (s.tmo - 1))
  exact fun r s => loop n.toNat r (s.setTmo n)

theorem PinFree.startAcquisition : PinFree (startAcquisition c) :=
  fun r s => PinFree.waitEdge .clk c.firstDir c.tFirst r ((s.fresh.driveCrit true).driveTrig true)

theorem PinFree.sampleLoop (keep : Slot) {after : State → State} (ha : PinFree after) (n : Nat) :
    PinFree (sampleLoop c keep after n) := by
  intro r s
  induction n generalizing s with
  | zero => rfl
  | succ n ih =>
    simp only [Machine.sampleLoop, State.wire_tmo, State.wire_pktlen, PinFree.waitEdge _ _ _ r s, State.wire_lastin]
    split
    · rfl
    · split
      · rfl
      · rw [← ih, ← ha]; rfl

theorem PinFree.acqSerial (keep : Slot) : PinFree (acqSerial c keep) := by
  have h : PinFree fun s => Machine.sampleLoop c keep id capSlots (Machine.startAcquisition c s) :=
    (PinFree.sampleLoop c keep (fun _ _ => rfl) capSlots).comp (PinFree.startAcquisition c)
  exact fun r s => congrArg State.endAcquisition (h r s)

theorem PinFree.takeBit (b : Bool) : PinFree (State.takeBit b) := by
  have commit : ∀ base sh k n, PinFree (State.commitBits base sh k n) := by
    intro base sh k n r
    induction n generalizing k with
    | zero => intro s; rfl
    | succ n ih => intro s; exact ih (k + 1) (s.writeSlot (base + k) ((BitVec.ofBool (sh.getLsbD k)).setWidth 3))
  intro r s
  simp only [State.takeBit, State.wire_hid, State.wire_pktlen, commit _ _ _ _ r s]
  split
  · split <;> rfl
  · split
    · rfl
    · split <;> rfl

theorem PinFree.acqByte : PinFree (acqByte c) := by
  have loop : ∀ n, PinFree (byteLoop c n) := by
    intro n r s
    induction n generalizing s with
    | zero => rfl
    | succ n ih =>
      simp only [byteLoop, State.wire_tmo, State.wire_hid, State.wire_pktlen, PinFree.waitEdge _ _ _ r s,
        State.wire_lastin, PinFree.takeBit _ r _]
      split
      · rfl
      · split
        · rfl
        · exact ih _
  have close : PinFree State.closeBytes :=
    PinFree.ite (p := fun s => s.hid.ferr = true) (fun _ _ => Iff.rfl) (fun _ _ => rfl) (fun _ _ => rfl)
  have start : PinFree fun s => (Machine.startAcquisition c s).startBytes :=
    fun r s => congrArg State.startBytes (PinFree.startAcquisition c r s)
  exact close.comp fun r s => congrArg State.endAcquisition ((loop byteRounds).comp start r s)

theorem PinFree.modeSwitch : PinFree (modeSwitch c) := by
  intro r s
  rw [modeSwitch_eq, modeSwitch_eq]
  rfl

theorem PinFree.acquire : PinFree (acquire c) := by
  intro r s
  unfold Machine.acquire
  cases c.family with
  | simple => exact PinFree.acqSerial c _ r (coolDown c s)
  | threeWire => exact PinFree.acqSerial c _ r (coolDown c s)
  | byteFramed => exact PinFree.acqByte c r (coolDown c s)

theorem PinFree.toggleTrig (len : Nat) : PinFree (toggleTrig c len) := by
  have low : PinFree fun s => if s.pktlen.toNat = c.idPos1 len then s.driveTrig false else s :=
    PinFree.ite (fun _ _ => Iff.rfl) (fun _ _ => rfl) (fun _ _ => rfl)
  have high : PinFree fun s => (if s.pktlen.toNat = c.idPos1 len then s.driveTrig false else s).driveTrig true :=
    fun r s => congrArg (State.driveTrig true) (low r s)
  exact PinFree.ite (p := fun s => s.pktlen.toNat = c.idPos2 len) (fun _ _ => Iff.rfl) high low

theorem PinFree.readId (len : Nat) : PinFree (readId c len) := by
  have h : PinFree fun s =>
      Machine.sampleLoop c 0b111 (Machine.toggleTrig c len) capSlots (Machine.startAcquisition c s) :=
    (PinFree.sampleLoop c _ (PinFree.toggleTrig c len) capSlots).comp (PinFree.startAcquisition c)
  exact fun r s => congrArg (fun t : State => t.endAcquisition.extractId c len) (h r s)

theorem PinFree.detectInto : PinFree (detectInto c) := by
  have read : PinFree (detectRead c) := by
    intro r s
    simp only [detectRead, State.wire_pktlen]
    split
    · rfl
    · rfl
    · exact PinFree.readId c _ r (coolDown c s)
  intro r s
  simp only [Machine.detectInto, read r s, State.wire_pktlen, State.wire_idval]
  rfl

theorem PinFree.runDecode (m : Model) : PinFree (runDecode c m) := by
  intro r s
  simp only [Machine.runDecode, State.wire_pkt, State.wire_pktlen]
  split <;> rfl

theorem PinFree.initAttempt (k : InitCaller) : PinFree (initAttempt c k) := by
  have test : PinFree (initTest k) :=
    PinFree.ite (p := fun s => s.model = .unknown) (fun _ _ => Iff.rfl) (fun _ _ => rfl)
      (fun _ _ => by cases k <;> rfl)
  exact test.comp ((PinFree.detectInto c).comp (PinFree.acquire c))

theorem PinFree.startInit (k : InitCaller) : PinFree (startInit c k) := fun r s => PinFree.initAttempt c k r s.enterInit

theorem PinFree.initRound (k : InitCaller) : PinFree (initRound c k) := by
  have switch : PinFree (initSwitch c) :=
    PinFree.ite (p := fun s => s.pktlen.toNat < c.modeswBelow) (fun _ _ => Iff.rfl)
      (fun r s => PinFree.modeSwitch c r (coolDown c s)) (fun _ _ => rfl)
  exact (PinFree.initAttempt c k).comp switch

theorem PinFree.updateCycle : PinFree (updateCycle c) := by
  have account : ∀ e, PinFree (State.account e) := by
    intro e r s
    unfold State.account
    split <;> rfl
  have dec : PinFree (cycleDecode c) := by
    intro r s
    have hk : acqKind (s.wire r) = acqKind s := rfl
    simp only [cycleDecode, hk, State.wire_model]
    split
    · exact PinFree.runDecode c _ r s
    · rfl
  intro r s
  have hb : (s.wire r).beginUpdate = s.beginUpdate.wire r := rfl
  have hk : ∀ t : State, cycleKind c (t.wire r) = cycleKind c t := fun _ => rfl
  simp only [Machine.updateCycle, hb, PinFree.acquire c r _, dec r _, hk]
  exact account _ r _

theorem PinFree.runUpdate : PinFree (runUpdate c) := by
  intro r s
  have he : escalates c ((Machine.updateCycle c s).wire r) = escalates c (Machine.updateCycle c s) := rfl
  simp only [Machine.runUpdate, State.wire_model, PinFree.updateCycle c r s, he]
  split
  · exact PinFree.startInit c _ r s.beginUpdate
  · split
    · exact PinFree.startInit c _ r _
    · rfl

theorem PinFree.decodeWith (m : Model) : PinFree (decodeWith c m) := by
  intro r s
  unfold Machine.decodeWith
  rw [PinFree.runDecode]
  rfl

/-- RESULT and the report of a procedure's own outcome. -/
theorem PinFree.report {f : State → State} (hf : PinFree f) (v : State → BitVec 16) (e : State → ErrKind)
    (hv : ∀ r s, v (s.wire r) = v s) (he : ∀ r s, e (s.wire r) = e s) :
    PinFree fun s => ((f s).setResult (v (f s))).complete (e (f s)) := by
  intro r s
  simp only [hf r s, hv, he]
  rfl

/-- No operation depends on the reset input; what the pin does, the step does around it (R302). -/
theorem opIn_pinFree (i : Instr) : PinFree (opIn c i) := by
  cases i with
  | nop => exact fun _ _ => rfl
  | rdlvl line =>
    exact PinFree.poll.report (fun s => bit16 (lineLevel line s.lastin)) (fun _ => .noError) (fun _ _ => rfl)
      (fun _ _ => rfl)
  | settrig level => exact fun _ _ => rfl
  | pulse us => exact fun _ _ => rfl
  | waitedge line dir tmo =>
    exact (PinFree.waitEdge line dir tmo).report State.tmo waitKind (fun _ _ => rfl) (fun _ _ => rfl)
  | waitlvl line level tmo =>
    exact (PinFree.waitLevel line level tmo).report State.tmo waitKind (fun _ _ => rfl) (fun _ _ => rfl)
  | acqs => exact fun r s => congrArg State.reportAcquisition (PinFree.acqSerial c _ r s)
  | acqt => exact fun r s => congrArg State.reportAcquisition (PinFree.acqSerial c _ r s)
  | acqb => exact fun r s => congrArg State.reportAcquisition (PinFree.acqByte c r s)
  | modesw => exact fun r s => congrArg (State.complete .noError) (PinFree.modeSwitch c r s)
  | cooldown => exact fun _ _ => rfl
  | readid len =>
    exact (PinFree.readId c len.toNat).report State.idval (fun _ => .noError) (fun _ _ => rfl) (fun _ _ => rfl)
  | detect =>
    exact (PinFree.detectInto c).report (fun s => (modelCode s.model).setWidth 16) detectKind (fun _ _ => rfl)
      (fun _ _ => rfl)
  | decode => exact fun r s => PinFree.decodeWith c s.model r s
  | decGp => exact PinFree.decodeWith c _
  | dec3dp => exact PinFree.decodeWith c _
  | decPp => exact PinFree.decodeWith c _
  | decFfp => exact PinFree.decodeWith c _
  | decFfw => exact PinFree.decodeWith c _
  | init => exact PinFree.startInit c _
  | update => exact PinFree.runUpdate c
  | rdreg addr => exact fun _ _ => rfl
  | hatnib nib => exact fun _ _ => rfl
  | wrslot idx val => exact fun _ _ => rfl
  | setlen n => exact fun _ _ => rfl

theorem moveIn_pinFree : PinFree (moveIn c) := by
  intro r s
  cases hs : s.seq with
  | initLoop k =>
    rw [moveIn_loop c hs, moveIn_loop c (s := s.wire r) hs]
    exact PinFree.initRound c k r s
  | idle =>
    cases hc : s.cmds with
    | nil => rw [moveIn_idle c hs hc, moveIn_idle c (s := s.wire r) hs hc]
    | cons w ws =>
      rw [moveIn_word c hs hc, moveIn_word c (s := s.wire r) hs hc]
      unfold wordIn
      split
      · exact opIn_pinFree c _ r s.accept
      · rfl

end

/-- A step that is cut after n events has done what the step without the reset would have done until then (R302). -/
theorem cutReset_of_trace {s u : State} {es : List Event} (n : Nat) (h : Trace s u es) :
    (s.cutReset n u).feed = s.feed.drop (pollCount (es.take n)) := by
  rw [State.cutReset_feed, h.evt, List.drop_left]

/-- Settles O11: a step with the pin asserted is a reset (`step_reset`), which meets the invariant; and as nothing reads the
pin (`moveIn_pinFree`), the operation it cuts is the one that would have run. -/
theorem resetPinEndsEveryOperation : Obligations.ResetPinEndsEveryOperation := by
  refine ⟨fun s hr => ?_, fun s u n es hr hu ht => ?_⟩
  · obtain ⟨v, hv⟩ := step_reset hr
    exact ⟨_, hv, rfl, rfl, rfl, rfl, globalInv_afterReset v⟩
  · have hm : moveIn cfg (s.wire .low) = (moveIn cfg s).wire .low := moveIn_pinFree cfg .low s
    have hu' : u = (moveIn cfg s).wire .low :=
      (Host.Outcome.next.inj (hu.symm.trans (step_low (s := s.wire .low) rfl))).trans hm
    subst hu'
    have ht' : Trace s (moveIn cfg s) es := ht.of_eq rfl rfl rfl rfl
    exact ⟨_, step_during hr, cutReset_of_trace n ht', rfl⟩

/-! #### The trigger -/

theorem initAttempt_trig (c : Cfg) (k : InitCaller) {s : State} (hh : s.hid = Hidden.dead) :
    (initAttempt c k s).trig = false := (initAttempt_outputs c k s hh).1

theorem runUpdate_trig (c : Cfg) {s : State} (hh : s.hid = Hidden.dead) : (runUpdate c s).trig = false := by
  obtain ⟨-, htrig, -, hdead, -⟩ := updateCycle_leaves c s hh
  rcases runUpdate_cases c s with ⟨-, e⟩ | ⟨-, -, e⟩ | ⟨-, -, e⟩ <;> rw [e]
  · exact initAttempt_trig c _ hh
  · exact htrig
  · exact initAttempt_trig c _ hdead

/-- A detection keeps TRIG or lowers it: the secondary read ends with TRIG 0 (R141, R172). -/
theorem detectInto_trig (c : Cfg) (s : State) : (detectInto c s).trig = false ∨ (detectInto c s).trig = s.trig := by
  show (detectRead c s).trig = false ∨ (detectRead c s).trig = s.trig
  rcases detectRead_cases c s with e | e <;> rw [e]
  · exact Or.inr rfl
  · exact Or.inl rfl

theorem decodeWith_trig (c : Cfg) (m : Model) (s : State) : (decodeWith c m s).trig = s.trig := by
  rcases decodeWith_cases c m s with ⟨j, -, e⟩ | ⟨k, -, -, e⟩ <;> rw [e] <;> rfl

/-- TRIG after an operation of the machine (R23, R49, R117): low, or the level of SETTRIG, or as it was where the operation
is none of those that leave it low. -/
theorem opIn_trig (i : Instr) {s : State} (hh : s.hid = Hidden.dead) :
    (opIn cfg i s).trig = false ∨
      leavesTrigLow i = false ∧ (i = .settrig true ∨ (opIn cfg i s).trig = s.trig) := by
  cases i with
  | settrig level => cases level with
    | false => exact Or.inl rfl
    | true => exact Or.inr ⟨rfl, Or.inl rfl⟩
  | pulse us => exact Or.inl rfl
  | acqs => exact Or.inl (acqSerial_trig cfg 0b001 s)
  | acqt => exact Or.inl (acqSerial_trig cfg 0b111 s)
  | acqb => exact Or.inl (acqByte_trig cfg s)
  | modesw =>
    have hm : (modeSwitch cfg s).trig = false := by
      rw [modeSwitch_eq, if_neg cfg_modeswSeq_ne_nil]
    exact Or.inl hm
  | readid len => exact Or.inl (readId_trig cfg len.toNat s)
  | init => exact Or.inl (initAttempt_trig cfg _ (s := s.enterInit) hh)
  | update => exact Or.inl (runUpdate_trig cfg hh)
  | detect => exact (detectInto_trig cfg s).imp_right fun h => ⟨rfl, Or.inr h⟩
  | nop => exact Or.inr ⟨rfl, Or.inr rfl⟩
  | rdlvl line => exact Or.inr ⟨rfl, Or.inr (State.poll_trig s)⟩
  | waitedge line dir tmo => exact Or.inr ⟨rfl, Or.inr (waitEdge_trig line dir tmo s)⟩
  | waitlvl line level tmo => exact Or.inr ⟨rfl, Or.inr (waitLevel_trig line tmo level s)⟩
  | cooldown => exact Or.inr ⟨rfl, Or.inr rfl⟩
  | decode => exact Or.inr ⟨rfl, Or.inr (decodeWith_trig cfg _ s)⟩
  | decGp => exact Or.inr ⟨rfl, Or.inr (decodeWith_trig cfg _ s)⟩
  | dec3dp => exact Or.inr ⟨rfl, Or.inr (decodeWith_trig cfg _ s)⟩
  | decPp => exact Or.inr ⟨rfl, Or.inr (decodeWith_trig cfg _ s)⟩
  | decFfp => exact Or.inr ⟨rfl, Or.inr (decodeWith_trig cfg _ s)⟩
  | decFfw => exact Or.inr ⟨rfl, Or.inr (decodeWith_trig cfg _ s)⟩
  | rdreg addr => exact Or.inr ⟨rfl, Or.inr rfl⟩
  | hatnib nib => exact Or.inr ⟨rfl, Or.inr rfl⟩
  | wrslot idx val => exact Or.inr ⟨rfl, Or.inr rfl⟩
  | setlen n => exact Or.inr ⟨rfl, Or.inr rfl⟩

/-- Settles O16: SETTRIG by its definition, every other operation by `opIn_trig`. -/
theorem settrigDrivesTheTrigger : Obligations.SettrigDrivesTheTrigger := by
  refine ⟨fun level s => ⟨by cases level <;> rfl, rfl⟩, fun i s hh => ⟨_, exec_eq i s, fun hl => ?_, fun ht => ?_⟩⟩
  · rcases opIn_trig i hh with h | ⟨h, -⟩
    · exact h
    · rw [hl] at h; cases h
  · rcases opIn_trig i hh with h | ⟨hl, hi | hk⟩
    · rw [ht] at h; cases h
    · exact Or.inl hi
    · exact Or.inr ⟨hk ▸ ht, hl⟩

/-! #### UPDATE with a known MODEL -/

/-- The machine's acquisition is the three-wire one, which reports no framing error (log 9). -/
theorem acquire_cfg_ferr {s : State} (hh : s.hid = Hidden.dead) : (acquire cfg s).ferr = false := by
  obtain ⟨-, -, -, -, hf, -⟩ := acqSerial_packet cfg 0b111 (coolDown cfg s) hh
  exact hf

/-- Why a cycle of the machine fails (R245, R273, R275, R278): an empty packet is an AcquisitionTimeout, any other one has the
decoder's error. -/
theorem cycleKind_fails {a : State} (hf : a.ferr = false) (hk : cycleKind cfg a ≠ .noError) :
    a.pktlen = 0 ∧ cycleKind cfg a = .acquisitionTimeout ∨
      a.pktlen ≠ 0 ∧ decodePacket cfg a.model a.pkt a.pktlen.toNat = .error (cycleKind cfg a) := by
  unfold cycleKind at *
  rcases acqKind_cases a with ⟨-, h⟩ | ⟨h, -, hl⟩ | ⟨h, -, hl⟩
  · rw [hf] at h; cases h
  · rw [if_neg (by simp [h])]
    exact Or.inl ⟨hl, h⟩
  · rw [if_pos h] at hk ⊢
    refine Or.inr ⟨hl, ?_⟩
    rcases runDecode_cases cfg a.model a with ⟨j, -, -, hn⟩ | ⟨e, he, -, hn, -⟩
    · exact absurd hn hk
    · rw [hn]; exact he

/-- What an update cycle leaves in either case besides its frame: the report bits written when the command was accepted, SEQ,
and the packet of its acquisition (R245, R246). -/
theorem updateCycle_keeps (c : Cfg) (s : State) :
    (updateCycle c s).ill = false ∧ (updateCycle c s).redet = false ∧ (updateCycle c s).seq = s.seq ∧
      (updateCycle c s).pkt = (acquire c s.beginUpdate).pkt ∧
      (updateCycle c s).pktlen = (acquire c s.beginUpdate).pktlen := by
  obtain ⟨-, -, -, -, -, hredet, hill, hseq, -⟩ := exceptAcquisition_fields (acquire_frame c s.beginUpdate)
  rcases updateCycle_cases c s with ⟨j, -, -, e⟩ | ⟨k, -, -, -, e⟩ <;> rw [e]
  · exact ⟨hill, hredet, hseq, rfl, rfl⟩
  · exact ⟨hill, hredet, hseq, rfl, rfl⟩

/-- A successful cycle holds a packet that decodes, and the joystick state decoded from it (R34, R245). -/
theorem updateCycle_succeeds {c : Cfg} {s : State} (hl : (updateCycle c s).lasterr = .noError) :
    (updateCycle c s).ok = true ∧ (updateCycle c s).valid = true ∧ (updateCycle c s).errcnt = 0 ∧
      (acquire c s.beginUpdate).pktlen ≠ 0 ∧
      ∃ j, decodePacket c s.model (acquire c s.beginUpdate).pkt (acquire c s.beginUpdate).pktlen.toNat = .ok j ∧
        (updateCycle c s).axis = j.axis ∧ (updateCycle c s).hat = j.hat ∧ (updateCycle c s).buttons = j.buttons := by
  rcases updateCycle_cases c s with ⟨j, hd, ha, e⟩ | ⟨k, hk, -, -, e⟩ <;> rw [e] at hl ⊢
  · refine ⟨rfl, rfl, rfl, ?_, j, hd, rfl, rfl, rfl⟩
    rcases acqKind_cases (acquire c s.beginUpdate) with ⟨h, -⟩ | ⟨h, -⟩ | ⟨-, -, hn⟩
    · rw [ha] at h; cases h
    · rw [ha] at h; cases h
    · exact hn
  · exact absurd hl hk

/-- A failed cycle of the machine counts once, keeps the joystick state, and its LASTERR says why (R245, R248). -/
theorem updateCycle_fails {s : State} (hh : s.hid = Hidden.dead) (hl : (updateCycle cfg s).lasterr ≠ .noError) :
    ((acquire cfg s.beginUpdate).pktlen = 0 ∧ (updateCycle cfg s).lasterr = .acquisitionTimeout ∨
        (acquire cfg s.beginUpdate).pktlen ≠ 0 ∧
          decodePacket cfg s.model (acquire cfg s.beginUpdate).pkt (acquire cfg s.beginUpdate).pktlen.toNat =
            .error (updateCycle cfg s).lasterr) ∧
      (updateCycle cfg s).ok = false ∧ (updateCycle cfg s).joystick = s.joystick ∧
      (updateCycle cfg s).lasterr ≠ .illegalCommand ∧ (updateCycle cfg s).errcnt = s.errcnt + 1 := by
  obtain ⟨hj, -⟩ := exceptAcquisition_fields (acquire_frame cfg s.beginUpdate)
  have hm : (acquire cfg s.beginUpdate).model = s.model := by
    have a := congrArg State.model (acquire_frame cfg s.beginUpdate); exact a
  rcases updateCycle_cases cfg s with ⟨j, -, -, e⟩ | ⟨k, hk, hki, hc, e⟩ <;> rw [e] at hl ⊢
  · exact absurd rfl hl
  · have hwhy := cycleKind_fails (acquire_cfg_ferr (s := s.beginUpdate) hh) (hc ▸ hk)
    rw [hc, hm] at hwhy
    exact ⟨hwhy, rfl, hj, hki, rfl⟩

/-- An escalated UPDATE keeps the failed cycle's OK and LASTERR; it is idle with REDET once a model is found, else at the loop
head of Init() (R245, R249). -/
theorem startInit_escalated (c : Cfg) (u : State) :
    (startInit c .updateEscalated u).ok = u.ok ∧ (startInit c .updateEscalated u).lasterr = u.lasterr ∧
      ((startInit c .updateEscalated u).seq = .idle ∧ (startInit c .updateEscalated u).redet = true ∧
          (startInit c .updateEscalated u).model ≠ .unknown ∧ (startInit c .updateEscalated u).ill = false ∧
          (startInit c .updateEscalated u).result = bit16 u.ok ∨
        (startInit c .updateEscalated u).seq = .initLoop .updateEscalated ∧
          (startInit c .updateEscalated u).redet = u.redet ∧ (startInit c .updateEscalated u).model = .unknown ∧
          (startInit c .updateEscalated u).ill = u.ill) := by
  obtain ⟨-, -, hok, -, hl, hredet, hill, -, -⟩ := exceptDetection_fields (attempt_frame c u.enterInit)
  unfold startInit
  have hcases := initAttempt_cases c .updateEscalated u.enterInit
  generalize detectInto c (acquire c u.enterInit) = x at *
  rcases hcases with ⟨hm, e⟩ | ⟨hm, e⟩ <;> rw [e]
  · exact ⟨hok, hl, Or.inr ⟨rfl, hredet, hm, hill⟩⟩
  · exact ⟨hok, hl, Or.inl ⟨rfl, rfl, hm, rfl, congrArg bit16 hok⟩⟩

/-- Settles O44: the ways of UPDATE (`runUpdate_cases`), and of its cycle success and failure by LASTERR. -/
theorem updateSucceedsCountsOrEscalates : Obligations.UpdateSucceedsCountsOrEscalates := by
  rintro s a h hs hm rfl
  refine ⟨runUpdate cfg s, exec_eq .update s, ?_⟩
  obtain ⟨hill, hredet, hseq, hpkt, hlen⟩ := updateCycle_keeps cfg s
  obtain ⟨hframe, htrig, hcrit, hdead, hid, -, hinit⟩ := updateCycle_leaves cfg s h.hidden_dead
  have hmodel := updateCycle_model cfg s
  have hsucceeds := updateCycle_succeeds (c := cfg) (s := s)
  have hfails := updateCycle_fails h.hidden_dead
  have hways := runUpdate_cases cfg s
  have h5 : s.errcnt.toNat ≤ 5 := h.errcnt_le
  generalize updateCycle cfg s = u at *
  rcases hways with ⟨hu, -⟩ | ⟨-, hesc, e⟩ | ⟨-, hesc, e⟩
  · exact absurd hu hm
  · rw [e]
    refine ⟨hill, htrig, hcrit, ?_⟩
    by_cases hl : u.lasterr = .noError
    · obtain ⟨hok, hvalid, herr, hne, hj⟩ := hsucceeds hl
      exact Or.inl ⟨hseq.trans hs, hok, hvalid, herr, hredet, hl, congrArg bit16 hok, hmodel, hid, hne, hpkt, hlen, hj,
        hframe⟩
    · obtain ⟨hwhy, hok, hj, hni, herr⟩ := hfails hl
      have hle := errcnt_le_of_not_escalates cfg hesc hl
      have hcount : u.errcnt.toNat = s.errcnt.toNat + 1 := by rw [herr]; bv_omega
      exact Or.inr ⟨hwhy, hok, hj, hl, hni, Or.inl ⟨hseq.trans hs, hcount, hle, hredet, congrArg bit16 hok, hmodel, hid,
        hpkt, hlen, hframe⟩⟩
  · obtain ⟨hl, hgt⟩ := lasterr_of_escalates cfg hesc
    obtain ⟨hwhy, hok, hj, hni, herr⟩ := hfails hl
    have hcount : s.errcnt.toNat = 5 := by
      have hgt' : 5 < u.errcnt.toNat := hgt
      rw [herr] at hgt'
      bv_omega
    obtain ⟨hok', hl', hend⟩ := startInit_escalated cfg u
    obtain ⟨hj', herr'⟩ := startInit_keeps cfg .updateEscalated u
    obtain ⟨htrig', hcrit'⟩ := initAttempt_outputs cfg .updateEscalated u.enterInit hdead
    have hinit' := (initAttempt_exceptInit cfg .updateEscalated u.enterInit).trans (hinit hok)
    rw [e]
    refine ⟨?_, htrig', hcrit', Or.inr ⟨hl'.symm ▸ hwhy, hok'.trans hok, hj'.trans hj, hl'.symm ▸ hl, hl'.symm ▸ hni,
      Or.inr ⟨hcount, herr', hinit', ?_⟩⟩⟩
    · rcases hend with ⟨-, -, -, hi, -⟩ | ⟨-, -, -, hi⟩
      · exact hi
      · exact hi.trans hill
    · rcases hend with ⟨hq, hr, hm', -, hres⟩ | ⟨hq, hr, hm', -⟩
      · exact Or.inl ⟨hq, hr, hm', hres.trans (congrArg bit16 hok)⟩
      · exact Or.inr ⟨hq, hr.trans hredet, hm'⟩

end Sys2Proof.Machine
end

section
/-! ### PROOFS of family `20_memory.md`: the read port, the assembled packet and its fields, the byte-framed capture

While it receives well-framed bytes, AcqByte is between two of its rounds (`Receiving`): each round takes one bit, ten a
byte, and the loop ends with the packet full or with the wait that runs out. Assemble is said bit by bit, and each field
of a decoded packet has its range. -/

namespace Sys2Proof.Machine

/-! #### The register read port -/

theorem State.readPort_idle (c : Cfg) {s : State} (h : s.seq = .idle) (addr : BitVec 8) :
    s.readPort c addr = regFile c false s addr := if_neg (by simp [State.busy, h])

theorem State.readPort_busy (c : Cfg) {s : State} (h : s.seq ≠ .idle) :
    s.readPort c 0x00 = Config.busyRead s.draws 0x00 ||| 1 := by
  unfold State.readPort
  rw [if_pos (by simpa [State.busy] using h), if_pos rfl]

/-- Settles O50: the port is the register file while idle, a free value with bit 0 set at STATUS while busy. -/
theorem readPortAgreesWithRdreg : Obligations.ReadPortAgreesWithRdreg := by
  refine fun s => ⟨fun h addr => ⟨_, exec_rdreg addr s, (State.readPort_idle cfg h addr).symm⟩, fun h => ?_⟩
  rw [State.readPort_busy cfg h, BitVec.getLsbD_or]
  exact Bool.or_true _

/-! #### Assemble -/

theorem getLsbD_lowMask (k i : Nat) :
    (BitVec.ofNat 64 (2 ^ k - 1)).getLsbD i = (decide (i < 64) && decide (i < k)) := by
  rw [BitVec.getLsbD_ofNat, Nat.testBit_two_pow_sub_one]

/-- The bits one slot adds to the assembled value (R192): `bps` bits of it from bit n * bps up. -/
theorem getLsbD_placedSlot (v : Slot) {bps : Nat} (hb : 0 < bps) (n : Nat) {j : Nat} (hj : j < 64) :
    ((v.setWidth 64 &&& BitVec.ofNat 64 (2 ^ bps - 1)) <<< (n * bps)).getLsbD j =
      if j / bps = n then v.getLsbD (j % bps) else false := by
  have hdiv : j / bps = n ↔ n * bps ≤ j ∧ j < n * bps + bps := by
    rw [Nat.div_eq_iff hb]; omega
  rw [BitVec.getLsbD_shiftLeft, BitVec.getLsbD_and, BitVec.getLsbD_setWidth, getLsbD_lowMask]
  split
  · next h =>
    have hmod : j % bps = j - n * bps := by rw [← h, Nat.mul_comm, Nat.mod_eq_sub_mul_div]
    obtain ⟨hlo, hhi⟩ := hdiv.1 h
    rw [hmod]
    simp [hj, hlo, show j - n * bps < 64 by omega, show j - n * bps < bps by omega]
  · next h =>
    by_cases hlo : j < n * bps
    · simp [hlo]
    · simp [show ¬ j - n * bps < bps by omega]

/-- Assemble bit by bit (R64, R192). -/
theorem getLsbD_assemble (pkt : Packet) {bps : Nat} (hb : 0 < bps) (n : Nat) {j : Nat} (hj : j < 64) :
    (assemble pkt bps n).getLsbD j =
      if j / bps < n then (Memory.read pkt (j / bps)).getLsbD (j % bps) else false := by
  induction n with
  | zero => rw [if_neg (Nat.not_lt_zero _)]; exact BitVec.getLsbD_zero
  | succ n ih =>
    rw [assemble, BitVec.getLsbD_or, ih, getLsbD_placedSlot _ hb n hj]
    rcases Nat.lt_trichotomy (j / bps) n with h | h | h
    · rw [if_pos h, if_neg (by omega), if_pos (by omega), Bool.or_false]
    · rw [if_neg (by omega), if_pos h, if_pos (by omega), Bool.false_or, h]
    · rw [if_neg (by omega), if_neg (by omega), if_neg (by omega), Bool.or_false]

/-! #### The range of the decoded fields -/

theorem scale_le {x max : Nat} (h : x ≤ max) : scale x max ≤ 1023 :=
  Nat.div_le_of_le_mul (Nat.mul_le_mul_right 1023 h)

/-- The width of a field is the sum of its pieces'. -/
def fieldWidth (ps : List Piece) : Nat := (ps.map Piece.len).sum

theorem gather_lt (v : BitVec 64) (ps : List Piece) : gather v ps < 2 ^ fieldWidth ps := by
  induction ps with
  | nil => exact Nat.one_pos
  | cons p ps ih =>
    have hp : getBits v p.pos p.len < 2 ^ p.len := Nat.mod_lt _ (Nat.two_pow_pos _)
    calc gather v (p :: ps)
        < 2 ^ p.len + 2 ^ p.len * gather v ps := Nat.add_lt_add_right hp _
      _ = 2 ^ p.len * (gather v ps + 1) := by rw [Nat.mul_succ, Nat.add_comm]
      _ ≤ 2 ^ p.len * 2 ^ fieldWidth ps := Nat.mul_le_mul_left _ ih
      _ = 2 ^ fieldWidth (p :: ps) := by rw [← Nat.pow_add]; rfl

/-- A native axis whose maximum is the greatest value its pieces can hold; a direction pair always fits. -/
def AxisFits (f : AxisField) : Prop :=
  match f with
  | .pair _ _ => True
  | .native ps max => 2 ^ fieldWidth ps = max + 1

theorem axisValue_le (v : BitVec 64) {f : AxisField} (h : AxisFits f) : axisValue v f ≤ 1023 := by
  cases f with
  | pair a b =>
    have hb : getBits v b 1 < 2 := Nat.mod_lt _ (by decide)
    exact scale_le (by omega)
  | native ps max =>
    have hg := gather_lt v ps
    exact scale_le (by rw [AxisFits] at h; omega)

/-- Every axis of the default layouts has the maximum its width gives (R205, R208, R213). -/
theorem cfg_axes_fit (m : Model) : ∀ f ∈ (cfg.layout m).axes, AxisFits f := by
  cases m <;> simp [cfg, defaultLayout, gamePadLayout, threeDProLayout, forceFeedbackProLayout, precisionProLayout,
    forceFeedbackWheelLayout, AxisFits, fieldWidth]

/-- DESC_TABLE counts the axes of LAYOUT (R36). -/
theorem cfg_naxes (m : Model) : (cfg.desc m).naxes = (cfg.layout m).axes.length := by cases m <;> rfl

theorem axisFile_get (v : BitVec 64) (fs : List AxisField) (i : Fin 16) :
    (axisFile v fs)[i] = BitVec.ofNat 10 ((fs.map (axisValue v)).getD i.val 0) := Vector.getElem_ofFn i.isLt

theorem axisFile_beyond (v : BitVec 64) {fs : List AxisField} {i : Fin 16} (h : fs.length ≤ i.val) :
    (axisFile v fs)[i] = 0 := by
  rw [axisFile_get, List.getD_eq_default _ _ (by rwa [List.length_map])]; rfl

/-- An axis register holds its scaled value, which fits its ten bits (R198, R219). -/
theorem axisFile_toNat (v : BitVec 64) {fs : List AxisField} (h : ∀ f ∈ fs, AxisFits f) (i : Fin 16) :
    (axisFile v fs)[i].toNat = (fs.map (axisValue v)).getD i.val 0 := by
  rw [axisFile_get, BitVec.toNat_ofNat, Nat.mod_eq_of_lt]
  by_cases hi : i.val < fs.length
  · rw [List.getD_eq_getElem _ _ (by rwa [List.length_map]), List.getElem_map]
    exact Nat.lt_succ_of_le (axisValue_le v (h _ (List.getElem_mem hi)))
  · rw [List.getD_eq_default _ _ (by rw [List.length_map]; omega)]
    decide

theorem buttonMask_lt (v : BitVec 64) (ps : List Piece) (n : Nat) : (buttonMask v ps n).toNat < 2 ^ n := by
  have hpos := Nat.two_pow_pos n
  calc (buttonMask v ps n).toNat
      ≤ (BitVec.ofNat 16 (2 ^ n - 1)).toNat := by rw [buttonMask, BitVec.toNat_and]; exact Nat.and_le_right
    _ ≤ 2 ^ n - 1 := by rw [BitVec.toNat_ofNat]; exact Nat.mod_le _ _
    _ < 2 ^ n := by omega

/-- A packet of a length of the model whose integrity bits hold decodes (R191). -/
theorem decodePacket_of_integrity {c : Cfg} {m : Model} {pkt : Packet} {len bps : Nat} (hm : m ≠ .unknown)
    (hb : bitsPerSlot (c.layout m) len = some bps)
    (hi : integrity c m (lowBits (c.layout m).width (assemble pkt bps len)) = true) :
    decodePacket c m pkt len = .ok (extract c m (lowBits (c.layout m).width (assemble pkt bps len))) := by
  unfold decodePacket
  rw [if_neg hm, hb]
  exact if_pos hi

/-- Settles O39: `getLsbD_assemble`, and the ranges of the fields `extract` puts together. -/
theorem validPacketsDecodeWithinRange : Obligations.ValidPacketsDecodeWithinRange := by
  refine ⟨fun pkt bps n j hb hj => getLsbD_assemble pkt (by omega) n hj, ?_⟩
  rintro m pkt len bps V hm hb rfl hi
  exact ⟨_, decodePacket_of_integrity hm hb hi, hatValue_le _ _, buttonMask_lt _ _ _,
    fun i hn => axisFile_beyond _ (cfg_naxes m ▸ hn), axisFile_toNat _ (cfg_axes_fit m)⟩

/-! #### The byte-framed waveform, round by round -/

@[simp] theorem lineLevel_clk_lowPhase (v : Slot) : lineLevel .clk (lowPhase v) = false := by
  revert v; decide

@[simp] theorem lineLevel_clk_highPhase (v : Slot) : lineLevel .clk (highPhase v) = true := by
  revert v; decide

/-- An answer of the low, respectively the high clock phase with a bit on D0. -/
abbrev lowBit (b : Bool) : Lines := lowPhase ((BitVec.ofBool b).setWidth 3)
abbrev highBit (b : Bool) : Lines := highPhase ((BitVec.ofBool b).setWidth 3)

theorem lineLevel_d0_lowBit (b : Bool) : lineLevel .d0 (lowBit b) = b := by
  revert b; decide

/-- The answers the rounds of AcqByte take from `bitWave p bits` (R146): each wait polls the low phase the last one
ended in, here `x` at first, the high phase with the data held over, and the first poll of the bit's own low phase. -/
def bitPolls (x : Lines) (p : Bool) (bits : List Bool) : List Lines :=
  match bits with
  | [] => []
  | b :: rest =>
    [x, highBit p, highBit p, lowBit b] ++ bitPolls (lowBit b) b rest

/-- What the last wait leaves of the waveform is one poll of the low phase it ended in. -/
theorem cons_bitWave (x : Lines) (p : Bool) (bits : List Bool) :
    ∃ y, x :: bitWave p bits = bitPolls x p bits ++ [y] := by
  induction bits generalizing x p with
  | nil => exact ⟨x, rfl⟩
  | cons b bits ih =>
    obtain ⟨y, hy⟩ := ih (lowBit b) b
    exact ⟨y, by simp [bitWave, bitPolls, hy]⟩

/-- The answers ACQB takes are the first wait's three, those of its rounds, and for less than 16 bytes those of the wait
that runs out (R146). -/
theorem takenBytes_eq (bytes : List (BitVec 8)) (tail : Nat) :
    ∃ y, takenBytes bytes tail = [8, 8, 0] ++ bitPolls 0 false (bytes.flatMap frameBits) ++
      if bytes.length < 16 then y :: List.replicate tail 8 else [] := by
  obtain ⟨y, hy⟩ := cons_bitWave 0 false (bytes.flatMap frameBits)
  refine ⟨y, ?_⟩
  have hw : [8, 8, 0, 0] ++ bitWave false (bytes.flatMap frameBits) =
      [8, 8, 0] ++ bitPolls 0 false (bytes.flatMap frameBits) ++ [y] := by
    rw [List.append_assoc, ← hy]; rfl
  unfold takenBytes byteWave
  split
  · rw [hw, List.append_assoc]; rfl
  · rw [hw, List.dropLast_concat, List.append_nil]

/-- An answer of a given feed is read off it (R13). -/
theorem State.answer_of_feed {s : State} {pre rest : List Lines} (h : s.feed = pre ++ rest) {k : Nat}
    (hk : k < pre.length) : s.answer k = pre[k] := by
  unfold State.answer
  rw [dif_pos (by rw [h, List.length_append]; omega)]
  simp [h, List.getElem_append_left hk]

/-! #### One bit of the byte frame -/

theorem getLsbD_setShiftBit (sh : BitVec 8) {i : Nat} (hi : i < 8) (b : Bool) {j : Nat} (hj : j ≤ i) :
    (setShiftBit sh i b).getLsbD j = if j = i then b else sh.getLsbD j := by
  simp only [setShiftBit, BitVec.getLsbD_or, BitVec.getLsbD_and, BitVec.getLsbD_not, BitVec.getLsbD_shiftLeft,
    BitVec.getLsbD_setWidth]
  split
  · next h => subst h; simp [hi]
  · next h =>
    have hlt : j < i := by omega
    simp [hlt, show j < 8 by omega]

theorem State.takeBit_start {s : State} (h : s.hid.pos = 0) :
    s.takeBit true = { s with hid := { s.hid with pos := 1 } } := by
  simp [State.takeBit, h]

theorem State.takeBit_data {s : State} {k : Nat} (h : s.hid.pos = k + 1) (hk : k < 8) (b : Bool) :
    s.takeBit b = { s with hid := { s.hid with sh := setShiftBit s.hid.sh k b, pos := k + 2 } } := by
  simp [State.takeBit, h, show k + 1 ≤ 8 by omega]

theorem State.takeBit_stop {s : State} (h : s.hid.pos = 9) :
    s.takeBit false = { State.commitBits s.pktlen.toNat s.hid.sh 0 8 s with
      pktlen := s.pktlen + 8, hid := { s.hid with pos := 0 } } := by
  simp [State.takeBit, h]

/-! #### What AcqByte holds while it receives well-framed bytes -/

/-- The slot of bit i of a sequence of bytes, the first bit of a byte its least significant (R64, R146). -/
def bitSlot (bytes : List (BitVec 8)) (i : Nat) : Slot :=
  (BitVec.ofBool ((bytes.getD (i / 8) 0).getLsbD (i % 8))).setWidth 3

theorem bitSlot_nil (i : Nat) : bitSlot [] i = 0 := by simp [bitSlot]

theorem bitSlot_append (bytes : List (BitVec 8)) (b : BitVec 8) (i : Nat) :
    bitSlot (bytes ++ [b]) i =
      if 8 * bytes.length ≤ i ∧ i < 8 * bytes.length + 8 then
        (BitVec.ofBool (b.getLsbD (i - 8 * bytes.length))).setWidth 3
      else bitSlot bytes i := by
  unfold bitSlot
  rcases Nat.lt_trichotomy (i / 8) bytes.length with h | h | h
  · rw [if_neg (by omega), List.getD_append _ _ _ _ h]
  · rw [if_pos (by omega), List.getD_append_right _ _ _ _ h.ge, h, Nat.sub_self,
      show i % 8 = i - 8 * bytes.length by omega]
    rfl
  · rw [if_neg (by omega), List.getD_eq_default _ _ (by simp; omega), List.getD_eq_default _ _ h.le]

/-- The packet holds exactly these bytes and no framing error has been seen. -/
structure Captured (bytes : List (BitVec 8)) (s : State) : Prop where
  len : s.pktlen.toNat = 8 * bytes.length
  slots : ∀ i, Memory.read s.pkt i = bitSlot bytes i
  ferr : s.ferr = false
  clean : s.hid.ferr = false

/-- Between two rounds of AcqByte (R146): the bytes `done` are captured, the frame position is `pos`, the shift register
holds the data bits of `b` received so far, and the device sends `bits` and then `rest`. -/
structure Receiving (done : List (BitVec 8)) (b : BitVec 8) (pos : Nat) (bits : List Bool) (rest : List Lines)
    (s : State) : Prop extends Captured done s where
  budget : s.tmo ≠ 0
  position : s.hid.pos = pos
  shift : ∀ i, i + 1 < pos → s.hid.sh.getLsbD i = b.getLsbD i
  wave : ∃ x p, lineLevel .clk x = false ∧ s.feed = bitPolls x p bits ++ rest

theorem Captured.wait {bytes : List (BitVec 8)} {s : State} (h : Captured bytes s) (l : Line) (d : Dir) (n : Timeout) :
    Captured bytes (waitEdge l d n s) where
  len := by rw [waitEdge_pktlen, h.len]
  slots i := by rw [waitEdge_pkt, h.slots]
  ferr := by rw [waitEdge_ferr, h.ferr]
  clean := by rw [waitEdge_hid, ← h.clean]

section
variable {done : List (BitVec 8)} {b b' : BitVec 8} {k : Nat} {bits : List Bool} {rest : List Lines} {s : State}

theorem Receiving.takeStart (h : Receiving done b 0 bits rest s) : Receiving done b' 1 bits rest (s.takeBit true) := by
  rw [State.takeBit_start h.position]
  exact ⟨⟨h.len, h.slots, h.ferr, h.clean⟩, h.budget, rfl, fun i hi => by omega, h.wave⟩

theorem Receiving.takeData (h : Receiving done b (k + 1) bits rest s) (hk : k < 8) :
    Receiving done b (k + 2) bits rest (s.takeBit (b.getLsbD k)) := by
  rw [State.takeBit_data h.position hk]
  refine ⟨⟨h.len, h.slots, h.ferr, h.clean⟩, h.budget, rfl, fun i hi => ?_, h.wave⟩
  rw [getLsbD_setShiftBit _ hk _ (by omega)]
  split
  · next hi' => rw [hi']
  · exact h.shift i (by omega)

/-- The stop bit commits the byte (R146). -/
theorem Receiving.takeStop (h : Receiving done b 9 bits rest s) (hd : done.length < 16) :
    Receiving (done ++ [b]) b' 0 bits rest (s.takeBit false) := by
  obtain ⟨p, hp, -, hr⟩ := State.commitBits_eq s.pktlen.toNat s.hid.sh 0 8 s
  have hlen := h.len
  rw [State.takeBit_stop h.position, hp]
  refine ⟨⟨?_, fun i => ?_, h.ferr, h.clean⟩, h.budget, rfl, fun i hi => by omega, h.wave⟩
  · rw [List.length_append, List.length_singleton]
    show (s.pktlen + 8).toNat = _
    bv_omega
  · show Memory.read p i = _
    rw [hr, hlen, bitSlot_append, h.slots, Nat.add_zero]
    split
    · rw [h.shift _ (by omega)]
    · rfl

/-- The wait of a round sees the bit's falling edge, and the bit stands on D0 (R140, R146). -/
theorem Receiving.wait {bit : Bool} {pos : Nat} (h : Receiving done b pos (bit :: bits) rest s) :
    Receiving done b pos bits rest (waitEdge .clk .falling cfg.tNext s) ∧
      lineLevel .d0 (waitEdge .clk .falling cfg.tNext s).lastin = bit := by
  obtain ⟨x, p, hx, hf⟩ := h.wave
  have ha (i : Nat) (hi : i < 4) := State.answer_of_feed (k := i) (pre := [x, highBit p, highBit p, lowBit bit]) hf hi
  have hw := waitEdge_found .clk .falling cfg.tNext s 2 (by decide)
    (by simp [State.edgeAt, ha, dirWants])
    (fun i hi => by
      interval_cases i
      · simp [State.edgeAt, ha, dirWants]
      · simp [State.edgeAt, ha])
  refine ⟨⟨h.toCaptured.wait _ _ _, ?_, ?_, ?_, ?_⟩, ?_⟩
  · rw [hw]; show cfg.tNext - 2 ≠ 0; decide
  · rw [waitEdge_hid]; exact h.position
  · rw [waitEdge_hid]; exact h.shift
  · refine ⟨lowBit bit, bit, lineLevel_clk_lowPhase _, ?_⟩
    rw [hw]
    show s.feed.drop 4 = _
    rw [hf]; rfl
  · rw [hw, State.setLast_lastin, State.setTmo_lastin, State.polled_lastin_succ, ha 3 (by omega)]
    exact lineLevel_d0_lowBit bit

/-- The loop goes on to a round while the last wait succeeded and there is room for a byte (R146). -/
theorem byteLoop_waits (c : Cfg) (n : Nat) (h : Captured done s) (ht : s.tmo ≠ 0) (hd : done.length < 16) :
    byteLoop c (n + 1) s =
      if (waitEdge .clk .falling c.tNext s).tmo = 0 then waitEdge .clk .falling c.tNext s
      else byteLoop c n ((waitEdge .clk .falling c.tNext s).takeBit
        (lineLevel .d0 (waitEdge .clk .falling c.tNext s).lastin)) := by
  have hlen := h.len
  have hferr : ¬ s.hid.ferr = true := by rw [h.clean]; exact Bool.false_ne_true
  have hroom : ¬ 128 ≤ s.pktlen.toNat := by omega
  exact if_neg (not_or.2 ⟨ht, not_or.2 ⟨hferr, hroom⟩⟩)

/-- A round of the loop takes one bit, while there is room for a byte (R146). -/
theorem Receiving.round {bit : Bool} {pos : Nat} (h : Receiving done b pos (bit :: bits) rest s)
    (hd : done.length < 16) (n : Nat) :
    byteLoop cfg (n + 1) s = byteLoop cfg n ((waitEdge .clk .falling cfg.tNext s).takeBit bit) := by
  obtain ⟨hw, hbit⟩ := h.wait
  rw [byteLoop_waits cfg n h.toCaptured h.budget hd, if_neg hw.budget, hbit]

/-- The data bits of a byte from bit k on (R146). -/
theorem Receiving.data_bits (n : Nat) (hn : k + n = 8) (hd : done.length < 16)
    (h : Receiving done b (k + 1) ((List.range' k n).map b.getLsbD ++ bits) rest s) :
    ∃ t, Receiving done b 9 bits rest t ∧ ∀ m, byteLoop cfg (m + n) s = byteLoop cfg m t := by
  induction n generalizing k s with
  | zero => exact ⟨s, by simpa [show k = 8 by omega] using h, fun _ => rfl⟩
  | succ n ih =>
    rw [List.range'_succ, List.map_cons, List.cons_append] at h
    obtain ⟨t, ht, hloop⟩ := ih (by omega) (h.wait.1.takeData (by omega))
    exact ⟨t, ht, fun m => by rw [← Nat.add_assoc, h.round hd, hloop]⟩

/-- One well-framed byte is ten rounds (R146). -/
theorem Receiving.frame (hd : done.length < 16) (h : Receiving done b 0 (frameBits b' ++ bits) rest s) :
    ∃ t, Receiving (done ++ [b']) b' 0 bits rest t ∧ ∀ m, byteLoop cfg (m + 10) s = byteLoop cfg m t := by
  have hframe : frameBits b' ++ bits = true :: ((List.range' 0 8).map b'.getLsbD ++ (false :: bits)) := by
    simp [frameBits, List.range_eq_range']
  rw [hframe] at h
  obtain ⟨t, ht, hloop⟩ := Receiving.data_bits 8 rfl hd (h.wait.1.takeStart (b' := b'))
  exact ⟨_, ht.wait.1.takeStop hd, fun m => by rw [h.round hd (m + 9), hloop (m + 1), ht.round hd]⟩

/-- Well-framed bytes are captured one after the other, ten rounds each (R146). -/
theorem Receiving.frames (bytes : List (BitVec 8)) (hd : done.length + bytes.length ≤ 16)
    (h : Receiving done b 0 (bytes.flatMap frameBits ++ bits) rest s) :
    ∃ b' t, Receiving (done ++ bytes) b' 0 bits rest t ∧
      ∀ m, byteLoop cfg (m + 10 * bytes.length) s = byteLoop cfg m t := by
  induction bytes generalizing done b s with
  | nil => exact ⟨b, s, by simpa using h, fun _ => rfl⟩
  | cons a bytes ih =>
    rw [List.length_cons] at hd
    rw [List.flatMap_cons, List.append_assoc] at h
    obtain ⟨t, ht, hloop⟩ := h.frame (by omega)
    obtain ⟨b', u, hu, hloop'⟩ := ih (by simpa using by omega) ht
    refine ⟨b', u, by simpa using hu, fun m => ?_⟩
    rw [List.length_cons, Nat.mul_succ, ← Nat.add_assoc, hloop, hloop']

/-! #### The ends of the byte loop -/

/-- A full packet ends the loop with no further wait (R146). -/
theorem byteLoop_full (c : Cfg) (n : Nat) (h : capSlots ≤ s.pktlen.toNat) : byteLoop c n s = s := by
  cases n with
  | zero => rfl
  | succ n => exact if_pos (Or.inr (Or.inr h))

/-- A clock that stays high gives the falling wait nothing: all its answers are polled and the loop ends (R113, R146). -/
theorem byteLoop_runs_out (n : Nat) {y : Lines} (h : Captured done s) (ht : s.tmo ≠ 0) (hd : done.length < 16)
    (hf : s.feed = y :: List.replicate cfg.tNext.toNat 8 ++ rest) :
    Captured done (byteLoop cfg (n + 1) s) ∧ (byteLoop cfg (n + 1) s).feed = rest := by
  have hw := waitEdge_none .clk .falling cfg.tNext s fun i hi he => by
    have ha := State.answer_of_feed hf (k := i + 1) (by simpa using hi)
    have he2 := he.2
    rw [ha, List.getElem_cons_succ, List.getElem_replicate] at he2
    exact absurd he2 (by decide)
  have hend : byteLoop cfg (n + 1) s = waitEdge .clk .falling cfg.tNext s := by
    rw [byteLoop_waits cfg n h ht hd]
    exact if_pos (by rw [hw]; rfl)
  rw [hend]
  refine ⟨h.wait _ _ _, ?_⟩
  rw [hw]
  show s.feed.drop (cfg.tNext.toNat + 1) = rest
  rw [hf]
  simp

end

/-! #### ACQB on well-framed bytes -/

/-- The first wait ends at the synchronising fall, which is not sampled (R140, R146). -/
theorem startAcquisition_receiving {bits : List Bool} {rest : List Lines} {s : State}
    (hf : s.feed = [8, 8, 0] ++ bitPolls 0 false bits ++ rest) :
    Receiving [] 0 0 bits rest (startAcquisition cfg s).startBytes := by
  have ha (i : Nat) (hi : i < 3) := State.answer_of_feed (k := i) (s := (s.fresh.driveCrit true).driveTrig true)
    (hf.trans (List.append_assoc _ _ _)) hi
  have hw := waitEdge_found .clk cfg.firstDir cfg.tFirst ((s.fresh.driveCrit true).driveTrig true) 1 (by decide)
    (by rw [State.edgeAt, ha 1 (by decide), ha 2 (by decide)]; decide)
    (fun i hi => by
      obtain rfl : i = 0 := by omega
      rw [State.edgeAt, ha 0 (by decide), ha 1 (by decide)]; decide)
  have hstart : startAcquisition cfg s = _ := hw
  refine ⟨⟨?_, fun i => ?_, ?_, rfl⟩, ?_, rfl, fun i hi => by omega, 0, false, rfl, ?_⟩
  · rw [hstart]; rfl
  · rw [hstart, bitSlot_nil]; rfl
  · rw [hstart]; rfl
  · rw [hstart]; show cfg.tFirst - 1 ≠ 0; decide
  · rw [hstart]
    show s.feed.drop 3 = _
    rw [hf]; rfl

/-- The byte loop on a device that sends 1 to 16 well-framed bytes: a full packet ends it, else the wait that runs out. -/
theorem byteLoop_takenBytes {bytes : List (BitVec 8)} {rest : List Lines} {s : State} (hb : bytes.length ≤ 16)
    (hf : s.feed = takenBytes bytes cfg.tNext.toNat ++ rest) :
    Captured bytes (byteLoop cfg byteRounds (startAcquisition cfg s).startBytes) ∧
      (byteLoop cfg byteRounds (startAcquisition cfg s).startBytes).feed = rest := by
  obtain ⟨y, hy⟩ := takenBytes_eq bytes cfg.tNext.toNat
  rw [hy, List.append_assoc] at hf
  have h := startAcquisition_receiving hf
  rw [← List.append_nil (bytes.flatMap frameBits)] at h
  obtain ⟨b, t, ht, hloop⟩ := h.frames bytes (by simpa using hb)
  obtain ⟨x, p, -, hwave⟩ := ht.wave
  have hcap : Captured bytes t := ht.toCaptured
  have hrounds : byteRounds = (byteRounds - 10 * bytes.length) + 10 * bytes.length :=
    (Nat.sub_add_cancel (by show _ ≤ 160; omega)).symm
  rw [hrounds, hloop]
  by_cases hlt : bytes.length < 16
  · rw [if_pos hlt] at hwave
    have hleft : byteRounds - 10 * bytes.length = (159 - 10 * bytes.length) + 1 := by show 160 - _ = _; omega
    rw [hleft]
    exact byteLoop_runs_out _ hcap ht.budget hlt hwave
  · rw [if_neg hlt] at hwave
    rw [byteLoop_full cfg _ (by rw [hcap.len]; show 128 ≤ _; omega)]
    exact ⟨hcap, hwave⟩

theorem closeBytes_clean {s : State} (h : s.hid.ferr = false) : s.closeBytes = { s with hid := Hidden.dead } :=
  if_neg (by rw [h]; exact Bool.false_ne_true)

/-- AcqByte on 1 to 16 well-framed bytes (R146). -/
theorem acqByte_takenBytes {bytes : List (BitVec 8)} {rest : List Lines} {s : State} (hb : bytes.length ≤ 16)
    (hf : s.feed = takenBytes bytes cfg.tNext.toNat ++ rest) :
    Captured bytes (acqByte cfg s) ∧ (acqByte cfg s).feed = rest := by
  obtain ⟨h, hrest⟩ := byteLoop_takenBytes hb hf
  have hend : acqByte cfg s = _ := closeBytes_clean (s := State.endAcquisition _) h.clean
  rw [hend]
  exact ⟨⟨h.len, h.slots, h.ferr, rfl⟩, hrest⟩

/-- An acquisition that filled a slot and saw no framing error completes without an error (R147). -/
theorem acqKind_noError {s : State} (hf : s.ferr = false) (hl : s.pktlen ≠ 0) : acqKind s = .noError := by
  rw [acqKind, hf, if_neg Bool.false_ne_true, if_neg hl]

/-- Settles O23: the packet `acqByte` leaves (`acqByte_takenBytes`), under the report of R147. -/
theorem acqbCapturesFramedBytes : Obligations.AcqbCapturesFramedBytes := by
  intro s bytes rest _ hpos hle hf
  obtain ⟨h, hrest⟩ := acqByte_takenBytes hle hf
  refine ⟨(acqByte cfg s).reportAcquisition, exec_eq .acqb s, ?_⟩
  generalize acqByte cfg s = t at h hrest
  have hlen := h.len
  have hkind := acqKind_noError h.ferr (by bv_omega)
  refine ⟨hrest, hlen, h.slots, ?_, ?_, hkind, h.ferr⟩
  · rw [State.reportAcquisition_result, BitVec.toNat_setWidth, hlen, Nat.mod_eq_of_lt (by omega)]
  · rw [State.reportAcquisition_ok, hkind]; rfl

end Sys2Proof.Machine
end

section
/-! ### PROOFS of family `30_encoding.md`: the words of the operations, and the words at the port

The word of an operation is laid out by `encode` row by row (R83); each row of the decoder is met from both sides,
from an operation's fields and from a word it accepts, and what it refuses is the clause of R95 for its OP. Which
words wait at the port plays no part in an operation, because every procedure is `Blind` to them. -/

namespace Sys2Proof

/-! #### Fields of IMM and SUB -/

/-- A field whose upper part is known is that part and the rest. -/
theorem append_extractLsb'_of_eq {m k : Nat} {x : BitVec (m + k)} {hi : BitVec m} (h : x.extractLsb' k m = hi) :
    hi ++ x.extractLsb' 0 k = x := by
  rw [← h]
  exact BitVec.extractLsb'_append_extractLsb'

/-- One bit as a field and as a truth value. -/
theorem extractLsb'_one_eq_ofBool {w : Nat} (x : BitVec w) (k : Nat) :
    x.extractLsb' k 1 = BitVec.ofBool (x.getLsbD k) := by
  apply BitVec.eq_of_getLsbD_eq
  intro j hj
  obtain rfl : j = 0 := by omega
  simp

theorem extractLsb'_one_eq_one_iff {w : Nat} (x : BitVec w) (k : Nat) :
    x.extractLsb' k 1 = 1 ↔ x.getLsbD k = true := by
  rw [BitVec.getLsbD_eq_extractLsb', beq_iff_eq]
  rfl

theorem Line.code_ofCode : ∀ c : BitVec 2, (Line.ofCode c).code = c := by decide

theorem Dir.code_of_ofCode {c : BitVec 2} {d : Dir} (h : Dir.ofCode c = some d) : d.code = c := by
  revert c
  cases d <;> decide

/-- Code 3 is the one that names no direction (R84). -/
theorem Dir.ofCode_eq_none_iff : ∀ c : BitVec 2, Dir.ofCode c = none ↔ c = 3 := by decide

section
variable (idx : BitVec 7) (val : Slot)

/-- IMM of WRSLOT: the index in bits 14:8, the value in bits 2:0, the other bits 0 (R83). -/
def wrslotImm : BitVec 16 := (0 : BitVec 1) ++ idx ++ (0 : BitVec 5) ++ val

theorem encode_wrslot : encode (.wrslot idx val) = mkWord 0xF 1 (wrslotImm idx val) := rfl

theorem wrslotImm_val : (wrslotImm idx val).extractLsb' 0 3 = val := BitVec.extractLsb'_append_eq_right

theorem wrslotImm_gap : (wrslotImm idx val).extractLsb' 3 5 = 0 := by
  calc (wrslotImm idx val).extractLsb' 3 5
      = ((0 : BitVec 1) ++ idx ++ (0 : BitVec 5)).extractLsb' 0 5 := BitVec.extractLsb'_append_eq_of_le (by decide)
    _ = 0 := BitVec.extractLsb'_append_eq_right

theorem wrslotImm_upper (k n : Nat) :
    (wrslotImm idx val).extractLsb' (8 + k) n = ((0 : BitVec 1) ++ idx).extractLsb' k n := by
  calc (wrslotImm idx val).extractLsb' (8 + k) n
      = ((0 : BitVec 1) ++ idx ++ (0 : BitVec 5)).extractLsb' (8 + k - 3) n :=
        BitVec.extractLsb'_append_eq_of_le (by omega)
    _ = ((0 : BitVec 1) ++ idx).extractLsb' (8 + k - 3 - 5) n := BitVec.extractLsb'_append_eq_of_le (by omega)
    _ = ((0 : BitVec 1) ++ idx).extractLsb' k n := by congr 1; omega

theorem wrslotImm_idx : (wrslotImm idx val).extractLsb' 8 7 = idx :=
  (wrslotImm_upper idx val 0 7).trans BitVec.extractLsb'_append_eq_right

theorem wrslotImm_top : (wrslotImm idx val).getLsbD 15 = false := by
  have h : (wrslotImm idx val).extractLsb' 15 1 = 0 :=
    (wrslotImm_upper idx val 7 1).trans BitVec.extractLsb'_append_eq_left
  rw [extractLsb'_one_eq_ofBool] at h
  exact BitVec.ofBool_eq_iff_eq.1 h

end

/-- IMM of WRSLOT is put together again from its operands when its other bits are 0. -/
theorem wrslotImm_fields {imm : BitVec 16} (htop : imm.getLsbD 15 = false) (hgap : imm.extractLsb' 3 5 = 0) :
    wrslotImm (imm.extractLsb' 8 7) (imm.extractLsb' 0 3) = imm := by
  have top : imm.extractLsb' 15 1 = 0 := by rw [extractLsb'_one_eq_ofBool, htop]; rfl
  have upper : (0 : BitVec 1) ++ imm.extractLsb' 8 7 = imm.extractLsb' 8 8 := by
    rw [← top]; exact BitVec.extractLsb'_append_extractLsb'_eq_extractLsb' rfl
  have middle : (0 : BitVec 1) ++ imm.extractLsb' 8 7 ++ (0 : BitVec 5) = imm.extractLsb' 3 13 := by
    rw [upper, ← hgap]; exact BitVec.extractLsb'_append_extractLsb'_eq_extractLsb' rfl
  exact append_extractLsb'_of_eq (m := 13) (k := 3) middle.symm

/-! #### From the operation: its fields select its row and give its operands back -/

/-- A word put together from fields decodes by its row group (R102). -/
theorem decode_mkWord (op sub : BitVec 4) (imm : BitVec 16) : decode (mkWord op sub imm) = decodeGroup op sub imm := by
  rw [decode, rsv_mkWord, if_pos rfl, op_mkWord, sub_mkWord, imm_mkWord]

theorem decodeImm8_append (v : BitVec 8) (f : BitVec 8 → Instr) : decodeImm8 ((0 : BitVec 8) ++ v) f = .ok (f v) := by
  have hi : ((0 : BitVec 8) ++ v).extractLsb' 8 8 = 0 := BitVec.extractLsb'_append_eq_left
  have lo : ((0 : BitVec 8) ++ v).extractLsb' 0 8 = v := BitVec.extractLsb'_append_eq_right
  rw [decodeImm8, if_pos hi, lo]

theorem decodeHatnib_append (nib : BitVec 4) : decodeHatnib ((0 : BitVec 12) ++ nib) = .ok (.hatnib nib) := by
  have hi : ((0 : BitVec 12) ++ nib).extractLsb' 4 12 = 0 := BitVec.extractLsb'_append_eq_left
  have lo : ((0 : BitVec 12) ++ nib).extractLsb' 0 4 = nib := BitVec.extractLsb'_append_eq_right
  rw [decodeHatnib, if_pos hi, lo]

theorem decodeWrslot_wrslotImm (idx : BitVec 7) (val : Slot) :
    decodeWrslot (wrslotImm idx val) = .ok (.wrslot idx val) := by
  rw [decodeWrslot, wrslotImm_top, if_neg Bool.false_ne_true, if_pos (wrslotImm_gap idx val), wrslotImm_idx,
    wrslotImm_val]

theorem decodeSetlen_append {n : BitVec 8} (h : n.toNat ≤ capSlots) :
    decodeSetlen ((0 : BitVec 8) ++ n) = .ok (.setlen n) := by
  have hi : ((0 : BitVec 8) ++ n).extractLsb' 8 8 = 0 := BitVec.extractLsb'_append_eq_left
  have lo : ((0 : BitVec 8) ++ n).extractLsb' 0 8 = n := BitVec.extractLsb'_append_eq_right
  rw [decodeSetlen, if_pos hi, lo, if_pos h]

/-- WAITEDGE takes every line and direction from SUB, whatever the timeout (R82). -/
theorem decodeWaitedge_codes (l : Line) (d : Dir) (t : Timeout) :
    decodeWaitedge (d.code ++ l.code) t = .ok (.waitedge l d t) := by
  have hd : (d.code ++ l.code).extractLsb' 2 2 = d.code := BitVec.extractLsb'_append_eq_left
  have hl : (d.code ++ l.code).extractLsb' 0 2 = l.code := BitVec.extractLsb'_append_eq_right
  simp only [decodeWaitedge, hd, hl, Dir.ofCode_code, Line.ofCode_code]

/-- Decoding undoes encoding: each row on its own word, the operand fields read back (R82, R83). -/
theorem decode_encode (i : Instr) (h : i.WellFormed) : decode (encode i) = .ok i := by
  cases i <;> simp only [encode, decode_mkWord]
  case rdlvl l => cases l <;> rfl
  case settrig b => cases b <;> rfl
  case waitedge l d t => exact decodeWaitedge_codes l d t
  case waitlvl l b t => cases l <;> cases b <;> rfl
  case readid n => exact decodeImm8_append n .readid
  case rdreg a => exact decodeImm8_append a .rdreg
  case hatnib n => exact decodeHatnib_append n
  case wrslot idx val => exact decodeWrslot_wrslotImm idx val
  case setlen n => exact decodeSetlen_append h
  all_goals rfl

/-! #### From the word: what a row accepts is the word of the operation it gives -/

theorem decodePlain_ok {imm : BitVec 16} {i j : Instr} (h : decodePlain imm i = .ok j) : j = i ∧ imm = 0 := by
  unfold decodePlain at h
  split at h
  · cases h; exact ⟨rfl, ‹_›⟩
  · cases h

theorem decodeSub0_ok {sub : BitVec 4} {r : Except Illegal Instr} {i : Instr} (h : decodeSub0 sub r = .ok i) :
    sub = 0 ∧ r = .ok i := by
  unfold decodeSub0 at h
  split at h
  · exact ⟨‹_›, h⟩
  · cases h

theorem decodeImm8_ok {imm : BitVec 16} {f : BitVec 8 → Instr} {i : Instr} (h : decodeImm8 imm f = .ok i) :
    ∃ v, i = f v ∧ imm = (0 : BitVec 8) ++ v := by
  unfold decodeImm8 at h
  split at h
  · cases h; exact ⟨_, rfl, (append_extractLsb'_of_eq (m := 8) (k := 8) ‹_›).symm⟩
  · cases h

section
variable {sub : BitVec 4} {imm : BitVec 16} {i : Instr}

/-- A row without operands accepts the one word of its operation. -/
theorem encode_of_decodePlain {op : BitVec 4} {j : Instr} (hj : encode j = mkWord op sub 0)
    (h : decodePlain imm j = .ok i) : encode i = mkWord op sub imm := by
  obtain ⟨rfl, rfl⟩ := decodePlain_ok h
  exact hj

/-- The same in a group of one row, whose SUB must be 0. -/
theorem encode_of_decodeSub0Plain {op : BitVec 4} {j : Instr} (hj : encode j = mkWord op 0 0)
    (h : decodeSub0 sub (decodePlain imm j) = .ok i) : encode i = mkWord op sub imm := by
  obtain ⟨rfl, h⟩ := decodeSub0_ok h
  exact encode_of_decodePlain hj h

theorem encode_of_decodeSub0Imm8 {op : BitVec 4} {f : BitVec 8 → Instr}
    (hf : ∀ v, encode (f v) = mkWord op 0 ((0 : BitVec 8) ++ v)) (h : decodeSub0 sub (decodeImm8 imm f) = .ok i) :
    encode i = mkWord op sub imm := by
  obtain ⟨rfl, h⟩ := decodeSub0_ok h
  obtain ⟨v, rfl, rfl⟩ := decodeImm8_ok h
  exact hf v

theorem encode_of_decodeRdlvl (h : decodeRdlvl sub imm = .ok i) : encode i = mkWord 0x1 sub imm := by
  unfold decodeRdlvl at h
  split at h
  next hz =>
    obtain ⟨rfl, rfl⟩ := decodePlain_ok h
    rw [encode, Line.code_ofCode, append_extractLsb'_of_eq (m := 2) (k := 2) hz]
  next => cases h

theorem encode_of_decodeSettrig (h : decodeSettrig imm = .ok i) : encode i = mkWord 0x2 0 imm := by
  unfold decodeSettrig at h
  split at h
  next hz =>
    cases h
    rw [encode, ← extractLsb'_one_eq_ofBool, append_extractLsb'_of_eq (m := 15) (k := 1) hz]
  next => cases h

theorem encode_of_decodeWaitedge (h : decodeWaitedge sub imm = .ok i) : encode i = mkWord 0x4 sub imm := by
  unfold decodeWaitedge at h
  split at h
  next d hd =>
    cases h
    rw [encode, Line.code_ofCode, append_extractLsb'_of_eq (m := 2) (k := 2) (Dir.code_of_ofCode hd).symm]
  next => cases h

theorem encode_of_decodeWaitlvl (h : decodeWaitlvl sub imm = .ok i) : encode i = mkWord 0x5 sub imm := by
  unfold decodeWaitlvl at h
  split at h
  next => cases h
  next hz =>
    cases h
    have top : (0 : BitVec 1) = sub.extractLsb' 3 1 := by
      rw [extractLsb'_one_eq_ofBool, Bool.eq_false_iff.2 hz]; rfl
    have upper : (0 : BitVec 1) ++ BitVec.ofBool (sub.getLsbD 2) = sub.extractLsb' 2 2 := by
      rw [top, ← extractLsb'_one_eq_ofBool]; exact BitVec.extractLsb'_append_extractLsb'_eq_extractLsb' rfl
    rw [encode, Line.code_ofCode, append_extractLsb'_of_eq (m := 2) (k := 2) upper.symm]

theorem encode_of_decodeAcq (h : decodeAcq sub imm = .ok i) : encode i = mkWord 0x6 sub imm := by
  unfold decodeAcq at h
  split at h
  case h_4 => cases h
  all_goals
    obtain ⟨-, rfl⟩ := BitVec.toNat_eq_nat.1 ‹_›
    exact encode_of_decodePlain rfl h

theorem encode_of_decodeDec (h : decodeDec sub imm = .ok i) : encode i = mkWord 0xB sub imm := by
  unfold decodeDec at h
  split at h
  case h_7 => cases h
  all_goals
    obtain ⟨-, rfl⟩ := BitVec.toNat_eq_nat.1 ‹_›
    exact encode_of_decodePlain rfl h

theorem encode_of_decodeHatnib (h : decodeHatnib imm = .ok i) : encode i = mkWord 0xF 0 imm := by
  unfold decodeHatnib at h
  split at h
  next hz => cases h; rw [encode, append_extractLsb'_of_eq (m := 12) (k := 4) hz]
  next => cases h

theorem encode_of_decodeWrslot (h : decodeWrslot imm = .ok i) : encode i = mkWord 0xF 1 imm := by
  unfold decodeWrslot at h
  split at h
  next => cases h
  next htop =>
    split at h
    next hgap => cases h; rw [encode_wrslot, wrslotImm_fields (Bool.eq_false_iff.2 htop) hgap]
    next => cases h

theorem encode_of_decodeSetlen (h : decodeSetlen imm = .ok i) : encode i = mkWord 0xF 2 imm := by
  unfold decodeSetlen at h
  split at h
  next hz =>
    split at h
    next => cases h; rw [encode, append_extractLsb'_of_eq (m := 8) (k := 8) hz]
    next => cases h
  next => cases h

theorem encode_of_decodeMisc (h : decodeMisc sub imm = .ok i) : encode i = mkWord 0xF sub imm := by
  unfold decodeMisc at h
  split at h
  case h_4 => cases h
  all_goals obtain ⟨-, rfl⟩ := BitVec.toNat_eq_nat.1 ‹_›
  case h_1 => exact encode_of_decodeHatnib h
  case h_2 => exact encode_of_decodeWrslot h
  case h_3 => exact encode_of_decodeSetlen h

/-- OP selects the row group, and each group accepts only the words of its own operations (R83). -/
theorem encode_of_decodeGroup {op : BitVec 4} (h : decodeGroup op sub imm = .ok i) : encode i = mkWord op sub imm := by
  unfold decodeGroup at h
  split at h
  case h_16 =>
    have hop : op.toNat = 15 := by grind [op.isLt]
    obtain ⟨-, rfl⟩ := BitVec.toNat_eq_nat.1 hop
    exact encode_of_decodeMisc h
  all_goals obtain ⟨-, rfl⟩ := BitVec.toNat_eq_nat.1 ‹_›
  case h_2 => exact encode_of_decodeRdlvl h
  case h_3 =>
    obtain ⟨rfl, h⟩ := decodeSub0_ok h
    exact encode_of_decodeSettrig h
  case h_4 =>
    obtain ⟨rfl, h⟩ := decodeSub0_ok h
    cases h
    rfl
  case h_5 => exact encode_of_decodeWaitedge h
  case h_6 => exact encode_of_decodeWaitlvl h
  case h_7 => exact encode_of_decodeAcq h
  case h_10 => exact encode_of_decodeSub0Imm8 (fun _ => rfl) h
  case h_12 => exact encode_of_decodeDec h
  case h_15 => exact encode_of_decodeSub0Imm8 (fun _ => rfl) h
  all_goals exact encode_of_decodeSub0Plain rfl h

end

/-- Encoding undoes decoding: with RSV 0 a word is its fields, and its row group accepts no other (R98, R102). -/
theorem encode_of_decode {w : Word} {i : Instr} (h : decode w = .ok i) : encode i = w := by
  unfold decode at h
  split at h
  next hr => exact (encode_of_decodeGroup h).trans (mkWord_fields w hr)
  next => cases h

/-! #### What a row refuses -/

/-- A row, or the whole decoder, refuses. -/
def Refuses (r : Except Illegal Instr) : Prop := ∃ e, r = .error e

section
variable {r : Except Illegal Instr} {e : Illegal} (sub : BitVec 4) (imm : BitVec 16) (i : Instr)

@[simp] theorem refuses_ok : ¬ Refuses (.ok i) := nofun

@[simp] theorem refuses_error : Refuses (.error e) := ⟨e, rfl⟩

/-- A check refuses when it fails, and otherwise what it guards decides. -/
theorem refuses_check (p : Prop) [Decidable p] : Refuses (if p then r else .error e) ↔ ¬ p ∨ Refuses r := by
  by_cases h : p <;> simp [h]

theorem refuses_decodePlain : Refuses (decodePlain imm i) ↔ imm ≠ 0 := by simp [decodePlain, refuses_check]

theorem refuses_decodeSub0 : Refuses (decodeSub0 sub r) ↔ sub ≠ 0 ∨ Refuses r := refuses_check _

theorem refuses_decodeImm8 (f : BitVec 8 → Instr) : Refuses (decodeImm8 imm f) ↔ imm.extractLsb' 8 8 ≠ 0 := by
  simp [decodeImm8, refuses_check]

theorem refuses_decodeRdlvl : Refuses (decodeRdlvl sub imm) ↔ sub.extractLsb' 2 2 ≠ 0 ∨ imm ≠ 0 := by
  rw [decodeRdlvl, refuses_check, refuses_decodePlain]

theorem refuses_decodeSettrig : Refuses (decodeSettrig imm) ↔ imm.extractLsb' 1 15 ≠ 0 := by
  simp [decodeSettrig, refuses_check]

theorem refuses_decodeWaitedge : Refuses (decodeWaitedge sub imm) ↔ sub.extractLsb' 2 2 = 3 := by
  rw [← Dir.ofCode_eq_none_iff]
  unfold decodeWaitedge
  split
  next hd => simp [hd]
  next hd => simp [hd]

theorem refuses_decodeWaitlvl : Refuses (decodeWaitlvl sub imm) ↔ sub.extractLsb' 3 1 = 1 := by
  rw [extractLsb'_one_eq_one_iff]
  unfold decodeWaitlvl
  split
  next hb => exact iff_of_true refuses_error hb
  next hb => exact iff_of_false (refuses_ok _) hb

theorem refuses_decodeAcq : Refuses (decodeAcq sub imm) ↔ 2 < sub.toNat ∨ imm ≠ 0 := by
  unfold decodeAcq
  split
  case h_4 => exact iff_of_true refuses_error (.inl (by grind))
  all_goals
    next hs => rw [refuses_decodePlain, hs]; simp

theorem refuses_decodeDec : Refuses (decodeDec sub imm) ↔ 5 < sub.toNat ∨ imm ≠ 0 := by
  unfold decodeDec
  split
  case h_7 => exact iff_of_true refuses_error (.inl (by grind))
  all_goals
    next hs => rw [refuses_decodePlain, hs]; simp

theorem refuses_decodeHatnib : Refuses (decodeHatnib imm) ↔ imm.extractLsb' 4 12 ≠ 0 := by
  simp [decodeHatnib, refuses_check]

theorem refuses_decodeWrslot :
    Refuses (decodeWrslot imm) ↔ imm.extractLsb' 15 1 = 1 ∨ imm.extractLsb' 3 5 ≠ 0 := by
  rw [extractLsb'_one_eq_one_iff]
  unfold decodeWrslot
  split
  next ht => exact iff_of_true refuses_error (.inl ht)
  next ht => rw [refuses_check, or_iff_left (refuses_ok _), or_iff_right ht]

theorem refuses_decodeSetlen :
    Refuses (decodeSetlen imm) ↔ imm.extractLsb' 8 8 ≠ 0 ∨ 128 < (imm.extractLsb' 0 8).toNat := by
  simp [decodeSetlen, refuses_check]

theorem refuses_decodeMisc : Refuses (decodeMisc sub imm) ↔
    2 < sub.toNat ∨ (sub = 0 ∧ imm.extractLsb' 4 12 ≠ 0) ∨
      (sub = 1 ∧ (imm.extractLsb' 15 1 = 1 ∨ imm.extractLsb' 3 5 ≠ 0)) ∨
      (sub = 2 ∧ (imm.extractLsb' 8 8 ≠ 0 ∨ 128 < (imm.extractLsb' 0 8).toNat)) := by
  unfold decodeMisc
  split
  case h_4 => exact iff_of_true refuses_error (.inl (by grind))
  all_goals obtain ⟨-, rfl⟩ := BitVec.toNat_eq_nat.1 ‹_›
  case h_1 => rw [refuses_decodeHatnib]; simp
  case h_2 => rw [refuses_decodeWrslot]; simp
  case h_3 => rw [refuses_decodeSetlen]; simp

end

/-- With RSV 0 the row group of OP refuses by the clause of R95 for that OP. -/
theorem refuses_decodeGroup {w : Word} (hr : Word.rsv w = 0) :
    Refuses (decodeGroup (Word.op w) (Word.sub w) (Word.imm w)) ↔ Machine.listedIllegal w := by
  unfold Machine.listedIllegal decodeGroup
  generalize Word.op w = op
  split
  case h_16 =>
    have hop : op.toNat = 15 := by grind [op.isLt]
    obtain ⟨-, rfl⟩ := BitVec.toNat_eq_nat.1 hop
    rw [refuses_decodeMisc]
    simp [hr]
  all_goals obtain ⟨-, rfl⟩ := BitVec.toNat_eq_nat.1 ‹_›
  all_goals simp [hr, refuses_decodeSub0, refuses_decodePlain, refuses_decodeImm8, refuses_decodeRdlvl,
    refuses_decodeSettrig, refuses_decodeWaitedge, refuses_decodeWaitlvl, refuses_decodeAcq, refuses_decodeDec]

theorem refuses_decode (w : Word) : Refuses (decode w) ↔ Machine.listedIllegal w := by
  rw [decode, refuses_check]
  by_cases hr : Word.rsv w = 0
  · simp [hr, refuses_decodeGroup hr]
  · exact iff_of_true (.inl hr) (.inl hr)

end Sys2Proof

namespace Sys2Proof.Machine

/-! #### An illegal word at the port -/

/-- The move of an idle machine with an illegal word at its port consumes and refuses it (R95). -/
theorem moveIn_of_refused (c : Cfg) {s : State} {w : Word} (hs : s.seq = .idle) (ho : s.offered = some w)
    (hw : Refuses (Sys2Proof.decode w)) : moveIn c s = s.accept.refuseIllegal := by
  obtain ⟨e, he⟩ := hw
  simp only [moveIn, hs, ho, wordIn, he]

/-! #### The words that wait at the port -/

/-- A procedure runs the same whatever words wait at the port, and leaves them there. -/
def HoldsWords (f : State → State) (s : State) : Prop :=
  (f s).cmds = s.cmds ∧ ∀ ws, f { s with cmds := ws } = { f s with cmds := ws }

/-- A relabelling that puts no event before the history changes the waiting words alone. -/
theorem State.relabel_nil (ws : List Word) (s : State) : s.relabel [] ws = { s with cmds := ws } := rfl

/-- A blind procedure holds the words: with others waiting only they differ, so with the same ones none does. -/
theorem Blind.holdsWords {f : State → State} (hf : Blind f) (s : State) : HoldsWords f s := by
  have run : ∀ ws, f { s with cmds := ws } = { f s with cmds := ws } := fun ws => hf [] ws s
  exact ⟨congrArg (·.cmds) (run s.cmds : f s = { f s with cmds := s.cmds }), run⟩

/-- In the loop of Init() a step is a round, and a round is blind to the port (R97, R242). -/
theorem moveIn_loop_holdsWords (c : Cfg) {s : State} {k : InitCaller} (h : s.seq = .initLoop k) :
    HoldsWords (moveIn c) s := by
  obtain ⟨hc, run⟩ := (Blind.initRound c k).holdsWords s
  rw [← moveIn_loop c h] at hc run
  exact ⟨hc, fun ws => (moveIn_loop c (s := { s with cmds := ws }) h).trans (run ws)⟩

/-! #### The statements -/

/-- Settles O2: `decode_encode`, row by row. -/
theorem decodeOfEncodeIsIdentity : Obligations.DecodeOfEncodeIsIdentity := decode_encode

/-- Settles O3: well-formed by `decode_wellFormed`, and the word is the operation's by `encode_of_decode`. -/
theorem legalWordIsItsOperationsEncoding : Obligations.LegalWordIsItsOperationsEncoding :=
  fun _ _ h => ⟨decode_wellFormed h, encode_of_decode h⟩

/-- Settles O59: every operation is blind to the waiting words (`opIn_blind`), so it holds them. -/
theorem waitingWordsHaveNoInfluence : Obligations.WaitingWordsHaveNoInfluence := by
  intro i s
  obtain ⟨hc, run⟩ := (opIn_blind cfg i).holdsWords s
  exact ⟨_, exec_eq i s, hc, fun ws => (exec_eq i _).trans (congrArg _ (run ws))⟩

/-- Settles O4: `refuses_decode`, one clause of R95 for each row group. -/
theorem illegalWordsAreExactlyTheListed : Obligations.IllegalWordsAreExactlyTheListed := refuses_decode

/-- Settles O6: a listed word is refused (`refuses_decode`), and the move is then `refuseIllegal` without the word. -/
theorem illegalWordChangesOnlyTheReport : Obligations.IllegalWordChangesOnlyTheReport := by
  intro s w hr hs ho hw
  rw [step_low hr, moveIn_of_refused cfg hs ho ((refuses_decode w).2 hw)]
  rfl

/-- Settles O9: a busy machine is not ready, and its move holds the waiting words (`moveIn_loop_holdsWords`). -/
theorem busyMachineHoldsTheCommand : Obligations.BusyMachineHoldsTheCommand := by
  intro s k hr hs
  obtain ⟨hc, run⟩ := moveIn_loop_holdsWords cfg hs
  have hready : s.cmdReady = false := by simp [State.cmdReady, hs]
  exact ⟨hready, _, step_low hr, hc,
    fun ws => (step_low (s := { s with cmds := ws }) hr).trans (congrArg _ (run ws))⟩

/-- Settles O1: the five words are `encode`'s for their operations, and so decode to them (`decode_encode`). -/
theorem specExampleWordsDecode : Obligations.SpecExampleWordsDecode :=
  ⟨decode_encode (.waitedge .clk .rising 100) trivial, decode_encode (.waitlvl .d0 true 50) trivial,
    decode_encode (.rdreg 0x10) trivial, decode_encode (.wrslot 5 7) trivial, decode_encode .decPp trivial⟩

end Sys2Proof.Machine
end

section
/-! ### PROOFS of family `40_bit_channel.md`: the trigger and the waits as operations, and the standard waveform

WAITEDGE and WAITLVL are the waits of Laws/Wait.lean under their report. On the standard waveform the waits of AcqSerial
are told apart by the answers they take (`roundPolls`), and the event history is the sequence of those. -/

namespace Sys2Proof.Machine

/-! #### RDLVL, PULSE -/

/-- A line's code is its place in the input vector (R22, R84). -/
theorem Line.toNat_code (l : Line) : l.code.toNat = lineIndex l := by cases l <;> rfl

/-- RDLVL as a whole: one poll, the line's level and the report (R116). -/
theorem opRdlvl_eq (l : Line) (s : State) :
    opRdlvl l s =
      { s.polled 1 with
        result := if (s.answer 0).getLsbD l.code.toNat then 1 else 0
        ok := true, ill := false, redet := false, lasterr := .noError } := by
  rw [Line.toNat_code, State.polled_one, ← State.poll_lastin', ← bit16_eq]
  rfl

/-- The word of PULSE is its OP over the duration (R83). -/
theorem encode_pulse (us : BitVec 16) : encode (.pulse us) = 0x30000000 ||| us.setWidth 32 := by
  have hus := us.isLt
  have hor : 3 <<< 28 + us.toNat = 3 <<< 28 ||| us.toNat := Nat.shiftLeft_add_eq_or_of_lt (by omega) 3
  apply BitVec.eq_of_toNat_eq
  rw [BitVec.toNat_or, BitVec.toNat_setWidth, Nat.mod_eq_of_lt (by omega)]
  exact (mkWord_toNat 3 0 us).trans hor

/-! #### WAITEDGE, WAITLVL -/

/-- Where the edge memory was dead, its death at the end of a wait changes nothing (R46). -/
theorem State.setLast_false {s : State} (h : s.hid = Hidden.dead) : s.setLast false = s := by
  unfold State.setLast
  rw [show ({ s.hid with last := false } : Hidden) = s.hid by rw [h]]

/-- The report of a wait that ended with budget left (R119, R120). -/
theorem report_wait_found {w s : State} {r : Timeout} (hw : w = s.setTmo r) (hr : r ≠ 0) :
    (w.setResult w.tmo).complete (waitKind w) =
      { s with tmo := r, result := r, ok := true, ill := false, redet := false, lasterr := .noError } := by
  subst hw
  rw [show waitKind (s.setTmo r) = .noError from if_neg hr]
  rfl

/-- The report of a wait that ran out (R119, R120, R273). -/
theorem report_wait_timeout {w s : State} (hw : w = s.setTmo 0) :
    (w.setResult w.tmo).complete (waitKind w) =
      { s with tmo := 0, result := 0, ok := false, ill := false, redet := false, lasterr := .acquisitionTimeout } := by
  subst hw
  rfl

/-- A budget less fewer units than it has, as a number. -/
theorem budget_left_eq {n : Timeout} {j : Nat} (h : j < n.toNat) :
    n - BitVec.ofNat 16 j = BitVec.ofNat 16 (n.toNat - j) := by
  bv_omega

theorem budget_left_ne_zero {n : Timeout} {j : Nat} (h : j < n.toNat) : BitVec.ofNat 16 (n.toNat - j) ≠ 0 := by
  bv_omega

/-! #### The statements about the bit channel -/

/-- Settles O14: the all-zero word is NOP's, and NOP is its report. -/
theorem nopWritesOnlyTheReport : Obligations.NopWritesOnlyTheReport :=
  ⟨decode_encode .nop trivial, exec_eq .nop⟩

/-- Settles O15: `opRdlvl_eq`. -/
theorem rdlvlReadsOneLine : Obligations.RdlvlReadsOneLine := by
  refine fun l s => ⟨by cases l <;> rfl, ?_⟩
  rw [exec_eq]
  exact congrArg _ (opRdlvl_eq l s)

/-- Settles O17: the word is `encode_pulse`'s; the three primitives append their events one after the other. -/
theorem pulseRaisesAndLowersTheTrigger : Obligations.PulseRaisesAndLowersTheTrigger := by
  refine fun us s => ⟨encode_pulse us ▸ decode_encode (.pulse us) trivial, ?_⟩
  have hevt : s.evt ++ [.trig true, .delay us.toNat, .trig false] =
      s.evt ++ [.trig true] ++ [.delay us.toNat] ++ [.trig false] := by simp
  rw [hevt]
  exact exec_eq (.pulse us) s

/-- Settles O18: `waitEdge_found` and `waitEdge_none`, each under its report. -/
theorem waitedgeReportsTheFirstEdge : Obligations.WaitedgeReportsTheFirstEdge := by
  refine fun l d n s hh => ⟨fun j hj he hn => ?_, fun hn => ?_⟩
  · have hw := (waitEdge_found l d n s j hj he hn).trans (State.setLast_false hh)
    rw [budget_left_eq hj] at hw
    exact (exec_eq _ s).trans (congrArg _ (report_wait_found hw (budget_left_ne_zero hj)))
  · have hw := (waitEdge_none l d n s hn).trans (State.setLast_false hh)
    exact (exec_eq _ s).trans (congrArg _ (report_wait_timeout hw))

/-- Settles O19: `waitLevel_found` and `waitLevel_none`, each under its report. -/
theorem waitlvlReportsTheFirstLevel : Obligations.WaitlvlReportsTheFirstLevel := by
  refine fun l b n s => ⟨fun j hj he hn => ?_, fun hn => ?_⟩
  · have hw := waitLevel_found l b n s j hj he hn
    rw [budget_left_eq hj] at hw
    exact (exec_eq _ s).trans (congrArg _ (report_wait_found hw (budget_left_ne_zero hj)))
  · exact (exec_eq _ s).trans (congrArg _ (report_wait_timeout (waitLevel_none l b n s hn)))

/-! #### A wait on given answers -/

/-- The next answers are the given ones, as far as they go (R13). -/
theorem State.answers_of_feed {s : State} {vs rest : List Lines} (hf : s.feed = vs ++ rest) :
    s.answers vs.length = vs := by
  refine List.ext_getElem (State.length_answers s _) fun i _ hi => ?_
  rw [← State.answer_of_feed hf hi]
  simp [State.answers]

/-- Polls of given answers, one event for each. -/
theorem Trace.of_polled {s t : State} {vs rest : List Lines} (hf : s.feed = vs ++ rest) {r : Timeout} {b : Bool}
    (ht : t = ((s.polled vs.length).setTmo r).setLast b) : Trace s t (vs.map Event.poll) := by
  have h := Trace.polled s vs.length
  rw [State.answers_of_feed hf] at h
  subst ht
  exact h.of_eq rfl rfl rfl rfl

/-- What a trace of given answers leaves is the rest of them. -/
theorem Trace.feed_rest {s t : State} {vs rest : List Lines} (h : Trace s t (vs.map Event.poll))
    (hf : s.feed = vs ++ rest) : t.feed = rest := by
  rw [h.feed, pollCount_map_poll, hf, List.drop_left]

/-- LASTIN after a trace of given answers is the last of them (R25). -/
theorem Trace.lastin_concat {s t : State} {vs : List Lines} {v : Lines}
    (h : Trace s t ((vs ++ [v]).map Event.poll)) : t.lastin = v := by
  have ha : ((vs ++ [v]).map Event.poll).filterMap Event.answer = vs ++ [v] := by
    rw [List.filterMap_map]; exact List.filterMap_some
  rw [h.lastin, ha, List.getLast?_concat]; rfl

/-! #### The standard waveform, round by round -/

/-- The answers the wait for slot `v` takes (R143): where slot `u` was sampled before, what is left of its high phase
and the first poll of the low phase; then, as for the first slot, the second poll of the low phase and the rise. -/
def roundPolls (u : Option Slot) (v : Slot) : List Lines :=
  match u with
  | none => [lowPhase v, highPhase v]
  | some u => [highPhase u, lowPhase v, lowPhase v, highPhase v]

/-- The answers the rounds for these slots take, `u` the slot sampled before them. -/
def samplePolls (u : Option Slot) (slots : List Slot) : List Lines :=
  match slots with
  | [] => []
  | v :: rest => roundPolls u v ++ samplePolls (some v) rest

/-- What the rounds leave of the waveform is the second poll of the last high phase. -/
theorem cons_slotWaves (u : Slot) (slots : List Slot) :
    highPhase u :: slots.flatMap slotWave = samplePolls (some u) slots ++ [highPhase (slots.getLast?.getD u)] := by
  induction slots generalizing u with
  | nil => rfl
  | cons v slots ih =>
    have hlast : (v :: slots).getLast?.getD u = slots.getLast?.getD v := by
      rw [List.getLast?_cons]; rfl
    rw [hlast, samplePolls, List.append_assoc, ← ih]
    rfl

/-- The answers a serial acquisition takes are the first wait's three, those of its rounds, and for less than 128 slots
those of the wait that runs out (R143, R310). -/
theorem takenWave_eq (v : Slot) (slots : List Slot) (tail : Nat) :
    ∃ y, takenWave (v :: slots) tail = [8, 8, lowPhase v] ++ (samplePolls none (v :: slots) ++
      if (v :: slots).length < capSlots then List.replicate (tail + 1) (highPhase y) else []) := by
  have hlast : (v :: slots).getLast?.getD 0 = slots.getLast?.getD v := by
    rw [List.getLast?_cons]; rfl
  have hw : [8, 8] ++ (v :: slots).flatMap slotWave =
      [8, 8, lowPhase v] ++ samplePolls none (v :: slots) ++ [highPhase (slots.getLast?.getD v)] := by
    rw [samplePolls, List.append_assoc, List.append_assoc, ← cons_slotWaves]
    rfl
  refine ⟨slots.getLast?.getD v, ?_⟩
  unfold takenWave packetWave
  split
  · rw [hw, hlast, List.replicate_succ]; simp
  · rw [hw, List.dropLast_concat]; simp

/-- The wait of a round ends at the rise into the slot's high phase, with budget left (R140, R143). -/
theorem waitEdge_roundPolls {s : State} {u : Option Slot} {v : Slot} {rest : List Lines}
    (hf : s.feed = roundPolls u v ++ rest) :
    (waitEdge .clk cfg.sampleDir cfg.tNext s).tmo ≠ 0 ∧
      Trace s (waitEdge .clk cfg.sampleDir cfg.tNext s) ((roundPolls u v).map Event.poll) := by
  change (waitEdge .clk .rising cfg.tNext s).tmo ≠ 0 ∧ Trace s (waitEdge .clk .rising cfg.tNext s) _
  cases u with
  | none =>
    have ha (i : Nat) (hi : i < 2) := State.answer_of_feed (k := i) hf hi
    have hw := waitEdge_found .clk .rising cfg.tNext s 0 (by decide)
      (by simp [State.edgeAt, ha, roundPolls, dirWants]) (fun i hi => by omega)
    exact ⟨by rw [hw]; exact (by decide : cfg.tNext - 0 ≠ 0), Trace.of_polled hf hw⟩
  | some u =>
    have ha (i : Nat) (hi : i < 4) := State.answer_of_feed (k := i) hf hi
    have hw := waitEdge_found .clk .rising cfg.tNext s 2 (by decide)
      (by simp [State.edgeAt, ha, roundPolls, dirWants])
      (fun i hi => by
        interval_cases i
        · simp [State.edgeAt, ha, roundPolls, dirWants]
        · simp [State.edgeAt, ha, roundPolls])
    exact ⟨by rw [hw]; exact (by decide : cfg.tNext - 2 ≠ 0), Trace.of_polled hf hw⟩

/-! #### What AcqSerial holds while it samples the standard waveform -/

/-- The packet holds exactly these slots, masked to the family's lines (R143). -/
structure SlotsCaptured (keep : Slot) (slots : List Slot) (s : State) : Prop where
  len : s.pktlen.toNat = slots.length
  slots : ∀ i, Memory.read s.pkt i = slots.getD i 0 &&& keep
  ferr : s.ferr = false

theorem getD_concat (slots : List Slot) (v : Slot) (i : Nat) :
    (slots ++ [v]).getD i 0 = if i = slots.length then v else slots.getD i 0 := by
  rcases Nat.lt_trichotomy i slots.length with h | h | h
  · rw [if_neg h.ne, List.getD_append _ _ _ _ h]
  · rw [if_pos h, h, List.getD_append_right _ _ _ _ le_rfl, Nat.sub_self]; rfl
  · rw [if_neg h.ne', List.getD_eq_default _ _ (by simpa using h), List.getD_eq_default _ _ h.le]

section
variable {keep : Slot} {done : List Slot} {s : State} {rest : List Lines}

theorem SlotsCaptured.wait (h : SlotsCaptured keep done s) (l : Line) (d : Dir) (n : Timeout) :
    SlotsCaptured keep done (waitEdge l d n s) where
  len := by rw [waitEdge_pktlen, h.len]
  slots i := by rw [waitEdge_pkt, h.slots]
  ferr := by rw [waitEdge_ferr, h.ferr]

theorem SlotsCaptured.append (h : SlotsCaptured keep done s) (hd : done.length < 128) (v : Slot) :
    SlotsCaptured keep (done ++ [v]) (s.appendSlot (v &&& keep)) where
  len := by
    rw [State.appendSlot_pktlen, pktlen_succ (by rw [h.len]; exact hd), h.len, List.length_append]; rfl
  slots i := by
    rw [State.appendSlot_pkt, Memory.read_write, h.len, h.slots, getD_concat]
    split <;> rfl
  ferr := h.ferr

/-- The loop goes on to a wait while the last one succeeded and there is room for a slot (R143). -/
theorem sampleLoop_waits (c : Cfg) (after : State → State) (n : Nat) (ht : s.tmo ≠ 0) (hl : s.pktlen.toNat < 128) :
    sampleLoop c keep after (n + 1) s =
      if (waitEdge .clk c.sampleDir c.tNext s).tmo = 0 then waitEdge .clk c.sampleDir c.tNext s
      else sampleLoop c keep after n (after ((waitEdge .clk c.sampleDir c.tNext s).appendSlot
        (dataLines (waitEdge .clk c.sampleDir c.tNext s).lastin &&& keep))) :=
  if_neg (not_or.2 ⟨ht, not_le.2 hl⟩)

/-- A full packet ends the loop with no further wait (R143, R310). -/
theorem sampleLoop_full (c : Cfg) (after : State → State) (n : Nat) (h : capSlots ≤ s.pktlen.toNat) :
    sampleLoop c keep after n s = s := by
  cases n with
  | zero => rfl
  | succ n => exact if_pos (Or.inr h)

@[simp] theorem dataLines_highPhase (v : Slot) : dataLines (highPhase v) = v := by
  revert v; decide

theorem roundPolls_concat (u : Option Slot) (v : Slot) : ∃ vs, roundPolls u v = vs ++ [highPhase v] := by
  cases u with
  | none => exact ⟨[lowPhase v], rfl⟩
  | some u => exact ⟨[highPhase u, lowPhase v, lowPhase v], rfl⟩

/-- A round stores the slot the device sends (R143). -/
theorem sampleLoop_round {u : Option Slot} {v : Slot} (h : SlotsCaptured keep done s) (hd : done.length < 128)
    (ht : s.tmo ≠ 0) (hf : s.feed = roundPolls u v ++ rest) :
    ∃ t, SlotsCaptured keep (done ++ [v]) t ∧ t.tmo ≠ 0 ∧ Trace s t ((roundPolls u v).map Event.poll) ∧
      ∀ m, sampleLoop cfg keep id (m + 1) s = sampleLoop cfg keep id m t := by
  obtain ⟨hw, htr⟩ := waitEdge_roundPolls hf
  obtain ⟨vs, hvs⟩ := roundPolls_concat u v
  have hlast := Trace.lastin_concat (hvs ▸ htr)
  refine ⟨_, (h.wait .clk cfg.sampleDir cfg.tNext).append hd v, hw, htr.of_eq rfl rfl rfl rfl, fun m => ?_⟩
  rw [sampleLoop_waits cfg id m ht (by rw [h.len]; exact hd), if_neg hw, hlast, dataLines_highPhase]
  rfl

/-- The rounds store the slots one after the other (R143). -/
theorem sampleLoop_rounds {u : Option Slot} (slots : List Slot) (h : SlotsCaptured keep done s)
    (hd : done.length + slots.length ≤ 128) (ht : s.tmo ≠ 0) (hf : s.feed = samplePolls u slots ++ rest) :
    ∃ t, SlotsCaptured keep (done ++ slots) t ∧ t.tmo ≠ 0 ∧ Trace s t ((samplePolls u slots).map Event.poll) ∧
      ∀ m, sampleLoop cfg keep id (m + slots.length) s = sampleLoop cfg keep id m t := by
  induction slots generalizing done u s with
  | nil => exact ⟨s, by simpa using h, ht, Trace.refl s, fun _ => rfl⟩
  | cons v slots ih =>
    rw [List.length_cons] at hd
    rw [samplePolls, List.append_assoc] at hf
    obtain ⟨t, ht', htb, htr, hloop⟩ := sampleLoop_round h (by omega) ht hf
    obtain ⟨w, hw, hwb, hwr, hloop'⟩ := ih ht' (by simpa using by omega) htb (htr.feed_rest hf)
    refine ⟨w, by simpa using hw, hwb, ?_, fun m => ?_⟩
    · rw [samplePolls, List.map_append]; exact htr.trans hwr
    · rw [List.length_cons, ← Nat.add_assoc, hloop, hloop']

/-- A clock that stays high gives the rising wait nothing: all its answers are polled and the loop ends (R113, R143). -/
theorem sampleLoop_runs_out (n : Nat) {y : Slot} (h : SlotsCaptured keep done s) (ht : s.tmo ≠ 0)
    (hd : done.length < 128) (hf : s.feed = List.replicate (cfg.tNext.toNat + 1) (highPhase y) ++ rest) :
    SlotsCaptured keep done (sampleLoop cfg keep id (n + 1) s) ∧
      Trace s (sampleLoop cfg keep id (n + 1) s)
        ((List.replicate (cfg.tNext.toNat + 1) (highPhase y)).map Event.poll) := by
  have hw := waitEdge_none .clk cfg.sampleDir cfg.tNext s fun i hi he => by
    have ha (k : Nat) (hk : k < cfg.tNext.toNat + 1) := State.answer_of_feed hf (k := k) (by simpa using hk)
    have hne := he.1
    rw [ha i (by omega), ha (i + 1) (by omega), List.getElem_replicate, List.getElem_replicate] at hne
    exact hne rfl
  have hend : sampleLoop cfg keep id (n + 1) s = waitEdge .clk cfg.sampleDir cfg.tNext s := by
    rw [sampleLoop_waits cfg id n ht (by rw [h.len]; exact hd)]
    exact if_pos (by rw [hw]; rfl)
  rw [hend]
  exact ⟨h.wait _ _ _, Trace.of_polled hf (by rw [List.length_replicate]; exact hw)⟩

end

/-! #### ACQS and ACQT on the standard waveform -/

/-- The first wait ends at the fall into the first slot's low phase, which is not sampled (R140, R143). -/
theorem startAcquisition_wave (keep : Slot) {s : State} {v : Slot} {rest : List Lines}
    (hf : s.feed = [8, 8, lowPhase v] ++ rest) :
    SlotsCaptured keep [] (startAcquisition cfg s) ∧ (startAcquisition cfg s).tmo ≠ 0 ∧
      Trace ((s.fresh.driveCrit true).driveTrig true) (startAcquisition cfg s)
        ([8, 8, lowPhase v].map Event.poll) := by
  have ha (i : Nat) (hi : i < 3) :=
    State.answer_of_feed (k := i) (s := (s.fresh.driveCrit true).driveTrig true) hf hi
  have hw := waitEdge_found .clk cfg.firstDir cfg.tFirst ((s.fresh.driveCrit true).driveTrig true) 1 (by decide)
    ⟨by
      rw [ha 1 (by decide), ha 2 (by decide)]
      show lineLevel .clk 8 ≠ lineLevel .clk (lowPhase v)
      rw [lineLevel_clk_lowPhase]; decide, rfl⟩
    (fun i hi => by
      obtain rfl : i = 0 := by omega
      simp [State.edgeAt, ha])
  have hfresh : SlotsCaptured keep [] ((s.fresh.driveCrit true).driveTrig true) :=
    ⟨rfl, fun i => by simp, rfl⟩
  refine ⟨hfresh.wait _ _ _, ?_, Trace.of_polled hf hw⟩
  rw [startAcquisition, hw]
  exact (by decide : cfg.tFirst - 1 ≠ 0)

/-- The sampling loop on the standard waveform of 1 to 128 slots: a full packet ends it, else the wait that runs out. -/
theorem sampleLoop_takenWave (keep : Slot) {slots : List Slot} {rest : List Lines} {s : State}
    (hpos : 1 ≤ slots.length) (hle : slots.length ≤ 128) (hf : s.feed = takenWave slots cfg.tNext.toNat ++ rest) :
    SlotsCaptured keep slots (sampleLoop cfg keep id capSlots (startAcquisition cfg s)) ∧
      Trace ((s.fresh.driveCrit true).driveTrig true) (sampleLoop cfg keep id capSlots (startAcquisition cfg s))
        ((takenWave slots cfg.tNext.toNat).map Event.poll) := by
  obtain ⟨v, slots, rfl⟩ := List.exists_cons_of_length_pos hpos
  obtain ⟨y, hy⟩ := takenWave_eq v slots cfg.tNext.toNat
  rw [hy, List.map_append, List.map_append]
  generalize v :: slots = slots at *
  rw [hy, List.append_assoc] at hf
  obtain ⟨h0, ht0, htr0⟩ := startAcquisition_wave keep hf
  have hf0 := htr0.feed_rest hf
  rw [List.append_assoc] at hf0
  obtain ⟨t, h, ht, htr, hloop⟩ := sampleLoop_rounds slots h0 (by simpa using hle) ht0 hf0
  have hf1 := htr.feed_rest hf0
  rw [List.nil_append] at h
  have hrun : sampleLoop cfg keep id capSlots (startAcquisition cfg s) =
      sampleLoop cfg keep id (128 - slots.length) t := by
    have := hloop (128 - slots.length)
    rwa [Nat.sub_add_cancel hle] at this
  rw [hrun]
  by_cases hlt : slots.length < 128
  · rw [if_pos hlt] at hf1 ⊢
    rw [show 128 - slots.length = (127 - slots.length) + 1 by omega]
    obtain ⟨hend, htr1⟩ := sampleLoop_runs_out (127 - slots.length) h ht hlt hf1
    exact ⟨hend, htr0.trans (htr.trans htr1)⟩
  · rw [if_neg hlt, sampleLoop_full cfg id _ (by rw [h.len]; exact not_lt.1 hlt)]
    exact ⟨h, htr0.trans (htr.trans (Trace.refl t))⟩

/-- AcqSerial on the standard waveform of 1 to 128 slots (R143, R310). -/
theorem acqSerial_takenWave (keep : Slot) {slots : List Slot} {rest : List Lines} {s : State}
    (hpos : 1 ≤ slots.length) (hle : slots.length ≤ 128) (hf : s.feed = takenWave slots cfg.tNext.toNat ++ rest) :
    SlotsCaptured keep slots (acqSerial cfg keep s) ∧ (acqSerial cfg keep s).feed = rest ∧
      Trace s (acqSerial cfg keep s) ([.crit true, .trig true] ++
        (takenWave slots cfg.tNext.toNat).map Event.poll ++ [.trig false, .crit false]) := by
  obtain ⟨h, htr⟩ := sampleLoop_takenWave keep hpos hle hf
  have hbegin : Trace s ((s.fresh.driveCrit true).driveTrig true) ([.crit true] ++ [.trig true]) :=
    (Trace.event (s := s) (t := s.fresh.driveCrit true) rfl rfl rfl rfl rfl).trans (Trace.driveTrig _ true)
  exact ⟨⟨h.len, h.slots, h.ferr⟩, htr.feed_rest hf,
    (hbegin.trans htr).trans ((Trace.driveTrig _ false).trans (Trace.driveCrit _ false))⟩

/-- Settles O21: the packet and the trace `acqSerial` leaves (`acqSerial_takenWave`), under the report of R144, R145. -/
theorem acqtCapturesTheStandardWaveform : Obligations.AcqtCapturesTheStandardWaveform := by
  intro s slots rest ⟨i, keep⟩ hik _ hpos hle hf
  obtain ⟨h, hrest, htr⟩ := acqSerial_takenWave keep hpos hle hf
  have hexec : exec i s = .next (acqSerial cfg keep s).reportAcquisition := by
    rcases hik with hik | hik <;> cases hik <;> exact exec_eq _ s
  refine ⟨_, hexec, ?_⟩
  generalize acqSerial cfg keep s = t at h hrest htr
  have hlen := h.len
  have hkind := acqKind_noError h.ferr (by bv_omega)
  refine ⟨hrest, (htr.setResult _).complete _, hlen, h.slots, ?_, ?_, hkind, h.ferr⟩
  · rw [State.reportAcquisition_result, BitVec.toNat_setWidth, hlen, Nat.mod_eq_of_lt (by omega)]
  · rw [State.reportAcquisition_ok, hkind]; rfl

end Sys2Proof.Machine
end

section
/-! ### PROOFS of family `41_acquisition.md`: what the acquisitions and READID leave

The traces, frames and packets of AcqSerial, AcqByte and ReadId stand in the Laws; the statements put them under their
reports. A device that breaks a frame, and READID on the standard waveform, are followed wait by wait. -/

namespace Sys2Proof.Machine

/-! #### The report of an acquisition -/

/-- A framing error is what an acquisition reports first (R147). -/
theorem acqKind_framingError {s : State} (hf : s.ferr = true) : acqKind s = .framingError := if_pos hf

/-- An acquisition that filled no slot and saw no framing error ran out of time (R144, R145, R147). -/
theorem acqKind_timeout {s : State} (hf : s.ferr = false) (hl : s.pktlen = 0) : acqKind s = .acquisitionTimeout := by
  rw [acqKind, hf, if_neg Bool.false_ne_true, if_pos hl]

/-- OK and LASTERR after an acquisition that ended with a given kind (R271). -/
theorem reportAcquisition_of_kind {s : State} {e : ErrKind} (h : acqKind s = e) :
    s.reportAcquisition.ok = decide (e = .noError) ∧ s.reportAcquisition.lasterr = e := by
  subst h
  exact ⟨rfl, rfl⟩

/-- The report writes RESULT, OK, ILL, REDET and LASTERR only (R144, R145, R147). -/
theorem reportAcquisition_except {s t : State} (h : t.exceptAcquisition = s.exceptAcquisition) :
    t.reportAcquisition.exceptAcquisition.exceptOutcome = s.exceptAcquisition.exceptOutcome :=
  calc t.reportAcquisition.exceptAcquisition.exceptOutcome
    _ = t.exceptAcquisition.exceptOutcome := rfl
    _ = s.exceptAcquisition.exceptOutcome := by rw [h]

/-- ACQS and ACQT are AcqSerial with the family's lines, under the report (R144, R145). -/
theorem exec_serial {ik : Instr × Slot} (h : ik = (.acqs, 0b001) ∨ ik = (.acqt, 0b111)) (s : State) :
    exec ik.1 s = .next (acqSerial cfg ik.2 s).reportAcquisition := by
  rcases h with rfl | rfl <;> exact exec_eq _ s

/-! #### The acquisitions, for any device -/

/-- Settles O20: the trace, packet and frame of AcqSerial, under the report of R144, R145. -/
theorem serialAcquisitionLeavesAPacket : Obligations.SerialAcquisitionLeavesAPacket := by
  intro s hh ik hik
  obtain ⟨ps, htr, hps, hpos, -⟩ := acqSerial_trace cfg ik.2 s
  obtain ⟨hlen, hwf, hmask, hbeyond, hferr, hhid⟩ := acqSerial_packet cfg ik.2 s hh
  exact ⟨_, ps, exec_serial hik s, htr.reportAcquisition, hps, hpos, rfl, rfl, hhid, hferr, hlen, hwf, hmask, hbeyond,
    rfl, rfl, rfl, fun h0 => reportAcquisition_of_kind (acqKind_timeout hferr h0),
    fun h0 => reportAcquisition_of_kind (acqKind_noError hferr h0),
    reportAcquisition_except (acqSerial_frame cfg ik.2 s)⟩

/-- A slot that keeps only its lowest line is 0 or 1 (R64). -/
theorem slot_le_one {v : Slot} (h : v &&& 1 = v) : v.toNat ≤ 1 := by
  rw [← h, BitVec.toNat_and]
  exact Nat.and_le_right

/-- Settles O22: the trace, packet and frame of AcqByte, under the report of R147. -/
theorem byteAcquisitionLeavesWholeBytes : Obligations.ByteAcquisitionLeavesWholeBytes := by
  intro s _
  obtain ⟨ps, htr, hps, hpos, -⟩ := acqByte_trace cfg s
  obtain ⟨hlen, hwhole, hwf, hmask, hbeyond, hempty⟩ := acqByte_packet cfg s
  have htrig := acqByte_trig cfg s
  have hcrit := acqByte_crit cfg s
  have hhid := acqByte_hid cfg s
  have hframe := acqByte_frame cfg s
  refine ⟨(acqByte cfg s).reportAcquisition, ps, exec_eq .acqb s, ?_⟩
  generalize acqByte cfg s = t at *
  exact ⟨htr.reportAcquisition, hps, hpos, htrig, hcrit, hhid, hlen, hwhole, hwf, fun i => slot_le_one (hmask i),
    hbeyond, rfl, rfl, rfl, fun hf => ⟨(hempty hf).1, reportAcquisition_of_kind (acqKind_framingError hf)⟩,
    fun hf h0 => reportAcquisition_of_kind (acqKind_timeout hf h0),
    fun hf h0 => reportAcquisition_of_kind (acqKind_noError hf h0), reportAcquisition_except hframe⟩

/-- Settles O26: COOLDOWN is its delay under the report, for every configuration. -/
theorem cooldownOnlyWaits : Obligations.CooldownOnlyWaits :=
  ⟨decode_encode .cooldown trivial, exec_eq .cooldown, fun c => execIn_eq c .cooldown⟩

/-! #### The brackets of an acquisition -/

/-- `Fresh(); crit(1); trig(1)`, where the first clock wait of an acquisition begins (R142, R143). -/
abbrev State.opened (s : State) : State := (s.fresh.driveCrit true).driveTrig true

/-- Whatever happens between the opening and the end of an acquisition is bracketed by its outputs (R141). -/
theorem Trace.bracket {s t : State} {es : List Event} (h : Trace s.opened t es) :
    Trace s t.endAcquisition ([.crit true, .trig true] ++ es ++ [.trig false, .crit false]) := by
  have hopen : Trace s s.opened ([.crit true] ++ [.trig true]) :=
    (Trace.event (s := s) (t := s.fresh.driveCrit true) rfl rfl rfl rfl rfl).trans (Trace.driveTrig _ true)
  exact (hopen.trans h).trans ((Trace.driveTrig _ false).trans (Trace.driveCrit _ false))

/-- A run of polls is the answers they got. -/
theorem eq_map_poll {es : List Event} (hp : ∀ e ∈ es, e.isPoll = true) : ∃ vs : List Lines, es = vs.map Event.poll := by
  induction es with
  | nil => exact ⟨[], rfl⟩
  | cons e es ih =>
    obtain ⟨vs, rfl⟩ := ih fun e' he => hp e' (List.mem_cons_of_mem _ he)
    have he := hp e List.mem_cons_self
    cases e with
    | poll v => exact ⟨v :: vs, rfl⟩
    | trig | crit | delay => cases he

/-- Polls that leave some of the given answers took given ones, in order (R13). -/
theorem Trace.polls_of_feed_left {s t : State} {es : List Event} (h : Trace s t es) (hp : ∀ e ∈ es, e.isPoll = true)
    (hleft : t.feed ≠ []) : ∃ vs, es = vs.map Event.poll ∧ s.feed = vs ++ t.feed := by
  obtain ⟨vs, rfl⟩ := eq_map_poll hp
  have hfeed := h.feed
  have hanswers := h.answers
  rw [pollCount_map_poll] at hfeed hanswers
  rw [List.filterMap_map, show Event.answer ∘ Event.poll = some from rfl, List.filterMap_some] at hanswers
  have hlen : vs.length ≤ s.feed.length := by
    by_contra hlt
    exact hleft (hfeed.trans (List.drop_eq_nil_of_le (by omega)))
  have hsplit := (List.take_append_drop vs.length s.feed).symm
  have htaken := State.answers_of_feed hsplit
  rw [List.length_take, Nat.min_eq_left hlen, ← hanswers] at htaken
  refine ⟨vs, rfl, hsplit.trans ?_⟩
  rw [← htaken, ← hfeed]

/-! #### ACQB on a device that breaks a frame -/

/-- A broken waveform is the first wait's three answers and those of its rounds (R146). -/
theorem brokenWave_eq (bytes : List (BitVec 8)) (bits : List Bool) :
    brokenWave bytes bits = [8, 8, 0] ++ bitPolls 0 false (bytes.flatMap frameBits ++ bits) := by
  obtain ⟨y, hy⟩ := cons_bitWave 0 false (bytes.flatMap frameBits ++ bits)
  have hw : [8, 8, 0, 0] ++ bitWave false (bytes.flatMap frameBits ++ bits) =
      ([8, 8, 0] ++ bitPolls 0 false (bytes.flatMap frameBits ++ bits)) ++ [y] := by
    rw [List.append_assoc, ← hy]; rfl
  rw [brokenWave, hw, List.dropLast_concat]

/-- A bit that breaks the frame at a position: a start bit of 0 or a stop bit of 1 (R146). -/
def Offends (pos : Nat) (bit : Bool) : Prop := pos = 0 ∧ bit = false ∨ pos = 9 ∧ bit = true

/-- An offending bit only sets the framing-error flag (R146). -/
theorem State.takeBit_offending {s : State} {bit : Bool} (h : Offends s.hid.pos bit) :
    s.takeBit bit = { s with hid := { s.hid with ferr := true } } := by
  rcases h with ⟨hp, rfl⟩ | ⟨hp, rfl⟩ <;> simp [State.takeBit, hp]

/-- A framing error ends the byte loop with no further wait (R146). -/
theorem byteLoop_broken (c : Cfg) (n : Nat) {s : State} (h : s.hid.ferr = true) : byteLoop c n s = s := by
  cases n with
  | zero => rfl
  | succ n => exact if_pos (Or.inr (Or.inl h))

/-- A framing error empties the packet and sets STATUS.FERR (R146). -/
theorem closeBytes_broken {s : State} (h : s.hid.ferr = true) :
    s.closeBytes = { s with pktlen := 0, pkt := [], ferr := true, hid := Hidden.dead } := if_pos h

section
variable {done : List (BitVec 8)} {b : BitVec 8} {bit : Bool} {pos : Nat} {bad : List Bool} {rest : List Lines}
  {s : State}

/-- Bits that break a frame come, within nine rounds, to the one that offends (R146). -/
theorem Receiving.offending (hd : done.length < 16) (hbad : violatesFrame bad) (h : Receiving done b 0 bad rest s) :
    ∃ b' pos bit t n, Offends pos bit ∧ Receiving done b' pos [bit] rest t ∧ n ≤ 9 ∧
      ∀ m, byteLoop cfg (m + n) s = byteLoop cfg m t := by
  rcases hbad with rfl | ⟨b', rfl⟩
  · exact ⟨b, 0, false, s, 0, Or.inl ⟨rfl, rfl⟩, h, Nat.zero_le _, fun _ => rfl⟩
  · rw [List.range_eq_range'] at h
    obtain ⟨t, ht, hloop⟩ := Receiving.data_bits 8 rfl hd (h.wait.1.takeStart (b' := b'))
    exact ⟨b', 9, true, t, 9, Or.inr ⟨rfl, rfl⟩, ht, le_rfl, fun m => by rw [h.round hd (m + 8), hloop]⟩

/-- The wait for a bit takes four answers (R113, R146). -/
theorem Receiving.wait_trace (h : Receiving done b pos [bit] rest s) :
    ∃ vs, s.feed = vs ++ rest ∧ vs ≠ [] ∧ Trace s (waitEdge .clk .falling cfg.tNext s) (vs.map Event.poll) := by
  obtain ⟨x, p, hx, hf⟩ := h.wave
  have ha (i : Nat) (hi : i < 4) := State.answer_of_feed (k := i) (pre := [x, highBit p, highBit p, lowBit bit]) hf hi
  have hw := waitEdge_found .clk .falling cfg.tNext s 2 (by decide)
    (by simp [State.edgeAt, ha, dirWants])
    (fun i hi => by
      interval_cases i
      · simp [State.edgeAt, ha, dirWants]
      · simp [State.edgeAt, ha])
  exact ⟨[x, highBit p, highBit p, lowBit bit], hf, List.cons_ne_nil _ _, Trace.of_polled hf hw⟩

/-- The offending bit ends the byte loop at the poll that brings it (R146, R274). -/
theorem Receiving.breaks (h : Receiving done b pos [bit] rest s) (hd : done.length < 16) (ho : Offends pos bit)
    (n : Nat) :
    (byteLoop cfg (n + 1) s).hid.ferr = true ∧ ∃ vs, s.feed = vs ++ rest ∧ vs ≠ [] ∧
      Trace s (byteLoop cfg (n + 1) s) (vs.map Event.poll) := by
  obtain ⟨vs, hvs, hne, htr⟩ := h.wait_trace
  have hpos := h.wait.1.position
  rw [h.round hd, State.takeBit_offending (hpos ▸ ho), byteLoop_broken _ _ rfl]
  exact ⟨rfl, vs, hvs, hne, htr.of_eq rfl rfl rfl rfl⟩

/-- The byte loop on 0 to 15 well-framed bytes and then a broken frame takes exactly the answers up to the offending
poll (R146, R274). The offending bit's answers are still left before its wait, so all polls until then took given ones
(`Trace.polls_of_feed_left`). -/
theorem byteLoop_brokenWave {bytes : List (BitVec 8)} (hb : bytes.length ≤ 15) (hbad : violatesFrame bad)
    (hf : s.feed = brokenWave bytes bad ++ rest) :
    (byteLoop cfg byteRounds (startAcquisition cfg s).startBytes).hid.ferr = true ∧
      Trace s.opened (byteLoop cfg byteRounds (startAcquisition cfg s).startBytes)
        ((brokenWave bytes bad).map Event.poll) := by
  rw [brokenWave_eq] at hf
  obtain ⟨b, t, ht, hframes⟩ := (startAcquisition_receiving hf).frames bytes (by simpa using by omega)
  obtain ⟨b', pos, bit, u, n, ho, hu, hn, hbits⟩ := ht.offending (by simpa using by omega) hbad
  obtain ⟨hferr, vs, hvs, hne, hlast⟩ := hu.breaks (by simpa using by omega) ho (159 - n - 10 * bytes.length)
  have hrounds : byteRounds = (159 - n - 10 * bytes.length) + 1 + n + 10 * bytes.length := by
    show 160 = _; omega
  rw [hrounds, hframes, hbits]
  refine ⟨hferr, ?_⟩
  obtain ⟨ps, hstart, hps, -⟩ := waitEdge_trace .clk cfg.firstDir cfg.tFirst s.opened
  obtain ⟨qs, hloop, hqs, -⟩ := byteLoop_trace cfg (0 + n + 10 * bytes.length) (startAcquisition cfg s).startBytes
  rw [hframes, hbits] at hloop
  have hbefore : Trace s.opened u (ps ++ qs) :=
    (hstart.of_eq (t' := (startAcquisition cfg s).startBytes) rfl rfl rfl rfl).trans hloop
  obtain ⟨ws, hws, hfeed⟩ := hbefore.polls_of_feed_left
    (fun e he => (List.mem_append.1 he).elim (hps e) (hqs e)) (by rw [hvs]; simp [hne])
  rw [hvs, ← List.append_assoc] at hfeed
  have hwave := List.append_cancel_right (hfeed.symm.trans hf)
  rw [brokenWave_eq, ← hwave, List.map_append, ← hws]
  exact hbefore.trans hlast

end

/-- AcqByte on 0 to 15 well-framed bytes and then a broken frame (R146, R274). -/
theorem acqByte_brokenWave {bytes : List (BitVec 8)} {bad : List Bool} {rest : List Lines} {s : State}
    (hb : bytes.length ≤ 15) (hbad : violatesFrame bad) (hf : s.feed = brokenWave bytes bad ++ rest) :
    (acqByte cfg s).ferr = true ∧ Trace s (acqByte cfg s) ([.crit true, .trig true] ++
      (brokenWave bytes bad).map Event.poll ++ [.trig false, .crit false]) ∧ (acqByte cfg s).feed = rest := by
  obtain ⟨hferr, htr⟩ := byteLoop_brokenWave hb hbad hf
  have hrest := htr.feed_rest hf
  have hend : acqByte cfg s = _ := closeBytes_broken (s := State.endAcquisition _) hferr
  rw [hend]
  exact ⟨rfl, htr.bracket.of_eq rfl rfl rfl rfl, hrest⟩

/-- Settles O24: `acqByte_brokenWave`; a packet with FERR set is empty (`acqByte_packet`). -/
theorem framingViolationEmptiesThePacket : Obligations.FramingViolationEmptiesThePacket := by
  intro s bytes bad rest _ hb hbad hf
  obtain ⟨hferr, htr, hrest⟩ := acqByte_brokenWave hb hbad hf
  obtain ⟨-, -, -, -, -, hempty⟩ := acqByte_packet cfg s
  have htrig := acqByte_trig cfg s
  have hcrit := acqByte_crit cfg s
  refine ⟨(acqByte cfg s).reportAcquisition, exec_eq .acqb s, ?_⟩
  generalize acqByte cfg s = t at *
  obtain ⟨hlen, hpkt⟩ := hempty hferr
  obtain ⟨hok, hlasterr⟩ := reportAcquisition_of_kind (acqKind_framingError hferr)
  refine ⟨hrest, htr.reportAcquisition, hlen, fun i => ?_, hferr, hok, hlasterr, ?_, htrig, hcrit⟩
  · rw [State.reportAcquisition_pkt, hpkt, Memory.read_nil]
  · rw [State.reportAcquisition_result, hlen]; rfl

/-! #### READID, for any device -/

/-- IDVAL is the number of slots received beyond the length named (R173). -/
theorem readId_idval_toNat (len : Nat) {s : State} (h : (readId cfg len s).pktlen.toNat ≤ capSlots) :
    (readId cfg len s).idval.toNat = (readId cfg len s).pktlen.toNat - len := by
  have hcap : capSlots = 128 := rfl
  have hid : (readId cfg len s).idval = BitVec.ofNat 16 ((readId cfg len s).pktlen.toNat - len) :=
    readId_idval cfg len s
  rw [hid, BitVec.toNat_ofNat, Nat.mod_eq_of_lt (by omega)]

/-- ReadId does not write MODEL (R173). -/
theorem readId_model (c : Cfg) (len : Nat) (s : State) : (readId c len s).model = s.model := by
  have h := congrArg State.model (readId_frame c len s)
  exact h

/-- READID is ReadId under its report (R174). -/
theorem exec_readid (len : BitVec 8) (s : State) :
    exec (.readid len) s =
      .next (((readId cfg len.toNat s).setResult (readId cfg len.toNat s).idval).complete .noError) :=
  exec_eq _ s

/-- The report of READID writes RESULT, OK, ILL, REDET and LASTERR only (R174). -/
theorem report_except {s t : State} (h : t.exceptDetection = s.exceptDetection) (v : BitVec 16) (e : ErrKind) :
    ((t.setResult v).complete e).exceptDetection.exceptOutcome = s.exceptDetection.exceptOutcome :=
  calc ((t.setResult v).complete e).exceptDetection.exceptOutcome
    _ = t.exceptDetection.exceptOutcome := rfl
    _ = s.exceptDetection.exceptOutcome := by rw [h]

/-! #### READID on the standard waveform -/

/-- The toggles of ReadId add the events of the slots stored so far (R173). -/
theorem toggleTrig_trace (c : Cfg) (len : Nat) (s : State) :
    Trace s (toggleTrig c len s) (toggleEvents (c.idPos1 len) (c.idPos2 len) s.pktlen.toNat) := by
  have hlow : Trace s (if s.pktlen.toNat = c.idPos1 len then s.driveTrig false else s)
      (if s.pktlen.toNat = c.idPos1 len then [.trig false] else []) := by
    split
    · exact Trace.driveTrig s false
    · exact Trace.refl s
  refine hlow.trans ?_
  unfold toggleTrig
  dsimp only
  generalize (if s.pktlen.toNat = c.idPos1 len then s.driveTrig false else s) = t
  split
  · exact Trace.driveTrig t true
  · exact Trace.refl t

theorem toggleTrig_tmo (c : Cfg) (len : Nat) (s : State) : (toggleTrig c len s).tmo = s.tmo := by
  obtain ⟨l, es, h, -⟩ := toggleTrig_eq c len s
  rw [h]

/-- The events of ReadId's rounds for the slots after the first k, `u` the slot sampled before them: the answers of each
wait, and the toggles of the slot it brings (R173). -/
def sampleEvents (p1 p2 k : Nat) (u : Option Slot) (slots : List Slot) : List Event :=
  match slots with
  | [] => []
  | v :: rest =>
    (roundPolls u v).map Event.poll ++ toggleEvents p1 p2 (k + 1) ++ sampleEvents p1 p2 (k + 1) (some v) rest

/-- What the rounds leave of the waveform is the second poll of the last high phase, unless the packet is full. -/
theorem cons_slotEvents (p1 p2 : Nat) {k : Nat} (u : Slot) (slots : List Slot) (hk : k + slots.length ≤ capSlots) :
    (if k < capSlots then [Event.poll (highPhase u)] else []) ++ slotEvents p1 p2 k slots =
      sampleEvents p1 p2 k (some u) slots ++
        if k + slots.length < capSlots then [.poll (highPhase (slots.getLast?.getD u))] else [] := by
  induction slots generalizing k u with
  | nil => simp [slotEvents, sampleEvents]
  | cons v slots ih =>
    rw [List.length_cons] at hk
    have hlast : (v :: slots).getLast?.getD u = slots.getLast?.getD v := by
      rw [List.getLast?_cons]; rfl
    have hlen : k + (v :: slots).length = k + 1 + slots.length := by rw [List.length_cons]; omega
    rw [if_pos (by omega), slotEvents, sampleEvents, hlast, hlen, List.append_assoc (_ ++ _),
      List.append_assoc _ _ (ite _ _ _), ← ih v (by omega)]
    simp [roundPolls]

/-- The events of READID are the polls of the first wait, those of its rounds with the toggles, and for less than 128
slots the polls of the wait that runs out (R173). -/
theorem readEvents_eq (p1 p2 : Nat) (v : Slot) (slots : List Slot) (tail : Nat) (hle : (v :: slots).length ≤ capSlots) :
    readEvents p1 p2 (v :: slots) tail = [8, 8, lowPhase v].map Event.poll ++
      (sampleEvents p1 p2 0 none (v :: slots) ++
        if (v :: slots).length < capSlots then
          (List.replicate (tail + 1) (highPhase (slots.getLast?.getD v))).map Event.poll else []) := by
  rw [List.length_cons, Nat.add_comm] at hle
  have hlast : (v :: slots).getLast?.getD 0 = slots.getLast?.getD v := by
    rw [List.getLast?_cons]; rfl
  have hslots : slotEvents p1 p2 0 (v :: slots) =
      [lowPhase v, lowPhase v, highPhase v].map Event.poll ++ toggleEvents p1 p2 1 ++
        (sampleEvents p1 p2 1 (some v) slots ++
          if 1 + slots.length < capSlots then [.poll (highPhase (slots.getLast?.getD v))] else []) := by
    rw [slotEvents, List.append_assoc _ (ite _ _ _), cons_slotEvents p1 p2 v slots hle]; rfl
  rw [readEvents, hslots, hlast, List.length_cons, Nat.add_comm _ 1]
  split
  · simp [sampleEvents, roundPolls, List.replicate_succ]
  · simp [sampleEvents, roundPolls]

/-- The answer the last wait runs out on is the high phase of the last slot. -/
theorem takenWave_last {v y : Slot} {slots : List Slot} {tail : Nat} {pre : List Lines}
    (hlt : (v :: slots).length < capSlots)
    (hy : takenWave (v :: slots) (tail + 1) = pre ++ List.replicate (tail + 2) (highPhase y)) :
    y = slots.getLast?.getD v := by
  have hlast : (v :: slots).getLast?.getD 0 = slots.getLast?.getD v := by
    rw [List.getLast?_cons]; rfl
  have h := congrArg List.getLast? hy
  rw [takenWave, if_pos hlt, packetWave, hlast, List.replicate_succ', List.replicate_succ', ← List.append_assoc,
    ← List.append_assoc, List.getLast?_concat, List.getLast?_concat] at h
  have hdata := congrArg dataLines (Option.some.inj h)
  rw [dataLines_highPhase, dataLines_highPhase] at hdata
  exact hdata.symm

section
variable {keep : Slot} {done : List Slot} {s : State} {rest : List Lines}

theorem SlotsCaptured.hook {Q : Event → Bool} {after : State → State} (hk : Hook Q after)
    (h : SlotsCaptured keep done s) : SlotsCaptured keep done (after s) where
  len := by rw [hk.pktlen, h.len]
  slots i := by rw [hk.pkt, h.slots]
  ferr := by rw [hk.ferr, h.ferr]

/-- A round of ReadId stores the slot the device sends, and then toggles (R173). -/
theorem sampleLoop_toggle_round (len : Nat) {u : Option Slot} {v : Slot} (h : SlotsCaptured keep done s)
    (hd : done.length < 128) (ht : s.tmo ≠ 0) (hf : s.feed = roundPolls u v ++ rest) :
    ∃ t, SlotsCaptured keep (done ++ [v]) t ∧ t.tmo ≠ 0 ∧ t.feed = rest ∧
      Trace s t ((roundPolls u v).map Event.poll ++
        toggleEvents (cfg.idPos1 len) (cfg.idPos2 len) (done.length + 1)) ∧
      ∀ m, sampleLoop cfg keep (toggleTrig cfg len) (m + 1) s = sampleLoop cfg keep (toggleTrig cfg len) m t := by
  obtain ⟨hw, htr⟩ := waitEdge_roundPolls hf
  obtain ⟨vs, hvs⟩ := roundPolls_concat u v
  have hlast := Trace.lastin_concat (hvs ▸ htr)
  have hstored := (h.wait .clk cfg.sampleDir cfg.tNext).append hd v
  have htoggle := toggleTrig_trace cfg len ((waitEdge .clk cfg.sampleDir cfg.tNext s).appendSlot (v &&& keep))
  rw [hstored.len, List.length_append, List.length_singleton] at htoggle
  have hround := htr.of_eq (t' := (waitEdge .clk cfg.sampleDir cfg.tNext s).appendSlot (v &&& keep)) rfl rfl rfl rfl
  refine ⟨_, hstored.hook (Hook.toggle cfg len), ?_, ?_, hround.trans htoggle, fun m => ?_⟩
  · rw [toggleTrig_tmo]
    exact hw
  · obtain ⟨l, es, he, -⟩ := toggleTrig_eq cfg len ((waitEdge .clk cfg.sampleDir cfg.tNext s).appendSlot (v &&& keep))
    rw [he]
    exact hround.feed_rest hf
  · rw [sampleLoop_waits cfg _ m ht (by rw [h.len]; exact hd), if_neg hw, hlast, dataLines_highPhase]

/-- The rounds of ReadId store the slots one after the other, with their toggles (R173). -/
theorem sampleLoop_toggle_rounds (len : Nat) {u : Option Slot} (slots : List Slot) (h : SlotsCaptured keep done s)
    (hd : done.length + slots.length ≤ 128) (ht : s.tmo ≠ 0) (hf : s.feed = samplePolls u slots ++ rest) :
    ∃ t, SlotsCaptured keep (done ++ slots) t ∧ t.tmo ≠ 0 ∧ t.feed = rest ∧
      Trace s t (sampleEvents (cfg.idPos1 len) (cfg.idPos2 len) done.length u slots) ∧
      ∀ m, sampleLoop cfg keep (toggleTrig cfg len) (m + slots.length) s =
        sampleLoop cfg keep (toggleTrig cfg len) m t := by
  induction slots generalizing done u s with
  | nil => exact ⟨s, by simpa using h, ht, hf, Trace.refl s, fun _ => rfl⟩
  | cons v slots ih =>
    rw [List.length_cons] at hd
    rw [samplePolls, List.append_assoc] at hf
    obtain ⟨t, ht', htb, hfeed, htr, hloop⟩ := sampleLoop_toggle_round len h (by omega) ht hf
    obtain ⟨w, hw, hwb, hwfeed, hwr, hloop'⟩ := ih ht' (by simpa using by omega) htb hfeed
    refine ⟨w, by simpa using hw, hwb, hwfeed, ?_, fun m => ?_⟩
    · rw [List.length_append, List.length_singleton] at hwr
      exact htr.trans hwr
    · rw [List.length_cons, ← Nat.add_assoc, hloop, hloop']

/-- A clock that stays high gives a rising wait nothing (R113). -/
theorem waitEdge_high_tmo {y : Slot} (hf : s.feed = List.replicate (cfg.tNext.toNat + 1) (highPhase y) ++ rest) :
    (waitEdge .clk cfg.sampleDir cfg.tNext s).tmo = 0 := by
  have hw := waitEdge_none .clk cfg.sampleDir cfg.tNext s fun i hi he => by
    have ha (k : Nat) (hk : k < cfg.tNext.toNat + 1) := State.answer_of_feed hf (k := k) (by simpa using hk)
    have hne := he.1
    rw [ha i (by omega), ha (i + 1) (by omega), List.getElem_replicate, List.getElem_replicate] at hne
    exact hne rfl
  rw [hw]; rfl

/-- A round whose wait runs out stores nothing, so the hook does not run (R143, R173). -/
theorem sampleLoop_hook_irrelevant (c : Cfg) (after after' : State → State) (n : Nat)
    (hw : (waitEdge .clk c.sampleDir c.tNext s).tmo = 0) :
    sampleLoop c keep after (n + 1) s = sampleLoop c keep after' (n + 1) s := by
  simp only [sampleLoop, if_pos hw]

end

/-- ReadId's loop on the standard waveform of 1 to 128 slots: a full packet ends it, else the wait that runs out. -/
theorem sampleLoop_toggle_takenWave (keep : Slot) (len : Nat) {slots : List Slot} {rest : List Lines} {s : State}
    (hpos : 1 ≤ slots.length) (hle : slots.length ≤ 128) (hf : s.feed = takenWave slots cfg.tNext.toNat ++ rest) :
    ∃ t, sampleLoop cfg keep (toggleTrig cfg len) capSlots (startAcquisition cfg s) = t ∧
      SlotsCaptured keep slots t ∧ t.feed = rest ∧
      Trace s.opened t (readEvents (cfg.idPos1 len) (cfg.idPos2 len) slots cfg.tNext.toNat) := by
  obtain ⟨v, slots, rfl⟩ := List.exists_cons_of_length_pos hpos
  obtain ⟨y, hy⟩ := takenWave_eq v slots cfg.tNext.toNat
  rw [readEvents_eq _ _ v slots _ hle]
  rw [hy, List.append_assoc] at hf
  obtain ⟨h0, ht0, htr0⟩ := startAcquisition_wave keep hf
  have hf0 := htr0.feed_rest hf
  rw [List.append_assoc] at hf0
  obtain ⟨t, h, ht, hf1, htr, hloop⟩ := sampleLoop_toggle_rounds len (v :: slots) h0 (by simpa using hle) ht0 hf0
  have hrun := hloop (128 - (v :: slots).length)
  rw [Nat.sub_add_cancel hle] at hrun
  rw [List.nil_append] at h
  by_cases hlt : (v :: slots).length < 128
  · have hlast : y = slots.getLast?.getD v := by
      rw [if_pos hlt, ← List.append_assoc] at hy
      exact takenWave_last hlt hy
    rw [← hlast, if_pos hlt]
    rw [if_pos hlt] at hf1
    obtain ⟨hend, htr1⟩ := sampleLoop_runs_out (127 - (v :: slots).length) h ht hlt hf1
    rw [show 128 - (v :: slots).length = (127 - (v :: slots).length) + 1 by omega,
      sampleLoop_hook_irrelevant cfg _ id _ (waitEdge_high_tmo hf1)] at hrun
    exact ⟨_, hrun, hend, htr1.feed_rest hf1, htr0.trans (htr.trans htr1)⟩
  · rw [if_neg hlt] at hf1 ⊢
    have hfull : capSlots ≤ t.pktlen.toNat := h.len ▸ not_lt.1 hlt
    exact ⟨t, hrun.trans (sampleLoop_full cfg _ _ hfull), h, hf1, htr0.trans (htr.trans (Trace.refl t))⟩

/-- ReadId on the standard waveform of 1 to 128 slots (R173, R310). -/
theorem readId_takenWave (len : Nat) {slots : List Slot} {rest : List Lines} {s : State}
    (hpos : 1 ≤ slots.length) (hle : slots.length ≤ 128) (hf : s.feed = takenWave slots cfg.tNext.toNat ++ rest) :
    SlotsCaptured 0b111 slots (readId cfg len s) ∧ (readId cfg len s).feed = rest ∧
      Trace s (readId cfg len s) ([.crit true, .trig true] ++
        readEvents (cfg.idPos1 len) (cfg.idPos2 len) slots cfg.tNext.toNat ++ [.trig false, .crit false]) := by
  obtain ⟨t, hrun, h, hrest, htr⟩ := sampleLoop_toggle_takenWave 0b111 len hpos hle hf
  rw [readId, hrun]
  exact ⟨⟨h.len, h.slots, h.ferr⟩, hrest, htr.bracket.of_eq rfl rfl rfl rfl⟩

/-- All three data lines are kept (R145, R173). -/
theorem slot_and_allLines (v : Slot) : v &&& 0b111 = v := by
  revert v; decide

/-- Settles O27: ReadId's trace, packet and frame for any device, and `readId_takenWave` on the standard waveform. -/
theorem readidReturnsTheExtraLength : Obligations.ReadidReturnsTheExtraLength := by
  refine ⟨fun len s hh => ?_, fun len s slots rest _ hpos hle hf => ?_⟩
  · obtain ⟨ps, htr, hps, hpolls, -⟩ := readId_trace cfg len.toNat s
    obtain ⟨hlen, -, hbeyond, hferr, hhid⟩ := readId_packet cfg len.toNat s hh
    exact ⟨_, ps, exec_readid len s, (htr.setResult _).complete _, hps, hpolls, rfl, rfl, hhid, hferr, hlen, hbeyond,
      readId_idval_toNat len.toNat hlen, rfl, rfl, rfl, rfl, rfl,
      report_except (readId_exceptDetection cfg len.toNat s) _ _, readId_model cfg len.toNat s⟩
  · obtain ⟨h, hrest, htr⟩ := readId_takenWave len.toNat hpos hle hf
    have hid := readId_idval_toNat len.toNat (h.len.trans_le hle)
    rw [h.len] at hid
    exact ⟨_, exec_readid len s, hrest, (htr.setResult _).complete _, h.len,
      fun i => (h.slots i).trans (slot_and_allLines _), hid⟩

end Sys2Proof.Machine
end

section
/-! ### PROOFS of family `42_detection.md`: DETECT by the entry of LEN_TABLE, and INIT's first attempt

What Detect() does depends on the entry of LEN_TABLE alone: one equation where it is not ambiguous, one where it is.
DETECT is that under its report; INIT's first attempt is the acquisition of the standard waveform followed by that. -/

namespace Sys2Proof.Machine

/-! #### LEN_TABLE -/

/-- The entry of LEN_TABLE for a length that names `m` without a secondary read; Unknown is no entry (R171). -/
def entryOf (m : Model) : LenEntry := if m = .unknown then .noModel else .one m

/-- The models R176 names, length by length, are the entries of LEN_TABLE (R171). -/
theorem lenTable_eq_entryOf {n : BitVec 8} (h16 : n ≠ 16) (h48 : n ≠ 48) :
    cfg.lenTable n.toNat = entryOf (if n = 15 then .gamePad else if n = 22 ∨ n = 64 then .threeDPro
      else if n = 11 ∨ n = 33 then .forceFeedbackWheel else .unknown) := by
  by_cases h15 : n = 15
  · subst h15; rfl
  by_cases hpro : n = 22 ∨ n = 64
  · rcases hpro with rfl | rfl <;> rfl
  by_cases hwheel : n = 11 ∨ n = 33
  · rcases hwheel with rfl | rfl <;> rfl
  · have hnone : defaultLenTable n.toNat = .noModel := by
      unfold defaultLenTable
      rw [if_neg (by bv_omega), if_neg (by bv_omega), if_neg (by bv_omega), if_neg (by bv_omega)]
    rw [if_neg h15, if_neg hpro, if_neg hwheel]
    exact hnone

/-- A length that names one model is its entry of LEN_TABLE, and such a packet is neither empty nor full (R171). -/
theorem lenTable_of_mem_unambiguousLengths {n : Nat} {m : Model} (h : (n, m) ∈ unambiguousLengths) :
    m ≠ .unknown ∧ n < 128 ∧ 1 ≤ n ∧ cfg.lenTable n = entryOf m := by
  simp only [unambiguousLengths, List.mem_cons, Prod.mk.injEq, List.not_mem_nil, or_false] at h
  rcases h with ⟨rfl, rfl⟩ | ⟨rfl, rfl⟩ | ⟨rfl, rfl⟩ | ⟨rfl, rfl⟩ | ⟨rfl, rfl⟩ <;>
    exact ⟨by decide, by decide, by decide, rfl⟩

theorem lenTable_ambiguous {n : Nat} (h : n = 16 ∨ n = 48) :
    cfg.lenTable n = .ambiguous .precisionPro .forceFeedbackPro := by
  rcases h with rfl | rfl <;> rfl

/-! #### Detect() by the entry of LEN_TABLE -/

/-- A length that is not ambiguous is classified without a poll (R172). -/
theorem detectInto_of_entryOf {c : Cfg} {s : State} {m : Model} (h : c.lenTable s.pktlen.toNat = entryOf m) :
    detectInto c s = { s with model := m } := by
  unfold detectInto detectRead detectModel
  by_cases hm : m = .unknown
  · rw [entryOf, if_pos hm] at h
    rw [h, hm]
  · rw [entryOf, if_neg hm] at h
    rw [h]

/-- The secondary read of an ambiguous length: a cooldown, then ReadId of that length (R172). -/
abbrev secondRead (s : State) : State := readId cfg s.pktlen.toNat (coolDown cfg s)

/-- An ambiguous length is resolved by the secondary read's identifier (R172, R175). -/
theorem detectInto_of_ambiguous {s : State} (h : s.pktlen.toNat = 16 ∨ s.pktlen.toNat = 48) :
    detectInto cfg s = { secondRead s with
      model := if 14 ≤ (secondRead s).idval.toNat then .forceFeedbackPro else .precisionPro } := by
  have hread : detectRead cfg s = secondRead s := by rw [detectRead, lenTable_ambiguous h]
  have hmodel (id : BitVec 16) : detectModel cfg s.pktlen.toNat id =
      if 14 ≤ id.toNat then .forceFeedbackPro else .precisionPro := by
    rw [detectModel, lenTable_ambiguous h]
    exact if_congr decide_eq_true_iff rfl rfl
  rw [← hmodel, ← hread]
  rfl

/-- What the secondary read of an ambiguous length decides: the identifier, and by it a model (R172, R173, R175). -/
theorem detectInto_resolves {s : State} (hh : s.hid = Hidden.dead) (h : s.pktlen.toNat = 16 ∨ s.pktlen.toNat = 48) :
    (detectInto cfg s).idval.toNat = (detectInto cfg s).pktlen.toNat - s.pktlen.toNat ∧
      (detectInto cfg s).model =
        (if 14 ≤ (detectInto cfg s).idval.toNat then .forceFeedbackPro else .precisionPro) ∧
      (detectInto cfg s).trig = false ∧ (detectInto cfg s).crit = false := by
  obtain ⟨hlen, -⟩ := readId_packet cfg s.pktlen.toNat (coolDown cfg s) hh
  rw [detectInto_of_ambiguous h]
  exact ⟨readId_idval_toNat s.pktlen.toNat hlen, rfl, rfl, rfl⟩

/-- An ambiguous length always names a model (R172). -/
theorem detectInto_model_ne_unknown {s : State} (h : s.pktlen.toNat = 16 ∨ s.pktlen.toNat = 48) :
    (detectInto cfg s).model ≠ .unknown := by
  rw [detectInto_of_ambiguous h]
  show (if _ then _ else _) ≠ _
  split <;> decide

/-! #### DETECT -/

/-- DETECT is Detect() under its report (R176). -/
theorem exec_detect (s : State) :
    exec .detect s = .next (((detectInto cfg s).setResult ((modelCode (detectInto cfg s).model).setWidth 16)).complete
      (detectKind (detectInto cfg s))) := exec_eq .detect s

/-- Settles O28: the entry of the length in LEN_TABLE, under the report of R176. -/
theorem detectClassifiesByLength : Obligations.DetectClassifiesByLength := by
  intro s m h16 h48 hm
  rw [exec_detect, detectInto_of_entryOf (hm ▸ lenTable_eq_entryOf h16 h48)]
  clear hm
  cases m <;> rfl

/-- Settles O29: the trace, frame and identifier of the secondary read, under the report of R176. -/
theorem detectResolvesAmbiguousLengths : Obligations.DetectResolvesAmbiguousLengths := by
  intro s hh hl
  have hamb : s.pktlen.toNat = 16 ∨ s.pktlen.toNat = 48 := hl.imp (congrArg BitVec.toNat) (congrArg BitVec.toNat)
  obtain ⟨es, htr, hes⟩ := detectInto_trace cfg s
  rw [IsDetection, lenTable_ambiguous hamb] at hes
  obtain ⟨ps, rfl, hps, hpolls⟩ := hes
  obtain ⟨hid, hmodel, htrig, hcrit⟩ := detectInto_resolves hh hamb
  have hframe := detectInto_frame cfg s
  obtain ⟨-, herr, -⟩ := exceptDetection_fields hframe
  have hkind : detectKind (detectInto cfg s) = .noError := if_neg (detectInto_model_ne_unknown hamb)
  have hexec := exec_detect s
  rw [hkind] at hexec
  exact ⟨_, ps, hexec, (htr.setResult _).complete _, hps, hpolls, hid, hmodel, rfl, rfl, rfl, rfl, rfl, htrig, hcrit, herr,
    report_except hframe _ _⟩

/-! #### INIT's first attempt -/

/-- INIT is the first attempt of Init() with ERRCNT 0 (R242, R244). -/
theorem exec_init (s : State) : exec .init s = .next (initAttempt cfg .cmdInit s.enterInit) := exec_eq .init s

/-- INIT returns when its first attempt finds a model, whatever the device sent: ERRCNT is 0, both outputs are low, and all
outside the registers R244 lists is kept. -/
theorem init_of_detected {s x : State} (hh : s.hid = Hidden.dead) (hx : detectInto cfg (acquire cfg s.enterInit) = x)
    (hm : x.model ≠ .unknown) :
    exec .init s = .next (x.leaveInit .cmdInit) ∧ (x.leaveInit .cmdInit).errcnt = 0 ∧
      (x.leaveInit .cmdInit).joystick = s.joystick ∧ (x.leaveInit .cmdInit).trig = false ∧
      (x.leaveInit .cmdInit).crit = false ∧ (x.leaveInit .cmdInit).exceptInit = s.exceptInit := by
  have hend : initAttempt cfg .cmdInit s.enterInit = x.leaveInit .cmdInit := by
    rw [initAttempt, hx]
    exact if_neg hm
  rw [← hend]
  obtain ⟨hj, herr, -⟩ := initAttempt_keeps cfg .cmdInit s.enterInit
  obtain ⟨htrig, hcrit⟩ := initAttempt_outputs cfg .cmdInit s.enterInit hh
  exact ⟨exec_init s, herr, hj, htrig, hcrit, initAttempt_exceptInit cfg .cmdInit s.enterInit⟩

/-- Acquire() on the standard waveform of 1 to 127 slots (R143, R151). -/
theorem acquire_packetWave {slots : List Slot} {rest : List Lines} {s : State} (hpos : 1 ≤ slots.length)
    (hlt : slots.length < 128) (hf : s.feed = packetWave slots cfg.tNext.toNat ++ rest) :
    SlotsCaptured 0b111 slots (acquire cfg s) ∧ (acquire cfg s).feed = rest ∧
      Trace s (acquire cfg s) ([.delay cfg.cooldownUs, .crit true, .trig true] ++
        (packetWave slots cfg.tNext.toNat).map Event.poll ++ [.trig false, .crit false]) := by
  have htaken : takenWave slots cfg.tNext.toNat = packetWave slots cfg.tNext.toNat := if_pos hlt
  rw [← htaken] at hf ⊢
  obtain ⟨h, hrest, htr⟩ := acqSerial_takenWave (s := coolDown cfg s) 0b111 hpos hlt.le hf
  exact ⟨h, hrest, (Trace.coolDown cfg s).trans htr⟩

theorem acquire_idval (c : Cfg) (s : State) : (acquire c s).idval = s.idval := by
  have h := congrArg State.idval (acquire_frame c s)
  exact h

/-- The secondary read on the standard waveform of 1 to 128 slots: its packet, its identifier and its events (R172, R173). -/
theorem secondRead_takenWave {n : Nat} {slots : List Slot} {rest : List Lines} {s : State} (hn : s.pktlen.toNat = n)
    (hpos : 1 ≤ slots.length) (hle : slots.length ≤ 128) (hf : s.feed = takenWave slots cfg.tNext.toNat ++ rest) :
    SlotsCaptured 0b111 slots (secondRead s) ∧ (secondRead s).feed = rest ∧
      (secondRead s).idval.toNat = slots.length - n ∧
      Trace s (secondRead s) ([.delay cfg.cooldownUs, .crit true, .trig true] ++
        readEvents (cfg.idPos1 n) (cfg.idPos2 n) slots cfg.tNext.toNat ++ [.trig false, .crit false]) := by
  subst hn
  obtain ⟨h, hrest, htr⟩ := readId_takenWave (s := coolDown cfg s) s.pktlen.toNat hpos hle hf
  have hid := readId_idval_toNat s.pktlen.toNat (h.len.trans_le hle)
  rw [h.len] at hid
  exact ⟨h, hrest, hid, (Trace.coolDown cfg s).trans htr⟩

/-- Settles O41: the first attempt acquires the slots (`acquire_packetWave`); its length is classified at once, or by the
secondary read (`secondRead_takenWave`); INIT returns (`init_of_detected`). -/
theorem initDetectsAtTheFirstAttempt : Obligations.InitDetectsAtTheFirstAttempt := by
  refine fun s slots rest hh _ => ⟨fun m hmem hf => ?_, fun second hamb hpos hle hf => ?_⟩
  · obtain ⟨hm, hlt, hpos, hentry⟩ := lenTable_of_mem_unambiguousLengths hmem
    obtain ⟨ha, hrest, htr⟩ := acquire_packetWave (s := s.enterInit) hpos hlt hf
    have hdet := detectInto_of_entryOf (s := acquire cfg s.enterInit) (ha.len.symm ▸ hentry)
    obtain ⟨hexec, herr, hj, htrig, hcrit, hframe⟩ := init_of_detected hh hdet hm
    have htr' := htr.of_eq_left (s' := s) rfl rfl rfl rfl
    exact ⟨_, hexec, hrest, htr'.of_eq rfl rfl rfl rfl, rfl, rfl, rfl, herr, rfl, rfl, rfl, rfl, hj,
      acquire_idval cfg _, ha.len, fun i => (ha.slots i).trans (slot_and_allLines _), htrig, hcrit, hframe⟩
  · obtain ⟨ha, hwave, htr⟩ := acquire_packetWave (s := s.enterInit) (by omega) (by omega) hf
    have hamb' := ha.len.symm ▸ hamb
    obtain ⟨hb, hrest, hid, htr2⟩ := secondRead_takenWave ha.len hpos hle hwave
    have hdet := detectInto_of_ambiguous hamb'
    obtain ⟨hexec, herr, hj, htrig, hcrit, hframe⟩ :=
      init_of_detected hh hdet (hdet ▸ detectInto_model_ne_unknown hamb')
    have htr' := (htr.trans htr2).of_eq_left (s' := s) rfl rfl rfl rfl
    refine ⟨_, hexec, hrest, ?_, rfl, ?_, rfl, herr, rfl, rfl, rfl, rfl, hj, hid, hb.len,
      fun i => (hb.slots i).trans (slot_and_allLines _), htrig, hcrit, hframe⟩
    · simp only [List.append_assoc, List.cons_append, List.nil_append] at htr' ⊢
      exact htr'.of_eq rfl rfl rfl rfl
    · show (if 14 ≤ (secondRead _).idval.toNat then _ else _) = _
      rw [hid]
      exact if_congr (by omega) rfl rfl

end Sys2Proof.Machine
end

section
/-! ### PROOFS of family `43_decoders.md`: the scale, the integrity checks, and the fields each decoder commits

What a decoder does with each outcome of `decodePacket` is O35's; which outcome it is follows from the length and the
integrity bits. What is left of a DEC operation is its model's: what `integrity` asks and what `extract` gives. A flipped
bit changes the XOR parity of the bits it is one of, and exactly one nibble of the sum. -/

namespace Sys2Proof.Machine

/-! #### The scale -/

/-- The scale is the floor of x * 1023 / max (R198). -/
theorem scale_floor {max : Nat} (h : 1 ≤ max) (x : Nat) :
    scale x max * max ≤ x * 1023 ∧ x * 1023 < (scale x max + 1) * max :=
  ⟨Nat.div_mul_le_self _ _, by rw [Nat.mul_comm _ max]; exact Nat.lt_mul_div_succ _ h⟩

theorem scale_mono {x y : Nat} (h : x ≤ y) (max : Nat) : scale x max ≤ scale y max :=
  Nat.div_le_div_right (Nat.mul_le_mul_right 1023 h)

theorem scale_max {max : Nat} (h : 1 ≤ max) : scale max max = 1023 := Nat.mul_div_cancel_left 1023 h

/-- Settles O37: the laws of the scale, and the values R198 lists by evaluation. -/
theorem scaleIsTheLinearRescale : Obligations.ScaleIsTheLinearRescale := by
  refine ⟨fun max hpos hmax => ⟨by simp [scale], scale_max hpos, fun x hx => ?_, fun x y hxy _ => scale_mono hxy max⟩,
    fun x _ => Nat.mul_div_cancel x (by decide), by decide⟩
  exact ⟨scale_le hx, by omega, scale_floor hpos x⟩

/-! #### Parity -/

/-- Settles O38, by induction on the width: each further one flips both. -/
theorem evenParityIsXorParityZero : Obligations.EvenParityIsXorParityZero := by
  intro V W
  induction W with
  | zero => rfl
  | succ w ih =>
    rw [evenParity, beq_eq_decide] at ih ⊢
    rw [onesBelow, xorParity]
    cases V.getLsbD w with
    | false => rw [Bool.xor_false, ← ih]; rfl
    | true =>
      rw [Bool.xor_true, ← ih, ← decide_not]
      exact decide_eq_decide.2 (by rw [Bool.toNat_true]; omega)

/-! #### A flipped bit -/

/-- The flipping mask `1 <<< i` is a number cast to 64 bits, so it has a bit only for i below 64 (R220). -/
theorem getLsbD_flip (v : BitVec 64) {i : Nat} (hi : i < 64) (j : Nat) :
    (v ^^^ (1 <<< i)).getLsbD j = xor (v.getLsbD j) (decide (i = j)) := by
  rw [BitVec.getLsbD_xor, BitVec.natCast_eq_ofNat, BitVec.getLsbD_ofNat, Nat.one_shiftLeft, Nat.testBit_two_pow]
  congr 1
  by_cases hj : i = j
  · simp [← hj, hi]
  · simp [hj]

/-- A flip changes the XOR parity of the bits it is one of, and no other. -/
theorem xorParity_flip (v : BitVec 64) {i : Nat} (hi : i < 64) (w : Nat) :
    xorParity (v ^^^ (1 <<< i)) w = xor (xorParity v w) (decide (i < w)) := by
  induction w with
  | zero => rfl
  | succ w ih =>
    have hlt : decide (i < w + 1) = xor (decide (i < w)) (decide (i = w)) := by
      rcases Nat.lt_trichotomy i w with h | h | h
      · simp [h, h.ne, Nat.lt_succ_of_lt h]
      · simp [h]
      · simp [show ¬ i < w by omega, h.ne', show ¬ i < w + 1 by omega]
    rw [xorParity, xorParity, ih, getLsbD_flip v hi, hlt]
    rw [Bool.xor_assoc, Bool.xor_assoc, Bool.xor_left_comm (decide _)]

theorem evenParity_flip (v : BitVec 64) {i w : Nat} (hi : i < 64) (hw : i < w) :
    evenParity (v ^^^ (1 <<< i)) w = !evenParity v w := by
  rw [evenParityIsXorParityZero, evenParityIsXorParityZero, xorParity_flip v hi, decide_eq_true hw, Bool.xor_true]

theorem testBit_getBits (v : BitVec 64) (p n j : Nat) :
    (getBits v p n).testBit j = (decide (j < n) && v.getLsbD (p + j)) := by
  rw [getBits, Nat.testBit_mod_two_pow, Nat.testBit_div_two_pow, Nat.add_comm]
  rfl

/-- Two fields agree exactly when their bits do (R193). -/
theorem getBits_eq_iff {v u : BitVec 64} {p n : Nat} :
    getBits v p n = getBits u p n ↔ ∀ j < n, v.getLsbD (p + j) = u.getLsbD (p + j) := by
  refine ⟨fun h j hj => ?_, fun h => Nat.eq_of_testBit_eq fun j => ?_⟩
  · have hb := congrArg (Nat.testBit · j) h
    simpa only [testBit_getBits, decide_eq_true hj, Bool.true_and] using hb
  · rw [testBit_getBits, testBit_getBits]
    by_cases hj : j < n
    · rw [h j hj]
    · rw [decide_eq_false hj, Bool.false_and, Bool.false_and]

/-- A flip changes the field it stands in, and no other. -/
theorem getBits_flip_eq_iff (v : BitVec 64) {i : Nat} (hi : i < 64) (p n : Nat) :
    getBits (v ^^^ (1 <<< i)) p n = getBits v p n ↔ ¬ (p ≤ i ∧ i < p + n) := by
  rw [getBits_eq_iff]
  have hbit (b : Bool) (j : Nat) : xor b (decide (i = p + j)) = b ↔ i ≠ p + j := by cases b <;> simp
  simp only [getLsbD_flip v hi, hbit]
  exact ⟨fun h ⟨hp, hn⟩ => h (i - p) (by omega) (by omega), fun h j hj => by omega⟩

theorem nibbleTotal_flip_above (v : BitVec 64) {i n : Nat} (hi : i < 64) (hn : 4 * n ≤ i) :
    nibbleTotal (v ^^^ (1 <<< i)) n = nibbleTotal v n := by
  induction n with
  | zero => rfl
  | succ n ih =>
    rw [nibbleTotal, nibbleTotal, ih (by omega), (getBits_flip_eq_iff v hi (4 * n) 4).2 (by omega)]

/-- A flip changes one nibble of the sum, so the sum modulo 16 (R197). -/
theorem nibbleTotal_flip_ne (v : BitVec 64) {i n : Nat} (hi : i < 64) (hn : i < 4 * n) :
    nibbleTotal (v ^^^ (1 <<< i)) n % 16 ≠ nibbleTotal v n % 16 := by
  induction n with
  | zero => omega
  | succ n ih =>
    rw [nibbleTotal, nibbleTotal]
    have hflip := getBits_flip_eq_iff v hi (4 * n) 4
    by_cases hlow : i < 4 * n
    · rw [hflip.2 (by omega)]
      have := ih hlow
      omega
    · rw [nibbleTotal_flip_above v hi (by omega)]
      have hne : getBits (v ^^^ (1 <<< i)) (4 * n) 4 ≠ getBits v (4 * n) 4 := fun h => hflip.1 h (by omega)
      have hlt (u : BitVec 64) : getBits u (4 * n) 4 < 16 := Nat.mod_lt _ (by decide)
      have h1 := hlt (v ^^^ (1 <<< i))
      have h2 := hlt v
      omega

/-! #### What each model's integrity check asks -/

theorem integrity_gamePad (v : BitVec 64) : integrity cfg .gamePad v = !xorParity v 15 := beq_false _

theorem integrity_threeDPro (v : BitVec 64) :
    integrity cfg .threeDPro v = true ↔ v &&& 0x8080808080808080 = 0x80 ∧ nibbleSum v = 0 := by
  rw [integrity, Bool.and_eq_true, beq_iff_eq, syncCheck, beq_iff_eq]
  rfl

/-- The models whose check is an even number of ones (R209, R211, R214; PAR_EVEN is log 9's). -/
abbrev CountsOnes (m : Model) : Prop := m = .precisionPro ∨ m = .forceFeedbackPro ∨ m = .forceFeedbackWheel

theorem integrity_of_countsOnes {m : Model} (h : CountsOnes m) (v : BitVec 64) :
    integrity cfg m v = evenParity v (cfg.layout m).width := by
  rcases h with rfl | rfl | rfl <;> exact beq_true _

theorem CountsOnes.ne_unknown {m : Model} (h : CountsOnes m) : m ≠ .unknown := by
  rcases h with rfl | rfl | rfl <;> decide

theorem integrity_iff_of_countsOnes {m : Model} (h : CountsOnes m) (v : BitVec 64) :
    integrity cfg m v = true ↔ onesBelow v (cfg.layout m).width % 2 = 0 := by
  rw [integrity_of_countsOnes h, evenParity, beq_iff_eq]

/-- No content is wider than the assembled value (R191). -/
theorem cfg_width_le (m : Model) : (cfg.layout m).width ≤ 64 := by cases m <;> decide

/-- Settles O40: a flip changes the parity, or the nibble sum of ThreeDPro. -/
theorem singleBitFlipIsDetected : Obligations.SingleBitFlipIsDetected := by
  intro m V i hm hw hV
  have hi : i < 64 := hw.trans_le (cfg_width_le m)
  have counted (hc : CountsOnes m) : integrity cfg m (V ^^^ (1 <<< i)) = false := by
    rw [integrity_of_countsOnes hc] at hV ⊢
    rw [evenParity_flip V hi hw, hV, Bool.not_true]
  cases m with
  | unknown => exact absurd rfl hm
  | gamePad =>
    rw [integrity_gamePad] at hV ⊢
    rw [xorParity_flip V hi, decide_eq_true (show i < 15 from hw), Bool.xor_true, hV, Bool.not_true]
  | threeDPro =>
    obtain ⟨-, hsum⟩ := (integrity_threeDPro V).1 hV
    refine Bool.eq_false_iff.2 fun h => ?_
    obtain ⟨-, hsum'⟩ := (integrity_threeDPro _).1 h
    exact nibbleTotal_flip_ne V (n := 16) hi hw (hsum'.trans hsum.symm)
  | precisionPro => exact counted (Or.inl rfl)
  | forceFeedbackPro => exact counted (Or.inr (Or.inl rfl))
  | forceFeedbackWheel => exact counted (Or.inr (Or.inr rfl))

/-! #### The outcomes of Decode(m) that are errors -/

section
variable {c : Cfg} {m : Model} {pkt : Packet} {len bps : Nat}

/-- A length of the model and bad integrity bits: an IntegrityError (R191). -/
theorem decodePacket_of_not_integrity (hm : m ≠ .unknown) (hb : bitsPerSlot (c.layout m) len = some bps)
    (hi : ¬ integrity c m (lowBits (c.layout m).width (assemble pkt bps len)) = true) :
    decodePacket c m pkt len = .error .integrityError := by
  unfold decodePacket
  rw [if_neg hm, hb]
  exact if_neg hi

/-- A length that is not the model's: a LengthMismatch (R191). -/
theorem decodePacket_of_bitsPerSlot_none (hb : bitsPerSlot (c.layout m) len = none) :
    decodePacket c m pkt len = .error .lengthMismatch := by
  unfold decodePacket
  split
  · rfl
  · rw [hb]

theorem decodePacket_unknown : decodePacket c .unknown pkt len = .error .lengthMismatch := if_pos rfl

end

/-! #### The lengths of a model -/

theorem bitsPerSlot_of_bitsFor {l : Layout} {n k bps : Nat} {s : State} (h : bitsFor n k s bps) (h1 : l.len1 = n)
    (h3 : l.len3 = some k) (hne : k ≠ n) : bitsPerSlot l s.pktlen.toNat = some bps := by
  rcases h with ⟨hlen, rfl⟩ | ⟨hlen, rfl⟩
  · exact if_pos (hlen.trans h1.symm)
  · rw [bitsPerSlot, if_neg (by rwa [hlen, h1]), if_pos (by rw [hlen, h3])]

theorem bitsPerSlot_none {l : Layout} {len : Nat} (h1 : len ≠ l.len1) (h3 : l.len3 ≠ some len) :
    bitsPerSlot l len = none := by rw [bitsPerSlot, if_neg h1, if_neg h3]

theorem toNat_ne_of_ne {len n : BitVec 8} (h : len ≠ n) : len.toNat ≠ n.toNat := fun e => h (BitVec.eq_of_toNat_eq e)

theorem bitsPerSlot_none_of_ne {l : Layout} {len n k : BitVec 8} (h1 : l.len1 = n.toNat) (h3 : l.len3 = some k.toNat)
    (hn : len ≠ n) (hk : len ≠ k) : bitsPerSlot l len.toNat = none :=
  bitsPerSlot_none (h1 ▸ toNat_ne_of_ne hn) (h3 ▸ fun e => toNat_ne_of_ne hk (Option.some.inj e).symm)

/-! #### The fields -/

theorem gather_one (v : BitVec 64) (p : Piece) : gather v [p] = getBits v p.pos p.len := rfl

theorem gather_two (v : BitVec 64) {p q lp lq b : Nat} (hb : 2 ^ lp = b) :
    gather v [⟨p, lp⟩, ⟨q, lq⟩] = getBits v q lq * b + getBits v p lp := by
  rw [gather, gather_one, hb, Nat.mul_comm, Nat.add_comm]

/-- The axis registers, one by one (R201). -/
theorem axisFile_eq {v : BitVec 64} {fs : List AxisField} {g : Fin 16 → BitVec 10}
    (h : ∀ i : Fin 16, BitVec.ofNat 10 ((fs.map (axisValue v)).getD i.val 0) = g i) : axisFile v fs = Vector.ofFn g :=
  congrArg Vector.ofFn (funext h)

/-- A raw hat of four bits: 9 to 15 read as centred (R199). -/
theorem hatValue_some (v : BitVec 64) {ps : List Piece} (h : fieldWidth ps = 4) :
    hatValue cfg v (some ps) = if gather v ps ≤ 8 then BitVec.ofNat 4 (gather v ps) else 0 := by
  have hlt : gather v ps < 2 ^ 4 := h ▸ gather_lt v ps
  show defaultHatRemap _ = _
  rw [defaultHatRemap, BitVec.toNat_ofNat, Nat.mod_eq_of_lt hlt]

/-- The fields of GamePad (R203, R204). -/
theorem extract_gamePad (V : BitVec 64) : extract cfg .gamePad V =
    { axis := Vector.ofFn fun i =>
        if i = 0 then BitVec.ofNat 10 (scale (1 + getBits V 1 1 - getBits V 0 1) 2)
        else if i = 1 then BitVec.ofNat 10 (scale (1 + getBits V 3 1 - getBits V 2 1) 2) else 0
      hat := 0
      buttons := ~~~(BitVec.ofNat 16 (getBits V 4 10)) &&& 0x3FF } := by
  rw [extract, Joystick.mk.injEq]
  refine ⟨axisFile_eq fun i => ?_, rfl, rfl⟩
  fin_cases i <;> rfl

/-- The fields of ThreeDPro (R205, R207). -/
theorem extract_threeDPro (V : BitVec 64) : extract cfg .threeDPro V =
    { axis := Vector.ofFn fun i =>
        if i = 0 then BitVec.ofNat 10 (scale (getBits V 3 3 * 128 + getBits V 16 7) 1023)
        else if i = 1 then BitVec.ofNat 10 (scale (getBits V 0 3 * 128 + getBits V 24 7) 1023)
        else if i = 2 then BitVec.ofNat 10 (scale (getBits V 35 2 * 128 + getBits V 40 7) 511)
        else if i = 3 then BitVec.ofNat 10 (scale (getBits V 32 3 * 128 + getBits V 48 7) 1023) else 0
      hat := if getBits V 6 1 * 8 + getBits V 60 3 ≤ 8 then BitVec.ofNat 4 (getBits V 6 1 * 8 + getBits V 60 3) else 0
      buttons := ~~~(BitVec.ofNat 16 (getBits V 38 1 * 128 + getBits V 8 7)) &&& 0xFF } := by
  have hat := gather_two V (p := 60) (q := 6) (lq := 1) (b := 8) (lp := 3) rfl
  have seven {p q lq : Nat} := gather_two V (p := p) (q := q) (lq := lq) (b := 128) (lp := 7) rfl
  simp only [← hat, ← seven]
  rw [extract, Joystick.mk.injEq]
  refine ⟨axisFile_eq fun i => ?_, hatValue_some V rfl, rfl⟩
  fin_cases i <;> rfl

/-- The fields of PrecisionPro and ForceFeedbackPro (R208, R210, R212). -/
theorem extract_precisionPro (V : BitVec 64) : extract cfg .precisionPro V =
    { axis := Vector.ofFn fun k =>
        if k = 0 then BitVec.ofNat 10 (scale (getBits V 9 10) 1023)
        else if k = 1 then BitVec.ofNat 10 (scale (getBits V 19 10) 1023)
        else if k = 2 then BitVec.ofNat 10 (scale (getBits V 36 6) 63)
        else if k = 3 then BitVec.ofNat 10 (scale (getBits V 29 7) 127) else 0
      hat := if getBits V 42 4 ≤ 8 then BitVec.ofNat 4 (getBits V 42 4) else 0
      buttons := ~~~(BitVec.ofNat 16 (getBits V 0 9)) &&& 0x1FF } := by
  rw [extract, Joystick.mk.injEq]
  refine ⟨axisFile_eq fun i => ?_, hatValue_some V rfl, rfl⟩
  fin_cases i <;> rfl

/-- The fields of ForceFeedbackWheel (R213, R215). -/
theorem extract_forceFeedbackWheel (V : BitVec 64) : extract cfg .forceFeedbackWheel V =
    { axis := Vector.ofFn fun i =>
        if i = 0 then BitVec.ofNat 10 (scale (getBits V 0 10) 1023)
        else if i = 1 then BitVec.ofNat 10 (scale (getBits V 10 6) 63)
        else if i = 2 then BitVec.ofNat 10 (scale (getBits V 16 6) 63) else 0
      hat := 0
      buttons := ~~~(BitVec.ofNat 16 (getBits V 22 8)) &&& 0xFF } := by
  rw [extract, Joystick.mk.injEq]
  refine ⟨axisFile_eq fun i => ?_, rfl, rfl⟩
  fin_cases i <;> rfl

/-! #### The statements -/

/-- The operations that decode, each with the model it decodes for (R202). -/
abbrev DecodesFor (s : State) (i : Instr) (m : Model) : Prop :=
  (i, m) ∈ [(Instr.decode, s.model), (.decGp, .gamePad), (.dec3dp, .threeDPro), (.decPp, .precisionPro),
    (.decFfp, .forceFeedbackPro), (.decFfw, .forceFeedbackWheel)]

theorem exec_of_decodePacket_error {s : State} {i : Instr} {m : Model} {e : ErrKind} (h : DecodesFor s i m)
    (he : decodePacket cfg m s.pkt s.pktlen.toNat = .error e) :
    exec i s = .next { s with result := 0, ok := false, ill := false, redet := false, lasterr := e } :=
  ((decodeCommitsOrLeavesTheJoystick i m s h).2 e he).2

/-- A DEC operation on a packet of its model's length, with the fields `j` that the model extracts (R191). -/
theorem exec_decoder {i : Instr} {m : Model} {s : State} {bps : Nat} {V : BitVec 64} {j : Joystick}
    (h : DecodesFor s i m) (hm : m ≠ .unknown)
    (hV : V = lowBits (cfg.layout m).width (assemble s.pkt bps s.pktlen.toNat)) (hj : extract cfg m V = j)
    (hb : bitsPerSlot (cfg.layout m) s.pktlen.toNat = some bps) :
    (integrity cfg m V = true → exec i s = .next
      { s with
        axis := j.axis, hat := j.hat, buttons := j.buttons, valid := true
        result := 1, ok := true, ill := false, redet := false, lasterr := .noError }) ∧
    (¬ integrity cfg m V = true → exec i s = .next
      { s with result := 0, ok := false, ill := false, redet := false, lasterr := .integrityError }) := by
  subst hV hj
  obtain ⟨commits, -⟩ := decodeCommitsOrLeavesTheJoystick i m s h
  exact ⟨fun hi => (commits _ (decodePacket_of_integrity hm hb hi)).2,
    fun hi => exec_of_decodePacket_error h (decodePacket_of_not_integrity hm hb hi)⟩

/-- Settles O30: `extract_gamePad`, at the one length of GamePad. -/
theorem decGpExtractsTheGamePadFields : Obligations.DecGpExtractsTheGamePadFields := by
  intro s V hV
  have hdec : DecodesFor s .decGp .gamePad := by simp
  refine and_assoc.1 ⟨?_, fun hlen => exec_of_decodePacket_error hdec
    (decodePacket_of_bitsPerSlot_none (bitsPerSlot_none (toNat_ne_of_ne hlen) nofun))⟩
  by_cases hlen : s.pktlen = 15
  · obtain ⟨commits, integrityError⟩ := exec_decoder (bps := 1) hdec (by decide) (by rw [hlen]; exact hV)
      (extract_gamePad V) (by rw [hlen]; rfl)
    rw [integrity_gamePad, Bool.not_eq_true'] at commits integrityError
    exact ⟨fun _ => commits, fun _ hpar => integrityError (by rw [hpar]; decide)⟩
  · exact ⟨fun h => absurd h hlen, fun h => absurd h hlen⟩

/-- Settles O31: `extract_threeDPro`, under `integrity_threeDPro`. -/
theorem dec3dpExtractsTheThreeDProFields : Obligations.Dec3dpExtractsTheThreeDProFields := by
  intro s bps V hV
  have hdec : DecodesFor s .dec3dp .threeDPro := by simp
  have outcomes (hb : bitsFor 64 22 s bps) := exec_decoder hdec (by decide) hV (extract_threeDPro V)
    (bitsPerSlot_of_bitsFor hb rfl rfl (by decide))
  rw [integrity_threeDPro] at outcomes
  exact ⟨fun hb hsync hsum => (outcomes hb).1 ⟨hsync, hsum⟩, fun hb => (outcomes hb).2,
    fun h64 h22 => exec_of_decodePacket_error hdec
      (decodePacket_of_bitsPerSlot_none (bitsPerSlot_none_of_ne rfl rfl h64 h22))⟩

/-- Settles O32: `extract_precisionPro` for both models, under the parity of the 48 bits. -/
theorem decPpAndFfpExtractTheirFields : Obligations.DecPpAndFfpExtractTheirFields := by
  intro i s bps V hi hV
  obtain ⟨m, hdec, hm, hl, hj⟩ : ∃ m, DecodesFor s i m ∧ CountsOnes m ∧
      cfg.layout m = precisionProLayout ∧ extract cfg m V = extract cfg .precisionPro V := by
    rcases hi with rfl | rfl
    · exact ⟨.precisionPro, by simp, Or.inl rfl, rfl, rfl⟩
    · exact ⟨.forceFeedbackPro, by simp, Or.inr (Or.inl rfl), rfl, rfl⟩
  have outcomes (hb : bitsFor 48 16 s bps) := exec_decoder (V := V) hdec hm.ne_unknown (by rw [hl]; exact hV)
    (hj.trans (extract_precisionPro V))
    (bitsPerSlot_of_bitsFor hb (congrArg Layout.len1 hl) (congrArg Layout.len3 hl) (by decide))
  rw [integrity_iff_of_countsOnes hm, hl] at outcomes
  exact ⟨fun hb => (outcomes hb).1, fun hb hpar => (outcomes hb).2 (hpar.trans_ne (by decide)),
    fun h48 h16 => exec_of_decodePacket_error hdec
      (decodePacket_of_bitsPerSlot_none (hl ▸ bitsPerSlot_none_of_ne rfl rfl h48 h16))⟩

/-- Settles O33: `extract_forceFeedbackWheel`, under the parity of the 33 bits. -/
theorem decFfwExtractsTheWheelFields : Obligations.DecFfwExtractsTheWheelFields := by
  intro s bps V hV
  have hdec : DecodesFor s .decFfw .forceFeedbackWheel := by simp
  have hm : CountsOnes .forceFeedbackWheel := Or.inr (Or.inr rfl)
  have outcomes (hb : bitsFor 33 11 s bps) := exec_decoder hdec hm.ne_unknown hV (extract_forceFeedbackWheel V)
    (bitsPerSlot_of_bitsFor hb rfl rfl (by decide))
  rw [integrity_iff_of_countsOnes hm] at outcomes
  exact ⟨fun hb => (outcomes hb).1, fun hb hpar => (outcomes hb).2 (hpar.trans_ne (by decide)),
    fun h33 h11 => exec_of_decodePacket_error hdec
      (decodePacket_of_bitsPerSlot_none (bitsPerSlot_none_of_ne rfl rfl h33 h11))⟩

/-- Settles O34: DECODE is `decodeWith` for the cached model, and so is that model's DEC operation. -/
theorem decodeFollowsTheCachedModel : Obligations.DecodeFollowsTheCachedModel := by
  refine fun s => ⟨fun hm => ?_, fun i him => ⟨_, exec_eq .decode s, ?_⟩⟩
  · have hdec : DecodesFor s .decode s.model := by simp
    exact exec_of_decodePacket_error hdec (hm ▸ decodePacket_unknown)
  · rw [opIn, opDecode]
    simp only [List.mem_cons, List.not_mem_nil, or_false, Prod.mk.injEq] at him
    rcases him with ⟨hm, rfl⟩ | ⟨hm, rfl⟩ | ⟨hm, rfl⟩ | ⟨hm, rfl⟩ | ⟨hm, rfl⟩ <;> rw [hm] <;> exact exec_eq _ s

theorem hatnibWord_eq_encode (nib : BitVec 4) : 0xF0000000 ||| nib.setWidth 32 = encode (.hatnib nib) := by
  revert nib; decide

/-- Settles O36: the word is HATNIB's encoding; the table's entry is widened into RESULT. -/
theorem hatnibLooksUpTheTable : Obligations.HatnibLooksUpTheTable := by
  intro nib s
  refine ⟨hatnibWord_eq_encode nib ▸ decode_encode (.hatnib nib) trivial, ?_⟩
  have htable : (cfg.hatnibTable nib).setWidth 16 = if nib = 3 then 7 else if nib = 5 then 6 else 0 := by
    show (defaultHatnib nib).setWidth 16 = _
    unfold defaultHatnib
    split_ifs <;> rfl
  rw [exec_eq, ← htable]
  rfl

end Sys2Proof.Machine
end

section
/-! ### PROOFS of family `44_policy.md`: Init(), UPDATE on a silent and on a sending device, WRSLOT and SETLEN

A silent acquisition is one equation (`acquire_silent`), and so is a cycle of UPDATE by the packet it leaves. An attempt of
Init() either returns to its caller with that caller's report (`ReturnsTo`) or ends at the loop head, decided by the entry of
LEN_TABLE; the rounds of a silent device are an induction over what such a round keeps (`Looping`). -/

namespace Sys2Proof.Machine

/-! #### A device that stays silent -/

/-- Polls of given answers as a whole: they are used up, the last one is latched, each is recorded (R13, R111). -/
theorem State.polled_of_feed {s : State} {vs rest : List Lines} {v : Lines} (hf : s.feed = vs ++ [v] ++ rest) :
    s.polled (vs.length + 1) =
      { s with feed := rest, lastin := v, evt := s.evt ++ (vs ++ [v]).map Event.poll } := by
  have hlen : (vs ++ [v]).length = vs.length + 1 := List.length_append
  have hanswers : s.answers (vs.length + 1) = vs ++ [v] := hlen ▸ State.answers_of_feed hf
  have hlast : s.answer vs.length = v := by
    rw [State.answer_of_feed hf (by omega)]; simp
  have hrest : s.feed.drop (vs.length + 1) = rest := by rw [hf, ← hlen, List.drop_left]
  have hdraws : s.draws + (vs.length + 1 - s.feed.length) = s.draws := by
    rw [hf, List.length_append, hlen]; omega
  simp only [State.polled, State.skipAnswers, hanswers, hrest, hdraws, Nat.add_sub_cancel, hlast,
    if_neg (Nat.succ_ne_zero _)]

/-- A wait on answers that never change takes its whole budget (R113). -/
theorem waitEdge_silent (l : Line) (d : Dir) (n : Timeout) {s : State} {v : Lines} {rest : List Lines}
    (hf : s.feed = List.replicate (1 + n.toNat) v ++ rest) :
    waitEdge l d n s =
      { s with
        tmo := 0, feed := rest, lastin := v, hid := { s.hid with last := false }
        evt := s.evt ++ List.replicate (1 + n.toNat) (.poll v) } := by
  have hsplit : List.replicate (1 + n.toNat) v = List.replicate n.toNat v ++ [v] := by
    rw [Nat.add_comm, List.replicate_succ']
  have hnone : ∀ i < n.toNat, ¬ s.edgeAt l d i := fun i hi he => by
    have ha (k : Nat) (hk : k < 1 + n.toNat) : s.answer k = v := by
      rw [State.answer_of_feed hf (by rwa [List.length_replicate]), List.getElem_replicate]
    obtain ⟨hchange, -⟩ := he
    rw [ha i (by omega), ha (i + 1) (by omega)] at hchange
    exact hchange rfl
  have hpolled := State.polled_of_feed (hsplit ▸ hf)
  rw [← hsplit, List.length_replicate, List.map_replicate] at hpolled
  rw [waitEdge_none l d n s hnone, hpolled]
  rfl

/-- A wait that ran out ends the sampling loop with no further wait (R143). -/
theorem sampleLoop_timed_out (c : Cfg) (keep : Slot) (after : State → State) (n : Nat) {s : State} (h : s.tmo = 0) :
    sampleLoop c keep after n s = s := by
  cases n with
  | zero => rfl
  | succ n => exact if_pos (Or.inl h)

/-- The events of Acquire() on a device that answers `v` throughout: the first clock wait runs out (R143, R151, R273). -/
def silentEvents (c : Cfg) (v : Lines) : List Event :=
  [.delay c.cooldownUs, .crit true, .trig true] ++ List.replicate (1 + c.tFirst.toNat) (.poll v) ++
    [.trig false, .crit false]

/-- The state after those events: an empty packet, both outputs low, the answers behind the silence left. -/
def State.silenced (c : Cfg) (v : Lines) (rest : List Lines) (s : State) : State :=
  { s with
    trig := false, crit := false, lastin := v, pkt := [], pktlen := 0, ferr := false, tmo := 0, feed := rest
    evt := s.evt ++ silentEvents c v }

theorem acqSerial_silent (c : Cfg) (keep : Slot) {s : State} {v : Lines} {rest : List Lines}
    (hh : s.hid = Hidden.dead) (hf : s.feed = List.replicate (1 + c.tFirst.toNat) v ++ rest) :
    acqSerial c keep (coolDown c s) = s.silenced c v rest := by
  have hwait := waitEdge_silent .clk c.firstDir c.tFirst (s := (coolDown c s).opened) hf
  have hstart : startAcquisition c (coolDown c s) = _ := hwait
  have hlast : ({ s.hid with last := false } : Hidden) = s.hid := by rw [hh]
  have hevt : s.evt ++ [.delay c.cooldownUs] ++ [.crit true] ++ [.trig true] ++
      List.replicate (1 + c.tFirst.toNat) (.poll v) ++ [.trig false] ++ [.crit false] = s.evt ++ silentEvents c v := by
    simp [silentEvents]
  rw [acqSerial, hstart, sampleLoop_timed_out _ _ _ _ rfl, State.silenced, ← hevt, ← hlast]
  rfl

/-- The machine's Acquire() on a device that stays silent (R143, R151). -/
theorem acquire_silent {s : State} {v : Lines} {rest : List Lines} (hh : s.hid = Hidden.dead)
    (hf : s.feed = List.replicate (1 + cfg.tFirst.toNat) v ++ rest) :
    acquire cfg s = s.silenced cfg v rest := acqSerial_silent cfg 0b111 hh hf

/-! #### A cycle of UPDATE whose packet is known -/

/-- A cycle is the accounting of what its acquisition leaves (R245). -/
theorem updateCycle_eq_account {c : Cfg} {s a : State} (ha : acquire c s.beginUpdate = a) :
    updateCycle c s = (cycleDecode c a).account (cycleKind c a) := ha ▸ rfl

/-- A cycle whose acquisition leaves an empty packet and no framing error is an AcquisitionTimeout (R245, R273). -/
theorem updateCycle_of_timeout {c : Cfg} {s a : State} (ha : acquire c s.beginUpdate = a)
    (hk : acqKind a = .acquisitionTimeout) :
    updateCycle c s = { a with lasterr := .acquisitionTimeout, errcnt := a.errcnt + 1, ok := false } := by
  have hkind : cycleKind c a = .acquisitionTimeout := by rw [cycleKind, hk]; rfl
  have hdecode : cycleDecode c a = a := by rw [cycleDecode, hk]; rfl
  rw [updateCycle_eq_account ha, hkind, hdecode, account_fail (by decide)]

/-- A cycle whose acquisition leaves a packet of the model succeeds (R245, R248). -/
theorem updateCycle_of_decodes {c : Cfg} {s a : State} {j : Joystick} (ha : acquire c s.beginUpdate = a)
    (hk : acqKind a = .noError) (hd : decodePacket c a.model a.pkt a.pktlen.toNat = .ok j) :
    updateCycle c s = { a.commit j with lasterr := .noError, errcnt := 0, ok := true } := by
  have hkind : cycleKind c a = .noError := by rw [cycleKind, if_pos hk, decodeKind, hd]
  have hdecode : cycleDecode c a = a.commit j := by rw [cycleDecode, if_pos hk, runDecode, hd]
  rw [updateCycle_eq_account ha, hkind, hdecode, account_ok]

/-- UPDATE is Update() (R246). -/
theorem exec_update (s : State) : exec .update s = .next (runUpdate cfg s) := exec_eq .update s

/-- The escalation test by ERRCNT, for a cycle that failed (R249). -/
theorem escalates_iff_of_failed {c : Cfg} {u : State} (h : u.lasterr ≠ .noError) :
    escalates c u = true ↔ c.errThreshold < u.errcnt.toNat := by
  simp [escalates, h]

/-- UPDATE with a known model whose cycle does not escalate reports its OK in RESULT (R245, R246). -/
theorem exec_update_of_not_escalates {s u : State} (hm : s.model ≠ .unknown) (hu : updateCycle cfg s = u)
    (he : ¬ escalates cfg u = true) : exec .update s = .next (u.setResult (bit16 u.ok)) := by
  rw [exec_update, runUpdate, if_neg hm, hu]
  exact congrArg _ (if_neg he)

/-- UPDATE with a known model whose cycle escalates runs Init() (R249, R280). -/
theorem exec_update_of_escalates {s u : State} (hm : s.model ≠ .unknown) (hu : updateCycle cfg s = u)
    (he : escalates cfg u = true) : exec .update s = .next (initAttempt cfg .updateEscalated u.enterInit) := by
  rw [exec_update, runUpdate, if_neg hm, hu]
  exact congrArg _ (if_pos he)

/-- The cycle of a silent device counts one failure and leaves an empty packet (R245, R273). -/
theorem updateCycle_silent {s : State} {v : Lines} {rest : List Lines} (hh : s.hid = Hidden.dead)
    (hf : s.feed = List.replicate (1 + cfg.tFirst.toNat) v ++ rest) :
    updateCycle cfg s = { s.beginUpdate.silenced cfg v rest with
      lasterr := .acquisitionTimeout, errcnt := s.errcnt + 1, ok := false } :=
  updateCycle_of_timeout (acquire_silent (s := s.beginUpdate) hh hf) rfl

/-- Settles O46: the cycle of a silent device (`updateCycle_silent`) does not escalate below the threshold. -/
theorem updateOnSilenceTimesOut : Obligations.UpdateOnSilenceTimesOut := by
  intro s v rest hh _ hm hlt hf
  refine exec_update_of_not_escalates hm (updateCycle_silent hh hf) ?_
  rw [escalates_iff_of_failed (by nofun)]
  show ¬ 5 < (s.errcnt + 1).toNat
  bv_omega

/-! #### An attempt of Init() -/

/-- An attempt that finds a model returns to its caller (R242). -/
theorem initAttempt_of_detected {c : Cfg} {k : InitCaller} {s x : State} (hx : detectInto c (acquire c s) = x)
    (hm : x.model ≠ .unknown) : initAttempt c k s = x.leaveInit k := by
  rw [initAttempt, hx]
  exact if_neg hm

/-- An attempt that finds none ends at the loop head (R242). -/
theorem initAttempt_of_unknown {c : Cfg} {k : InitCaller} {s x : State} (hx : detectInto c (acquire c s) = x)
    (hm : x.model = .unknown) : initAttempt c k s = x.loopInit k := by
  rw [initAttempt, hx]
  exact if_pos hm

/-- An attempt on a packet of an unambiguous length returns with the length's model (R171, R242). -/
theorem initAttempt_packetWave (k : InitCaller) {s : State} {slots : List Slot} {rest : List Lines} {m : Model}
    (hmem : (slots.length, m) ∈ unambiguousLengths) (hf : s.feed = packetWave slots cfg.tNext.toNat ++ rest) :
    initAttempt cfg k s = ({ acquire cfg s with model := m } : State).leaveInit k ∧ (acquire cfg s).feed = rest := by
  obtain ⟨hm, hlt, hpos, hentry⟩ := lenTable_of_mem_unambiguousLengths hmem
  obtain ⟨ha, hrest, -⟩ := acquire_packetWave hpos hlt hf
  exact ⟨initAttempt_of_detected (detectInto_of_entryOf (ha.len.symm ▸ hentry)) hm, hrest⟩

/-- Settles O47: the cycle of a silent device (`updateCycle_silent`) escalates at the sixth failure, and the attempt of Init()
acquires the device's packet (`initAttempt_packetWave`). -/
theorem sixthFailureRedetects : Obligations.SixthFailureRedetects := by
  intro s v slots rest m hh hs hm h5 hmem hf
  have hu := updateCycle_silent hh hf
  obtain ⟨-, -, -, hdead, hid, -, hframe⟩ := updateCycle_leaves cfg s hh
  have hfailed : (updateCycle cfg s).ok = false := by rw [hu]
  have hjoy : (updateCycle cfg s).joystick = s.joystick := by rw [hu]; rfl
  have hlast : (updateCycle cfg s).lasterr = .acquisitionTimeout := by rw [hu]
  have hwave : (updateCycle cfg s).feed = packetWave slots cfg.tNext.toNat ++ rest := by rw [hu]; rfl
  have hesc : escalates cfg (updateCycle cfg s) = true := by
    rw [escalates_iff_of_failed (by rw [hlast]; nofun), hu]
    show 5 < (s.errcnt + 1).toNat
    bv_omega
  have hexec := exec_update_of_escalates hm rfl hesc
  clear hu hesc
  generalize updateCycle cfg s = u at *
  obtain ⟨hend, hrest⟩ := initAttempt_packetWave .updateEscalated (s := u.enterInit) hmem hwave
  obtain ⟨htrig, hcrit, -⟩ := acquire_leaves cfg u.enterInit hdead
  obtain ⟨hj, herr, hok, -, hl, -⟩ := exceptAcquisition_fields (acquire_frame cfg u.enterInit)
  have hidval := acquire_idval cfg u.enterInit
  have hinit := initAttempt_exceptInit cfg .updateEscalated u.enterInit
  rw [hend] at hexec hinit
  generalize acquire cfg u.enterInit = a at *
  exact ⟨_, hexec, hrest, rfl, rfl, hok.trans hfailed, herr, hl.trans hlast, rfl,
    congrArg bit16 (hok.trans hfailed), rfl, hj.trans hjoy, htrig, hcrit, hidval.trans hid,
    hinit.trans (hframe hfailed)⟩

/-! #### The GamePad scenario -/

/-- Assemble reads the first n slots only (R192). -/
theorem assemble_congr {p q : Packet} {n : Nat} (h : ∀ i < n, Memory.read p i = Memory.read q i) (bps : Nat) :
    assemble p bps n = assemble q bps n := by
  induction n with
  | zero => rfl
  | succ n ih => rw [assemble, assemble, ih fun i hi => h i (by omega), h n (by omega)]

/-- The slots of the GamePad scenario (95_test_vectors.md S1): one bit of each direction pair; the buttons are active low. -/
def padScenario : List Slot := [1, 0, 0, 1, 0, 0, 0, 0, 0, 0, 0, 0, 0, 0, 0]

/-- The scenario's slots put together: bits 0 and 3 (R192, R203). -/
theorem assemble_padScenario {a : State} (h : SlotsCaptured 0b111 padScenario a) : assemble a.pkt 1 15 = 9 := by
  have hslots : ∀ i < 15, Memory.read a.pkt i = Memory.read [(0, 1), (3, 1)] i := fun i hi => by
    rw [h.slots, slot_and_allLines]
    interval_cases i <;> rfl
  rw [assemble_congr hslots]
  decide

/-- The scenario's packet decodes (R203, R204). -/
theorem decodePacket_padScenario {a : State} (h : SlotsCaptured 0b111 padScenario a) :
    decodePacket cfg .gamePad a.pkt a.pktlen.toNat =
      .ok { axis := Vector.ofFn fun i => if i = 1 then 1023 else 0, hat := 0, buttons := 0x03FF } := by
  have hlen : a.pktlen.toNat = 15 := h.len
  have hbits : lowBits (cfg.layout .gamePad).width (assemble a.pkt 1 15) = 9 := by
    rw [assemble_padScenario h]; decide
  have hdec := decodePacket_of_integrity (c := cfg) (m := .gamePad) (pkt := a.pkt) (len := 15) (bps := 1) (by decide) rfl
    (by rw [hbits, integrity_gamePad]; decide)
  rw [hlen, hdec, hbits, extract_gamePad]
  rfl

/-- Settles O45: the cycle acquires the scenario's slots (`acquire_packetWave`), which decode (`decodePacket_padScenario`). -/
theorem updateDecodesTheGamePadScenario : Obligations.UpdateDecodesTheGamePadScenario := by
  intro s rest hh hs hm hf
  obtain ⟨h, hrest, -⟩ := acquire_packetWave (s := s.beginUpdate) (slots := padScenario) (by decide) (by decide) hf
  obtain ⟨-, -, -, -, -, hredet, hill, hseq, -⟩ := exceptAcquisition_fields (acquire_frame cfg s.beginUpdate)
  have hmodel : (acquire cfg s.beginUpdate).model = .gamePad := by
    have a := congrArg State.model (acquire_frame cfg s.beginUpdate); exact a.trans hm
  have hlen : (acquire cfg s.beginUpdate).pktlen.toNat = 15 := h.len
  have hu := updateCycle_of_decodes rfl (acqKind_noError h.ferr (by bv_omega)) (hmodel ▸ decodePacket_padScenario h)
  obtain ⟨hframe, htrig, hcrit, -, hid, -⟩ := updateCycle_leaves cfg s hh
  have hesc : ¬ escalates cfg (updateCycle cfg s) = true := fun he => (lasterr_of_escalates cfg he).1 (by rw [hu])
  have hexec := exec_update_of_not_escalates (by rw [hm]; nofun) rfl hesc
  rw [hu] at hexec hframe htrig hcrit hid
  exact ⟨_, hexec, hrest, rfl, rfl, rfl, rfl, rfl, rfl, hredet, rfl, rfl, hmodel, hseq.trans hs, hill, htrig, hcrit, hid,
    hframe⟩

/-! #### How an attempt of Init() ends -/

theorem entryOf_eq_noModel_iff {m : Model} : entryOf m = .noModel ↔ m = .unknown := by
  cases m <;> simp [entryOf]

/-- A detection finds no model exactly for a length with no entry in LEN_TABLE (R171, R172). -/
theorem detectInto_model_eq_unknown_iff (s : State) :
    (detectInto cfg s).model = .unknown ↔ cfg.lenTable s.pktlen.toNat = .noModel := by
  by_cases hamb : s.pktlen = 16 ∨ s.pktlen = 48
  · have hlen : s.pktlen.toNat = 16 ∨ s.pktlen.toNat = 48 := hamb.imp (congrArg BitVec.toNat) (congrArg BitVec.toNat)
    rw [lenTable_ambiguous hlen]
    exact iff_of_false (detectInto_model_ne_unknown hlen) nofun
  · obtain ⟨h16, h48⟩ := not_or.1 hamb
    have hentry := lenTable_eq_entryOf h16 h48
    rw [detectInto_of_entryOf hentry, hentry, entryOf_eq_noModel_iff]

/-- The report with which Init(), entered from `s`, returns to its caller in `t` (R244, R245, R249). -/
structure ReturnsTo (k : InitCaller) (s t : State) : Prop where
  idle : t.seq = .idle
  found : t.model ≠ .unknown
  ill : t.ill = false
  init : k = .cmdInit → t.ok = true ∧ t.lasterr = .noError ∧ t.redet = false ∧ t.result = (modelCode t.model).setWidth 16
  detection : k = .updateUnknown → t.ok = false ∧ t.lasterr = .noError ∧ t.redet = true ∧ t.result = 0
  escalation : k = .updateEscalated → t.ok = s.ok ∧ t.lasterr = s.lasterr ∧ t.redet = true ∧ t.result = bit16 s.ok

theorem leaveInit_returnsTo (k : InitCaller) {s x : State} (hm : x.model ≠ .unknown) (hok : x.ok = s.ok)
    (hl : x.lasterr = s.lasterr) : ReturnsTo k s (x.leaveInit k) := by
  cases k with
  | cmdInit => exact ⟨rfl, hm, rfl, fun _ => ⟨rfl, rfl, rfl, rfl⟩, nofun, nofun⟩
  | updateUnknown => exact ⟨rfl, hm, rfl, nofun, fun _ => ⟨rfl, rfl, rfl, rfl⟩, nofun⟩
  | updateEscalated => exact ⟨rfl, hm, rfl, nofun, nofun, fun _ => ⟨hok, hl, rfl, congrArg bit16 hok⟩⟩

/-- An attempt ends at the loop head where its packet's length has no entry in LEN_TABLE, and returns where it has one. -/
theorem initAttempt_ends (k : InitCaller) (s : State) :
    cfg.lenTable (acquire cfg s).pktlen.toNat = .noModel ∧
        (initAttempt cfg k s).seq = .initLoop k ∧ (initAttempt cfg k s).model = .unknown ∨
      cfg.lenTable (acquire cfg s).pktlen.toNat ≠ .noModel ∧ ReturnsTo k s (initAttempt cfg k s) := by
  have hiff := detectInto_model_eq_unknown_iff (acquire cfg s)
  obtain ⟨-, -, hok, -, hl, -⟩ := exceptDetection_fields (attempt_frame cfg s)
  have hcases := initAttempt_cases cfg k s
  generalize detectInto cfg (acquire cfg s) = x at *
  rcases hcases with ⟨hm, e⟩ | ⟨hm, e⟩ <;> rw [e]
  · exact Or.inl ⟨hiff.1 hm, rfl, hm⟩
  · exact Or.inr ⟨mt hiff.2 hm, leaveInit_returnsTo k hm hok hl⟩

/-- UPDATE with no known model is the first attempt of Init() (R245, R247). -/
theorem exec_update_of_unknown {s : State} (hm : s.model = .unknown) :
    exec .update s = .next (initAttempt cfg .updateUnknown s.beginUpdate.enterInit) := by
  rw [exec_update, runUpdate, if_pos hm]
  rfl

/-- Settles O43: the first attempt of Init(), how it ends (`initAttempt_ends`), and on a packet of an unambiguous length that
length's model (`initAttempt_packetWave`). -/
theorem updateWithUnknownModelDetects : Obligations.UpdateWithUnknownModelDetects := by
  intro s hh _ hm
  obtain ⟨es, htr, hes⟩ := initAttempt_trace cfg .updateUnknown s.beginUpdate.enterInit
  obtain ⟨hj, herr, -⟩ := initAttempt_keeps cfg .updateUnknown s.beginUpdate.enterInit
  obtain ⟨htrig, hcrit⟩ := initAttempt_outputs cfg .updateUnknown s.beginUpdate.enterInit hh
  have hframe := initAttempt_exceptInit cfg .updateUnknown s.beginUpdate.enterInit
  have hends := initAttempt_ends .updateUnknown s.beginUpdate.enterInit
  have hknown (slots : List Slot) (rest : List Lines) (m : Model) (hmem : (slots.length, m) ∈ unambiguousLengths)
      (hf : s.feed = packetWave slots cfg.tNext.toNat ++ rest) :
      (initAttempt cfg .updateUnknown s.beginUpdate.enterInit).seq = .idle ∧
        (initAttempt cfg .updateUnknown s.beginUpdate.enterInit).model = m ∧
        (initAttempt cfg .updateUnknown s.beginUpdate.enterInit).feed = rest := by
    obtain ⟨h, hrest⟩ := initAttempt_packetWave .updateUnknown (s := s.beginUpdate.enterInit) hmem hf
    rw [h]
    exact ⟨rfl, rfl, hrest⟩
  refine ⟨_, es, exec_update_of_unknown hm, htr.of_eq_left rfl rfl rfl rfl, hes, hj, herr, htrig, hcrit, hframe, ?_, ?_,
    hknown⟩
  · rcases hends with ⟨-, hseq, hmodel⟩ | ⟨-, h⟩
    · exact Or.inr ⟨hseq, hmodel⟩
    · obtain ⟨hok, hl, hredet, hres⟩ := h.detection rfl
      exact Or.inl ⟨h.idle, h.found, hredet, hok, hl, hres, h.ill⟩
  · rcases hends with ⟨hno, hseq, -⟩ | ⟨hsome, h⟩
    · exact iff_of_false (by rw [hseq]; nofun) (not_not.2 hno)
    · exact iff_of_true h.idle hsome

/-! #### The rounds of Init() -/

theorem exceptAcquisition_exceptInit {s t : State} (h : t.exceptAcquisition = s.exceptAcquisition) :
    t.exceptInit = s.exceptInit := by
  rw [State.exceptInit, State.exceptInit, exceptAcquisition_exceptDetection h]

/-- A step in the loop of Init() is a round (R242). -/
theorem step_loop {s : State} {k : InitCaller} (hr : s.rst = .low) (hs : s.seq = .initLoop k) :
    step s = .next (initAttempt cfg k (initSwitch cfg s)) := by
  rw [step_low hr, moveIn_loop cfg hs]
  rfl

/-- What rounds on a silent device keep: the machine stays at the loop head with no model found. -/
structure Looping (k : InitCaller) (s : State) : Prop where
  rst_low : s.rst = .low
  at_head : s.seq = .initLoop k
  hidden_dead : s.hid = Hidden.dead
  unknown : s.model = .unknown

/-- The mode switch polls nothing (R150). -/
theorem initSwitch_feed (s : State) : (initSwitch cfg s).feed = s.feed := by
  rcases initSwitch_cases cfg s with ⟨-, h⟩ | ⟨-, h⟩ <;> rw [h]
  rw [modeSwitch_eq]
  rfl

/-- A round on a silent device acquires an empty packet, so it ends at the loop head (R242, R243). -/
theorem Looping.step_silent {k : InitCaller} {s : State} {v : Lines} {rest : List Lines} (h : Looping k s)
    (hf : s.feed = List.replicate (1 + cfg.tFirst.toNat) v ++ rest) :
    ∃ t, step s = .next t ∧ Looping k t ∧ t.feed = rest := by
  obtain ⟨-, -, -, hrst, -⟩ := exceptAcquisition_fields (initSwitch_frame cfg s)
  have hdead := initSwitch_hid cfg s h.hidden_dead
  have hacq := acquire_silent hdead ((initSwitch_feed s).trans hf)
  have hdet : detectInto cfg (acquire cfg (initSwitch cfg s)) =
      { (initSwitch cfg s).silenced cfg v rest with model := .unknown } := by
    rw [hacq]
    exact detectInto_of_entryOf (m := .unknown) rfl
  refine ⟨_, (step_loop h.rst_low h.at_head).trans (congrArg _ (initAttempt_of_unknown hdet rfl)), ?_, rfl⟩
  exact ⟨hrst.trans h.rst_low, rfl, hdead, rfl⟩

/-- Any number of silent rounds ends at the loop head: there is no bound (R243). -/
theorem Looping.runSteps_silent {k : InitCaller} {v : Lines} {rest : List Lines} (n : Nat) {s : State} (h : Looping k s)
    (hf : s.feed = List.replicate (n * (1 + cfg.tFirst.toNat)) v ++ rest) :
    ∃ t, runSteps n s = .next t ∧ Looping k t ∧ t.feed = rest := by
  induction n generalizing s with
  | zero => exact ⟨s, rfl, h, by rw [hf, Nat.zero_mul]; rfl⟩
  | succ n ih =>
    rw [Nat.succ_mul, Nat.add_comm, List.replicate_add, List.append_assoc] at hf
    obtain ⟨u, hstep, hu, hfeed⟩ := h.step_silent hf
    rw [runSteps, hstep]
    exact ih hu hfeed

/-- Settles O42: a step is a round (`step_loop`), the mode switch's events (`initSwitch_trace`) before an attempt's and its end
(`initAttempt_ends`); silence has no bound by `Looping.runSteps_silent`. -/
theorem initLoopRetriesWithoutBound : Obligations.InitLoopRetriesWithoutBound := by
  intro s k hinv hr hs
  obtain ⟨hunknown, hzero, -⟩ := hinv.looping k hs
  refine ⟨?_, fun n v rest hf => ?_⟩
  · obtain ⟨es, htr, hbelow, hnone⟩ := initSwitch_trace cfg s
    obtain ⟨fs, htr', hattempt⟩ := initAttempt_trace cfg k (initSwitch cfg s)
    obtain ⟨hj, herr, -⟩ := initAttempt_keeps cfg k (initSwitch cfg s)
    obtain ⟨hj', herr', hok, -, hl, -⟩ := exceptAcquisition_fields (initSwitch_frame cfg s)
    have hframe := (initAttempt_exceptInit cfg k (initSwitch cfg s)).trans
      (exceptAcquisition_exceptInit (initSwitch_frame cfg s))
    have hends := initAttempt_ends k (initSwitch cfg s)
    refine ⟨_, es, fs, step_loop hr hs, htr.trans htr', hbelow, hnone, hattempt, ?_, ?_, fun hidle => ?_,
      herr.trans (herr'.trans hzero), hj.trans hj', hframe⟩
    · exact hends.imp (fun ⟨_, hseq, hm⟩ => ⟨hseq, hm⟩) fun ⟨_, h⟩ => ⟨h.idle, h.found⟩
    · rcases hends with ⟨hno, hseq, -⟩ | ⟨hsome, h⟩
      · exact iff_of_true hseq hno
      · exact iff_of_false (by rw [h.idle]; nofun) hsome
    · rcases hends with ⟨-, hseq, -⟩ | ⟨-, h⟩
      · rw [hseq] at hidle; cases hidle
      · refine ⟨h.ill, h.init, h.detection, fun hk => ?_⟩
        obtain ⟨hfailed, -⟩ := hinv.escalated (hk ▸ hs)
        obtain ⟨hok', hl', hredet, hres⟩ := h.escalation hk
        exact ⟨hok'.trans (hok.trans hfailed), hl'.trans hl, hredet, hres.trans (congrArg bit16 (hok.trans hfailed))⟩
  · obtain ⟨t, hrun, ht, hfeed⟩ := Looping.runSteps_silent n ⟨hr, hs, hinv.hidden_dead, hunknown⟩ hf
    exact ⟨t, hrun, ht.at_head, ht.unknown, hfeed⟩

/-! #### WRSLOT and SETLEN -/

/-- A word is its OP and SUB over its IMM (R81). -/
theorem mkWord_eq_or (op sub : BitVec 4) (imm : BitVec 16) : mkWord op sub imm = mkWord op sub 0 ||| imm.setWidth 32 := by
  have hparts (imm : BitVec 16) :
      (mkWord op sub imm).toNat = (op.toNat * 2 ^ 12 + sub.toNat * 2 ^ 8) <<< 16 ||| imm.toNat := by
    rw [mkWord_toNat, ← Nat.shiftLeft_add_eq_or_of_lt imm.isLt, Nat.shiftLeft_eq]
    omega
  have himm : (imm.setWidth 32).toNat = imm.toNat := BitVec.toNat_setWidth_of_le (by decide)
  have hzero : (0 : BitVec 16).toNat = 0 := rfl
  apply BitVec.eq_of_toNat_eq
  rw [BitVec.toNat_or, himm, hparts, hparts, hzero, Nat.or_zero]

/-- The word of WRSLOT as R62's operands place it: the index at bit 8, the value at bit 0 (R82, R83). -/
theorem wrslotWord_eq_encode (idx : BitVec 7) (val : Slot) :
    0xF1000000 ||| (idx.setWidth 32 <<< 8) ||| val.setWidth 32 = encode (.wrslot idx val) := by
  have himm : (wrslotImm idx val).setWidth 32 = (idx.setWidth 32 <<< 8) ||| val.setWidth 32 := by
    have hidx : (idx.setWidth 32 <<< 8).toNat = idx.toNat <<< 8 := by
      rw [BitVec.toNat_shiftLeft, BitVec.toNat_setWidth_of_le (by decide), Nat.shiftLeft_eq, Nat.mod_eq_of_lt (by omega)]
    apply BitVec.eq_of_toNat_eq
    rw [BitVec.toNat_or, hidx, BitVec.toNat_setWidth_of_le (by decide), BitVec.toNat_setWidth_of_le (by decide)]
    rw [wrslotImm, BitVec.toNat_append, BitVec.toNat_append, BitVec.toNat_append]
    simp [← Nat.shiftLeft_add]
  rw [encode_wrslot, mkWord_eq_or, himm, BitVec.or_assoc]
  rfl

/-- The word of SETLEN (R82, R83). -/
theorem setlenWord_eq_mkWord (n : BitVec 8) : 0xF2000000 ||| n.setWidth 32 = mkWord 0xF 2 ((0 : BitVec 8) ++ n) := by
  have himm : ((0 : BitVec 8) ++ n).setWidth 32 = n.setWidth 32 := by
    apply BitVec.eq_of_toNat_eq
    rw [BitVec.toNat_setWidth_of_le (by decide), BitVec.toNat_setWidth_of_le (by decide), BitVec.toNat_append]
    simp
  rw [mkWord_eq_or, himm]
  rfl

/-- A SETLEN word with a length above 128 is illegal (R95, R252). -/
theorem refuses_setlenWord {n : BitVec 8} (h : 128 < n.toNat) : Refuses (decode (mkWord 0xF 2 ((0 : BitVec 8) ++ n))) := by
  have lo : ((0 : BitVec 8) ++ n).extractLsb' 0 8 = n := BitVec.extractLsb'_append_eq_right
  rw [decode_mkWord]
  exact (refuses_decodeSetlen _).2 (Or.inr (lo.symm ▸ h))

/-- Settles O51: the word is WRSLOT's encoding; the packet is `Memory.write`'s. -/
theorem wrslotWritesOneSlot : Obligations.WrslotWritesOneSlot := by
  intro idx val s
  exact ⟨wrslotWord_eq_encode idx val ▸ decode_encode (.wrslot idx val) trivial, _, exec_eq (.wrslot idx val) s,
    fun i => Memory.read_write s.pkt idx.toNat i val, fun h => Memory.wf_write h idx.isLt val⟩

/-- Settles O52: the word is SETLEN's encoding, refused above 128; the packet is `Memory.below`'s. -/
theorem setlenTruncatesThePacket : Obligations.SetlenTruncatesThePacket := by
  refine ⟨fun n s hn => ⟨?_, _, exec_eq (.setlen n) s, Memory.read_below s.pkt n.toNat,
    fun h => Memory.wf_below h n.toNat⟩, fun n hn => ?_⟩
  · rw [setlenWord_eq_mkWord]
    exact decode_encode (.setlen n) hn
  · rw [setlenWord_eq_mkWord]
    exact refuses_setlenWord hn

end Sys2Proof.Machine
end

section
/-! ### PROOFS of family `60_exceptions.md`: idling -/

namespace Sys2Proof.Machine

/-- Settles O7: a step of a released machine is its move (`step_low`), and idling moves nothing (`moveIn_idle`; R289, log 4). -/
theorem idleMachineKeepsItsState : Obligations.IdleMachineKeepsItsState := by
  intro s hr hs hc
  calc step s = .next (moveIn cfg s) := step_low hr
    _ = .next s := by rw [moveIn_idle cfg hs hc]

end Sys2Proof.Machine
end

section
/-! ### PROOFS of family `70_reset_and_hazards.md`: the poll bounds of R312

The waits bound their own polls (`waitEdge_trace`, `waitLevel_trace`), and so do the acquisitions and the secondary read
(`acqSerial_trace`, `acqByte_trace`, `readId_trace`), whose loops run on a fuel of R312's rounds. What is left is to add up
what surrounds them, which polls nothing, and to say that no operation but INIT and UPDATE leaves the idle position. -/

namespace Sys2Proof.Machine

/-! #### At most n polls -/

/-- What leads from `s` to `t` is a traced run of events with at most `n` polls among them. -/
def PollsWithin (n : Nat) (s t : State) : Prop := ∃ es, Trace s t es ∧ pollCount es ≤ n

section
variable {m n : Nat} {s t u : State}

theorem Trace.pollsWithin {es : List Event} (h : Trace s t es) (hn : pollCount es ≤ n) : PollsWithin n s t := ⟨es, h, hn⟩

theorem PollsWithin.refl (s : State) : PollsWithin 0 s s := (Trace.refl s).pollsWithin le_rfl

theorem PollsWithin.trans (h : PollsWithin m s t) (g : PollsWithin n t u) : PollsWithin (m + n) s u := by
  obtain ⟨es, h, hm⟩ := h
  obtain ⟨fs, g, hn⟩ := g
  exact (h.trans g).pollsWithin (pollCount_append es fs ▸ Nat.add_le_add hm hn)

theorem PollsWithin.mono (h : PollsWithin m s t) (hmn : m ≤ n) : PollsWithin n s t := by
  obtain ⟨es, h, hm⟩ := h
  exact h.pollsWithin (hm.trans hmn)

/-- Changing fields no trace speaks of polls nothing: the report of an operation. -/
theorem PollsWithin.of_eq (h : PollsWithin n s t) (he : u.evt = t.evt) (hf : u.feed = t.feed) (hd : u.draws = t.draws)
    (hl : u.lastin = t.lastin) : PollsWithin n s u := by
  obtain ⟨es, h, hn⟩ := h
  exact (h.of_eq he hf hd hl).pollsWithin hn

theorem PollsWithin.setResult (h : PollsWithin n s t) (v : BitVec 16) : PollsWithin n s (t.setResult v) :=
  h.of_eq rfl rfl rfl rfl

theorem PollsWithin.complete (h : PollsWithin n s t) (e : ErrKind) : PollsWithin n s (t.complete e) :=
  h.of_eq rfl rfl rfl rfl

theorem PollsWithin.reportAcquisition (h : PollsWithin n s t) : PollsWithin n s t.reportAcquisition :=
  h.of_eq rfl rfl rfl rfl

end

/-- The outputs that open and end an acquisition are no polls (R141). -/
theorem pollCount_bracket (ps : List Event) :
    pollCount ([.crit true, .trig true] ++ ps ++ [.trig false, .crit false]) = pollCount ps := by
  simp [pollCount_append, pollCount_cons, pollCount_nil, Event.isPoll]

/-! #### The procedures -/

section
variable (c : Cfg)

theorem State.poll_pollsWithin (s : State) : PollsWithin 1 s s.poll := by
  have h : Trace s s.poll ((s.answers 1).map Event.poll) := State.polled_one s ▸ Trace.polled s 1
  exact h.pollsWithin (by rw [pollCount_map_poll, State.length_answers])

theorem State.driveTrig_pollsWithin (l : Bool) (s : State) : PollsWithin 0 s (s.driveTrig l) :=
  (Trace.driveTrig s l).pollsWithin le_rfl

theorem State.pause_pollsWithin (us : Nat) (s : State) : PollsWithin 0 s (s.pause us) :=
  (Trace.pause s us).pollsWithin le_rfl

theorem coolDown_pollsWithin (s : State) : PollsWithin 0 s (coolDown c s) := s.pause_pollsWithin c.cooldownUs

theorem modeSwitch_pollsWithin (s : State) : PollsWithin 0 s (modeSwitch c s) := by
  have hp : pollCount (modeswEvents c c.modeswSeq) = 0 := pollCount_eq_zero (modeswEvents_poll c _)
  refine (modeSwitch_trace c s).pollsWithin ?_
  simp [pollCount_append, pollCount_cons, pollCount_nil, Event.isPoll, hp]

theorem waitEdge_pollsWithin (l : Line) (d : Dir) (tmo : Timeout) (s : State) :
    PollsWithin (1 + tmo.toNat) s (waitEdge l d tmo s) := by
  obtain ⟨es, h, -, -, hn⟩ := waitEdge_trace l d tmo s
  exact h.pollsWithin (by omega)

theorem waitLevel_pollsWithin (l : Line) (level : Bool) (tmo : Timeout) (s : State) :
    PollsWithin tmo.toNat s (waitLevel l level tmo s) := by
  obtain ⟨es, h, -, hn⟩ := waitLevel_trace l level tmo s
  exact h.pollsWithin hn

theorem acqSerial_pollsWithin (keep : Slot) (s : State) :
    PollsWithin (1 + c.tFirst.toNat + capSlots * (1 + c.tNext.toNat)) s (acqSerial c keep s) := by
  obtain ⟨ps, h, -, -, hn⟩ := acqSerial_trace c keep s
  exact h.pollsWithin (pollCount_bracket ps ▸ hn)

theorem acqByte_pollsWithin (s : State) :
    PollsWithin (1 + c.tFirst.toNat + byteRounds * (1 + c.tNext.toNat)) s (acqByte c s) := by
  obtain ⟨ps, h, -, -, hn⟩ := acqByte_trace c s
  exact h.pollsWithin (pollCount_bracket ps ▸ hn)

theorem readId_pollsWithin (len : Nat) (s : State) :
    PollsWithin (1 + c.tFirst.toNat + capSlots * (1 + c.tNext.toNat)) s (readId c len s) := by
  obtain ⟨ps, h, -, -, hn⟩ := readId_trace c len s
  exact h.pollsWithin (pollCount_bracket ps ▸ hn)

/-- A detection makes at most one secondary read, after a cooldown (R172). -/
theorem detectInto_pollsWithin (s : State) :
    PollsWithin (1 + c.tFirst.toNat + capSlots * (1 + c.tNext.toNat)) s (detectInto c s) := by
  have hread : PollsWithin (1 + c.tFirst.toNat + capSlots * (1 + c.tNext.toNat)) s (detectRead c s) := by
    rcases detectRead_cases c s with h | h <;> rw [h]
    · exact (PollsWithin.refl s).mono (Nat.zero_le _)
    · exact ((coolDown_pollsWithin c s).trans (readId_pollsWithin c s.pktlen.toNat _)).mono (by omega)
  exact hread.of_eq rfl rfl rfl rfl

theorem decodeWith_pollsWithin (m : Model) (s : State) : PollsWithin 0 s (decodeWith c m s) :=
  (decodeWith_trace c m s).pollsWithin le_rfl

/-! #### The operations -/

/-- Only Init(), which INIT and UPDATE alone can run, moves the sequencer (R45, R243). -/
theorem opIn_seq {i : Instr} (hi : i ≠ .init) (hu : i ≠ .update) (s : State) : (opIn c i s).seq = s.seq := by
  have hdo := opIn_does c i s
  generalize opIn c i s = t at hdo ⊢
  cases hdo with
  | reads addr => rfl
  | completes _ _ _ hf =>
    obtain ⟨-, -, hs, -⟩ := exceptRead_fields hf
    exact hs
  | detects =>
    obtain ⟨-, -, hs⟩ := detectInto_keeps c s
    exact hs
  | decodes m =>
    rcases decodeWith_cases c m s with ⟨j, -, hw⟩ | ⟨e, -, -, hw⟩ <;> rw [hw] <;> rfl
  | inits => exact absurd rfl hi
  | updates => exact absurd rfl hu

end

/-- R312's bound, operation by operation. -/
theorem opIn_pollsWithin {i : Instr} (hi : i ≠ .init) (hu : i ≠ .update) (s : State) :
    PollsWithin (pollBound i) s (opIn cfg i s) := by
  cases i with
  | nop => exact (PollsWithin.refl s).complete _
  | rdlvl line => exact (s.poll_pollsWithin.setResult _).complete _
  | settrig level => exact (s.driveTrig_pollsWithin level).complete _
  | pulse us =>
    exact (((s.driveTrig_pollsWithin true).trans (State.pause_pollsWithin us.toNat _)).trans
      (State.driveTrig_pollsWithin false _)).complete _
  | waitedge line dir tmo => exact ((waitEdge_pollsWithin line dir tmo s).setResult _).complete _
  | waitlvl line level tmo => exact ((waitLevel_pollsWithin line level tmo s).setResult _).complete _
  | acqs => exact (acqSerial_pollsWithin cfg 0b001 s).reportAcquisition
  | acqt => exact (acqSerial_pollsWithin cfg 0b111 s).reportAcquisition
  | acqb => exact (acqByte_pollsWithin cfg s).reportAcquisition
  | modesw => exact (modeSwitch_pollsWithin cfg s).complete _
  | cooldown => exact (coolDown_pollsWithin cfg s).complete _
  | readid len => exact ((readId_pollsWithin cfg len.toNat s).setResult _).complete _
  | detect => exact ((detectInto_pollsWithin cfg s).setResult _).complete _
  | decode => exact decodeWith_pollsWithin cfg s.model s
  | decGp => exact decodeWith_pollsWithin cfg .gamePad s
  | dec3dp => exact decodeWith_pollsWithin cfg .threeDPro s
  | decPp => exact decodeWith_pollsWithin cfg .precisionPro s
  | decFfp => exact decodeWith_pollsWithin cfg .forceFeedbackPro s
  | decFfw => exact decodeWith_pollsWithin cfg .forceFeedbackWheel s
  | init => exact absurd rfl hi
  | update => exact absurd rfl hu
  | rdreg addr => exact (PollsWithin.refl s).setResult _
  | hatnib nib => exact ((PollsWithin.refl s).setResult _).complete _
  | wrslot idx val => exact (PollsWithin.refl s).of_eq rfl rfl rfl rfl
  | setlen n => exact (PollsWithin.refl s).of_eq rfl rfl rfl rfl

/-- Settles O60: the operation ends idle by `opIn_seq`, within its polls by `opIn_pollsWithin`. -/
theorem operationsCompleteWithinTheirPolls : Obligations.OperationsCompleteWithinTheirPolls := by
  intro i s hi hu hs
  obtain ⟨es, htrace, hpolls⟩ := opIn_pollsWithin hi hu s
  exact ⟨_, es, exec_eq i s, (opIn_seq cfg hi hu s).trans hs, htrace, hpolls⟩

end Sys2Proof.Machine
end
